-- ==== Sys2Proof/Word.lean ====
section
/-! DEFINITION. The two word types of the block (00_scope.md R12, R13): a 32-bit value, as WRREG, RDREG and the
command port carry it, and a byte. -/

namespace Sys2Proof

/-- A 32-bit value: a word of the command port, a register as WRREG and RDREG see it (R22, R80). -/
abbrev Word := BitVec 32

/-- A byte (R13). -/
abbrev Byte := BitVec 8

end Sys2Proof
end

