-- ==== Sys2Proof/Config.lean ====
section
/-! DEFINITION. What is fixed for one block and what the spec leaves open: the six memory spaces, the two capacity
parameters, and the values the spec does not fix (opaque constants: nothing can evaluate them). -/

namespace Sys2Proof

/-- The six byte memories, in the order of their SEL numbers 0..5 (20_memory.md R60). -/
inductive Space
  | ifb
  | qb
  | pb
  | cb
  | pa
  | ma
  deriving DecidableEq, Repr

/-- The parameters MAX_SAMPLES and CB_CAP, "left open and a model takes them as arguments" (00_scope.md R10).
They are data of the state that no command changes (log entry 1). -/
structure Params where
  maxSamples : Nat
  cbCap : Nat
  deriving DecidableEq, Repr

/-- The constraints of R10: 1 ≤ MAX_SAMPLES ≤ 2^32 − 3345 (90_conflicts.md C6) and 1 ≤ CB_CAP ≤ 2^32 − 16. -/
def Params.wf (p : Params) : Bool :=
  decide (1 ≤ p.maxSamples) && decide (p.maxSamples ≤ 2 ^ 32 - 3345)
    && decide (1 ≤ p.cbCap) && decide (p.cbCap ≤ 2 ^ 32 - 16)

/-- The legal parameters that two numbers pick, the largest at 0. Every legal value of both is picked by some numbers
(`Params.ofDraws_surjective` in Laws/State.lean). -/
def Params.ofDraws (m c : Nat) : Params :=
  { maxSamples := 2 ^ 32 - 3345 - 1 - m % (2 ^ 32 - 3345) + 1, cbCap := 2 ^ 32 - 16 - 1 - c % (2 ^ 32 - 16) + 1 }

/-- Which MAX_SAMPLES the block has: left open (R10), nothing is known of it (log entry 1). -/
opaque Config.maxSamplesDraw : Nat

/-- Which CB_CAP the block has: left open (R10), nothing is known of it (log entry 1). -/
opaque Config.cbCapDraw : Nat

/-- The parameters of the block of `State.reset`: legal, and otherwise unknown (log entry 1). -/
def Config.params : Params := .ofDraws Config.maxSamplesDraw Config.cbCapDraw

/-- The parameter MEM_INIT (R10, 20_memory.md R76): what a byte that no command has written since power-on reads as.
A draw, about which nothing is assumed (log entry 2). -/
opaque Config.memInit : Space → Nat → Byte

/-- Quant "is undefined for b outside 1..8" (41_quantizer.md R120): a free value of the sample and the width. No
state a run reaches applies Quant there (log entry 3). -/
opaque Config.quantOutside : Byte → Nat → Byte

/-- What a 32-bit length register holds for a length of 2^32 or more, which no rule states: a free value of the length.
The one length that reaches it is the PKT_LEN of a generation-2 packet whose payload has 2^32 − 16 bytes, the largest
CB_CAP of R10 (log entry 11). -/
opaque Config.lengthOutside : Nat → Word

end Sys2Proof
end

