-- ==== Sys2Proof/Syntax.lean ====
section
/-! DEFINITION. The commands of the block: what stands on the command port (three words), and the twenty commands of
the opcode map (30_encoding.md R80, R84, R85), one constructor each. -/

namespace Sys2Proof

/-- One transaction on the command port: "three 32-bit words (CMD, ADDR, DATA) presented together" (R80). -/
structure Command where
  cmd : Word
  addr : Word
  data : Word
  deriving DecidableEq, Repr

/-- The commands, in the order of the opcode map R85, with the operands R84 gives each. An operand R84 marks with a
dash is ignored (R83) and has no place here; the high word of a timestamp is an operand that FHDR and MPKT ignore,
and it is kept (log entry 8). -/
inductive Instr
  /-- 0x00 NOP (R100). -/
  | nop
  /-- 0x01 WRREG: register index, value (R101). -/
  | wrreg (r v : Word)
  /-- 0x02 RDREG: register index (R102). -/
  | rdreg (r : Word)
  /-- 0x03 WRMEM: space, byte address, byte in bits 7..0 of the value (R103). -/
  | wrmem (sp : Space) (a v : Word)
  /-- 0x04 RDMEM: space, byte address (R104). -/
  | rdmem (sp : Space) (a : Word)
  /-- 0x05 SETUP (R105, R106, R107). -/
  | setup
  /-- 0x06 CLRERR (R108). -/
  | clrerr
  /-- 0x07 SRESET (R109). -/
  | sreset
  /-- 0x08 QSAMPLE: channel, sample in bits 7..0 (R122). -/
  | qsample (c v : Word)
  /-- 0x09 QUANT (R123). -/
  | quant
  /-- 0x0A PACK (R135). -/
  | pack
  /-- 0x0B QPACK (R136). -/
  | qpack
  /-- 0x0C SRST (R131). -/
  | srst
  /-- 0x0D SPUSH: bit count (the SEL field), value (R132). -/
  | spush (n : Nat) (v : Word)
  /-- 0x0E SFLUSH (R133). -/
  | sflush
  /-- 0x10 FHDR: timestamp bits 63..32 (ignored) and 31..0 (R157, R158). -/
  | fhdr (tsHi ts : Word)
  /-- 0x11 FPAY (R161). -/
  | fpay
  /-- 0x12 FMETA (R162). -/
  | fmeta
  /-- 0x13 FDONE (R168). -/
  | fdone
  /-- 0x14 MPKT: timestamp bits 63..32 (ignored) and 31..0 (R169, R158). -/
  | mpkt (tsHi ts : Word)
  deriving DecidableEq, Repr

end Sys2Proof
end

