-- ==== Sys2Proof/WellFormed.lean ====
section
/-! DEFINITION. Which terms of `Instr` a command word can carry. The operands' types say all but one thing: the bit
count of SPUSH stands in the 4-bit field SEL (30_encoding.md R81). -/

namespace Sys2Proof

/-- Every operand fits the field that carries it. A bit count of 0 or of 9..15 fits the field: it is "not illegal
but a bad operand" (R82). -/
def Instr.wf : Instr → Bool
  | .nop => true
  | .wrreg _ _ => true
  | .rdreg _ => true
  | .wrmem _ _ _ => true
  | .rdmem _ _ => true
  | .setup => true
  | .clrerr => true
  | .sreset => true
  | .qsample _ _ => true
  | .quant => true
  | .pack => true
  | .qpack => true
  | .srst => true
  | .spush n _ => decide (n < 16)
  | .sflush => true
  | .fhdr _ _ => true
  | .fpay => true
  | .fmeta => true
  | .fdone => true
  | .mpkt _ _ => true

end Sys2Proof
end

