-- ==== Sys2Proof/Decode.lean ====
section
/-! DEFINITION. Decoding a command (30_encoding.md R81, R82, R85, R86, R87): total on any three words, rejecting by
name; after it the encoder, written from the same tables. -/

namespace Sys2Proof

/-! ## The fields of CMD (R81) -/

/-- OP, CMD[7:0]. -/
def cmdOp (w : Word) : Byte := w.extractLsb' 0 8

/-- SEL, CMD[11:8]. -/
def cmdSel (w : Word) : BitVec 4 := w.extractLsb' 8 4

/-- CMD[31:12], "reserved, must be 0". -/
def cmdReserved (w : Word) : BitVec 20 := w.extractLsb' 12 20

/-- The space SEL selects; "SEL values 6 to 15 select no space" (20_memory.md R60). -/
def spaceOfSel (sel : BitVec 4) : Option Space :=
  match sel.toNat with
  | 0 => some .ifb
  | 1 => some .qb
  | 2 => some .pb
  | 3 => some .cb
  | 4 => some .pa
  | 5 => some .ma
  | _ => none

/-! ## Decoding -/

/-- Why a command is illegal (R82). All four raise the one error ILLEGAL_COMMAND; the names only say which clause of
R82 a command meets first, in the order they are tried here (log entry 14). -/
inductive DecodeError
  /-- CMD[31:12] ≠ 0. -/
  | reservedBits
  /-- OP is not in the map of R85 (0x0F, 0x15..0xFF, R86). -/
  | unassignedOpcode
  /-- SEL ≠ 0 for an opcode other than WRMEM, RDMEM and SPUSH. -/
  | selNotZero
  /-- SEL in 6..15 for WRMEM or RDMEM. -/
  | noSuchSpace
  deriving DecidableEq, Repr

/-- A command whose SEL must be 0. -/
def withoutSel (sel : BitVec 4) (i : Instr) : Except DecodeError Instr :=
  if sel = 0 then .ok i else .error .selNotZero

/-- A command whose SEL names a space. -/
def withSpace (sel : BitVec 4) (i : Space → Instr) : Except DecodeError Instr :=
  match spaceOfSel sel with
  | some sp => .ok (i sp)
  | none => .error .noSuchSpace

/-- The opcode map R85 with the operand use of R84. -/
def decodeOp (op : Byte) (sel : BitVec 4) (addr data : Word) : Except DecodeError Instr :=
  match op.toNat with
  | 0x00 => withoutSel sel .nop
  | 0x01 => withoutSel sel (.wrreg addr data)
  | 0x02 => withoutSel sel (.rdreg addr)
  | 0x03 => withSpace sel fun sp => .wrmem sp addr data
  | 0x04 => withSpace sel fun sp => .rdmem sp addr
  | 0x05 => withoutSel sel .setup
  | 0x06 => withoutSel sel .clrerr
  | 0x07 => withoutSel sel .sreset
  | 0x08 => withoutSel sel (.qsample addr data)
  | 0x09 => withoutSel sel .quant
  | 0x0A => withoutSel sel .pack
  | 0x0B => withoutSel sel .qpack
  | 0x0C => withoutSel sel .srst
  | 0x0D => .ok (.spush sel.toNat data)
  | 0x0E => withoutSel sel .sflush
  | 0x10 => withoutSel sel (.fhdr addr data)
  | 0x11 => withoutSel sel .fpay
  | 0x12 => withoutSel sel .fmeta
  | 0x13 => withoutSel sel .fdone
  | 0x14 => withoutSel sel (.mpkt addr data)
  | _ => .error .unassignedOpcode

/-- Decoding is total: "every 32-bit CMD either matches exactly one row or is illegal" (R87). -/
def decode (c : Command) : Except DecodeError Instr :=
  if cmdReserved c.cmd = 0 then decodeOp (cmdOp c.cmd) (cmdSel c.cmd) c.addr c.data
  else .error .reservedBits

/-! ## The encoder -/

/-- The opcode of a command (R85). It is also what ERR_OP records when the command raises an error (10_state.md R41):
CMD[7:0] of a command that decodes. -/
def Instr.opcode : Instr → Byte
  | .nop => 0x00
  | .wrreg _ _ => 0x01
  | .rdreg _ => 0x02
  | .wrmem _ _ _ => 0x03
  | .rdmem _ _ => 0x04
  | .setup => 0x05
  | .clrerr => 0x06
  | .sreset => 0x07
  | .qsample _ _ => 0x08
  | .quant => 0x09
  | .pack => 0x0A
  | .qpack => 0x0B
  | .srst => 0x0C
  | .spush _ _ => 0x0D
  | .sflush => 0x0E
  | .fhdr _ _ => 0x10
  | .fpay => 0x11
  | .fmeta => 0x12
  | .fdone => 0x13
  | .mpkt _ _ => 0x14

/-- The SEL number of a space (20_memory.md R60). -/
def Space.sel : Space → BitVec 4
  | .ifb => 0
  | .qb => 1
  | .pb => 2
  | .cb => 3
  | .pa => 4
  | .ma => 5

/-- What a command carries in SEL (R84). -/
def Instr.sel : Instr → BitVec 4
  | .nop => 0
  | .wrreg _ _ => 0
  | .rdreg _ => 0
  | .wrmem sp _ _ => sp.sel
  | .rdmem sp _ => sp.sel
  | .setup => 0
  | .clrerr => 0
  | .sreset => 0
  | .qsample _ _ => 0
  | .quant => 0
  | .pack => 0
  | .qpack => 0
  | .srst => 0
  | .spush n _ => BitVec.ofNat 4 n
  | .sflush => 0
  | .fhdr _ _ => 0
  | .fpay => 0
  | .fmeta => 0
  | .fdone => 0
  | .mpkt _ _ => 0

/-- What a command carries in ADDR and in DATA (R84); 0 where R84 has a dash. -/
def Instr.operands : Instr → Word × Word
  | .nop => (0, 0)
  | .wrreg r v => (r, v)
  | .rdreg r => (r, 0)
  | .wrmem _ a v => (a, v)
  | .rdmem _ a => (a, 0)
  | .setup => (0, 0)
  | .clrerr => (0, 0)
  | .sreset => (0, 0)
  | .qsample c v => (c, v)
  | .quant => (0, 0)
  | .pack => (0, 0)
  | .qpack => (0, 0)
  | .srst => (0, 0)
  | .spush _ v => (0, v)
  | .sflush => (0, 0)
  | .fhdr tsHi ts => (tsHi, ts)
  | .fpay => (0, 0)
  | .fmeta => (0, 0)
  | .fdone => (0, 0)
  | .mpkt tsHi ts => (tsHi, ts)

/-- CMD from its fields (R81): reserved 0, SEL, OP. -/
def cmdWord (op : Byte) (sel : BitVec 4) : Word := 0#20 ++ sel ++ op

/-- The three words of a command. -/
def encode (i : Instr) : Command :=
  { cmd := cmdWord i.opcode i.sel, addr := i.operands.1, data := i.operands.2 }

/-! ## Commands numbered as spec/opcode_table.json numbers their bits -/

/-- The command whose first `nbits` bits are those of `w`, the bits above them zero: bits 31..0 are CMD, bits 63..32
ADDR, bits 95..64 DATA (log entry 12). -/
def commandOf (nbits w : Nat) : Command :=
  let v := w % 2 ^ nbits
  { cmd := BitVec.ofNat 32 v, addr := BitVec.ofNat 32 (v / 2 ^ 32), data := BitVec.ofNat 32 (v / 2 ^ 64) }

/-- What the decoder reads from that command; none where it is illegal. -/
def decodeTableWord (nbits w : Nat) : Option Instr :=
  match decode (commandOf nbits w) with
  | .ok i => some i
  | .error _ => none

end Sys2Proof
end

