-- ==== Sys2Proof/Machine/State.lean ====
section
/-! DEFINITION. The state of the block as plain data (10_state.md, 20_memory.md), its value after power-on reset
(70_reset_and_hazards.md R220), and the ways a step can stop. -/

namespace Sys2Proof.Machine

/-! ## Values with names -/

/-- FSTATE, the framer's state (10_state.md R35, 43_framer.md R150); the codes 5..7 "never occur" (log entry 9). -/
inductive FState
  | new
  | headerWritten
  | payloadWritten
  | metadataWritten
  | complete
  deriving DecidableEq, Repr

/-- F_SRC, the payload source of the packet being built (R35): RAW from PB, COMP and EXT from CB; the code 3 "never
occurs" (log entry 9). -/
inductive FSrc
  | raw
  | comp
  | ext
  deriving DecidableEq, Repr

/-- ERR_CODE (60_exceptions.md R200); "codes 6 to 255 are never recorded" (log entry 9). -/
inductive ErrCode
  /-- 0: no error recorded. -/
  | noError
  /-- 1: undecodable command word (R202). -/
  | illegalCommand
  /-- 2: a configuration check of SETUP failed (R206). -/
  | configError
  /-- 3: command not legal in the current state (R203). -/
  | sequenceError
  /-- 4: index, address or capacity out of range (R204). -/
  | rangeError
  /-- 5: operand or data value out of its legal range (R205). -/
  | valueError
  deriving DecidableEq, Repr

/-- The access classes of registers (10_state.md R23). -/
inductive RegClass
  | cfg
  | frame
  | ro
  deriving DecidableEq, Repr

/-- The registers of the map R42 as WRREG and RDREG name them. `mname k` is index 0x200 + k: half k mod 2 of the name
of slot k div 2 (R31). -/
inductive Reg
  | frameW
  | frameH
  | chanC
  | mode
  | compEn
  | gen
  | metaCount
  | status
  | err
  | nsamp
  | sumb
  | plenRaw
  | hdrLen
  | ser
  | serWp
  | clen
  | cvalid
  | fTs
  | fPlen
  | pktLen
  | mTs
  | mpktLen
  | bw (c : Fin 256)
  | mname (k : Fin 512)
  | mval (s : Fin 256)
  | ebw (c : Fin 256)
  deriving DecidableEq, Repr

/-! ## The state -/

/-- The register file: every named field of the map R42, each with the width R42 gives it. -/
structure Regs where
  /-- FRAME_W (R24). -/
  frameW : Word
  /-- FRAME_H (R24). -/
  frameH : Word
  /-- CHAN_C (R26). -/
  chanC : BitVec 8
  /-- MODE.UNIFORM (R25). -/
  uniform : Bool
  /-- MODE.UBITS (R25). -/
  ubits : BitVec 4
  /-- COMP_EN (R28). -/
  compEn : Bool
  /-- GEN (R27). -/
  gen : BitVec 2
  /-- META_COUNT (R29). -/
  metaCount : BitVec 9
  /-- BW[0..255] (R30). -/
  bw : Vector (BitVec 4) 256
  /-- MNAME[0..255], two halves a slot (R31). -/
  mname : Vector Word 512
  /-- STATUS.CONFIGURED (R35). -/
  configured : Bool
  /-- STATUS.FSTATE (R35). -/
  fstate : FState
  /-- STATUS.F_COMP (R35, R45). -/
  fComp : Bool
  /-- STATUS.MPKT_VALID (R35, R40). -/
  mpktValid : Bool
  /-- STATUS.F_SRC (R35). -/
  fSrc : FSrc
  /-- ERR.ERR_CODE (R41). -/
  errCode : ErrCode
  /-- ERR.ERR_OP (R41). -/
  errOp : Byte
  /-- ERR.ERR_INFO (R41). -/
  errInfo : Byte
  /-- ERR.ERR_MORE (R41). -/
  errMore : Bool
  /-- NSAMP (R37). -/
  nsamp : Word
  /-- SUMB (R37). -/
  sumb : Word
  /-- PLEN_RAW (R37). -/
  plenRaw : Word
  /-- HDR_LEN (R37). -/
  hdrLen : Word
  /-- EBW[0..255] (R36). -/
  ebw : Vector (BitVec 4) 256
  /-- SER.SER_ACC (R38). -/
  serAcc : Byte
  /-- SER.SER_NB (R38). -/
  serNb : BitVec 3
  /-- SER_WP (R38). -/
  serWp : Word
  /-- CLEN (R33). -/
  clen : Word
  /-- CVALID (R34). -/
  cvalid : Bool
  /-- MVAL[0..255] (R32). -/
  mval : Vector Word 256
  /-- F_TS (R39). -/
  fTs : Word
  /-- F_PLEN (R39). -/
  fPlen : Word
  /-- PKT_LEN (R39). -/
  pktLen : Word
  /-- M_TS (R40). -/
  mTs : Word
  /-- MPKT_LEN (R40). -/
  mpktLen : Word
  deriving DecidableEq, Repr

/-- "Every register of 10_state.md rule R42 holds its reset value, which is 0 for every field of every register"
(R220; SRESET gives the same value, R109). -/
def Regs.reset : Regs :=
  { frameW := 0, frameH := 0, chanC := 0, uniform := false, ubits := 0, compEn := false, gen := 0, metaCount := 0
    bw := Vector.replicate 256 0, mname := Vector.replicate 512 0
    configured := false, fstate := .new, fComp := false, mpktValid := false, fSrc := .raw
    errCode := .noError, errOp := 0, errInfo := 0, errMore := false
    nsamp := 0, sumb := 0, plenRaw := 0, hdrLen := 0, ebw := Vector.replicate 256 0
    serAcc := 0, serNb := 0, serWp := 0, clen := 0, cvalid := false, mval := Vector.replicate 256 0
    fTs := 0, fPlen := 0, pktLen := 0, mTs := 0, mpktLen := 0 }

/-- One memory: the bytes written since power-on, by address, addresses strictly rising. An address that is not
listed holds its power-on value (20_memory.md R76, log entry 2). -/
abbrev Memory := List Host.Cell

/-- The state of the block, and the model's own three fields `params`, `port` and `resp`. -/
structure State where
  /-- The parameters of R10; no command changes them (log entry 1). -/
  params : Params
  /-- The registers. -/
  regs : Regs
  /-- IFB, input frame buffer (R61). -/
  ifb : Memory
  /-- QB, quantized frame buffer (R62). -/
  qb : Memory
  /-- PB, packed bitstream buffer (R64). -/
  pb : Memory
  /-- CB, compressed or encoded payload buffer (R64). -/
  cb : Memory
  /-- PA, packet arena (R63). -/
  pa : Memory
  /-- MA, metadata-packet arena (R63). -/
  ma : Memory
  /-- The commands the host has issued and the block has not yet performed, oldest first (R70, R80; log entry 5). -/
  port : List Command
  /-- RESP of the last command performed; "RESP has no value until the first command" (R48, R220; log entry 7). -/
  resp : Option Word
  deriving DecidableEq, Repr

/-- Power-on reset (R220) of the block with the parameters `p` (R10): every register 0, no memory byte written, no
response yet, no command presented. -/
def State.powerOn (p : Params) : State :=
  { params := p, regs := Regs.reset
    ifb := [], qb := [], pb := [], cb := [], pa := [], ma := []
    port := [], resp := none }

/-- Power-on reset (R220) of a block of which nothing but R10 is known (log entry 1). -/
def State.reset : State := State.powerOn Config.params

/-! ## How a step can stop -/

/-- The one stop of the block. Its own errors are no stop: they are recorded and the block goes on (R201, R210). -/
inductive Fault
  /-- A bulk command (QUANT, PACK, QPACK, FPAY, FMETA, MPKT) whose byte range would leave the space `sp`. Raised by
  those six meanings, in states that no run reaches: "bulk commands never leave their space" (R73). Safe: the
  block never does this (log entry 4). -/
  | outsideSpace (sp : Space)
  deriving DecidableEq, Repr

/-- Why the model gives a command no meaning. -/
inductive Refusal
  /-- A command of the opcode table whose meaning is not written: raised by its arm in Dispatch.lean. Safe. Every
  command has its meaning, so no arm raises it. -/
  | notModelled (mnemonic : String)
  deriving DecidableEq, Repr

/-- The outcome of a command. -/
abbrev Result := Host.Outcome State Fault Refusal

end Sys2Proof.Machine
end

