-- ==== Sys2Proof/Machine/Ops.lean ====
section
/-! DEFINITION. The shared operations of the machine: reading and writing the six memories, answering a command, and
raising an error as 60_exceptions.md R201, R207 and R208 say. -/

namespace Sys2Proof.Machine

/-! ## Capacities (20_memory.md R60, R63) -/

/-- PA_CAP = max(3345 + MAX_SAMPLES, 16 + CB_CAP) (R63; 00_scope.md R10). -/
def paCap (p : Params) : Nat := max (3345 + p.maxSamples) (16 + p.cbCap)

/-- MA_CAP = 3080 (R63; 00_scope.md R10). -/
def maCap : Nat := 3080

/-- The capacity of each space: its addresses are 0 .. capacity − 1 (R60). -/
def capacity (p : Params) : Space → Nat
  | .ifb => p.maxSamples
  | .qb => p.maxSamples
  | .pb => p.maxSamples
  | .cb => p.cbCap
  | .pa => paCap p
  | .ma => maCap

/-! ## One memory -/

/-- The byte written last at an address since power-on, if any. -/
def Memory.get : Memory → Nat → Option Byte
  | [], _ => none
  | (k, b) :: m, a => if k = a then some b else Memory.get m a

/-- Bytes at consecutive addresses from `a` on. -/
def cells : Nat → List Byte → Memory
  | _, [] => []
  | a, b :: bs => (a, b) :: cells (a + 1) bs

/-- The memory after `MemWrite(S, a, bytes)`: what lies below the range, the bytes, what lies above it (R14 of
00_scope.md). It keeps the canonical form `Memory.wf`. -/
def Memory.put (m : Memory) (a : Nat) (bs : List Byte) : Memory :=
  m.filter (fun c => decide (c.1 < a)) ++ cells a bs ++ m.filter (fun c => decide (a + bs.length ≤ c.1))

/-- The canonical form: addresses strictly rising. An unlisted address has no byte of its own in the list (it reads
as the draw MEM_INIT), so no entry can repeat it (log entry 2). -/
abbrev Memory.wf (m : Memory) : Prop := List.Pairwise (fun x y : Host.Cell => x.1 < y.1) m

/-! ## The memories of the state -/

/-- The memory of a space. -/
def State.mem (s : State) : Space → Memory
  | .ifb => s.ifb
  | .qb => s.qb
  | .pb => s.pb
  | .cb => s.cb
  | .pa => s.pa
  | .ma => s.ma

/-- The state with another memory in a space. -/
def State.setMem (s : State) (sp : Space) (m : Memory) : State :=
  match sp with
  | .ifb => { s with ifb := m }
  | .qb => { s with qb := m }
  | .pb => { s with pb := m }
  | .cb => { s with cb := m }
  | .pa => { s with pa := m }
  | .ma => { s with ma := m }

/-- S[a]: the byte written there last, or the draw MEM_INIT where no command has written since power-on
(20_memory.md R76, 93_implementation_defined.md U1). An address outside the space, which no command reads, reads as the
draw too (log entry 2). -/
def State.readByte (s : State) (sp : Space) (a : Nat) : Byte := ((s.mem sp).get a).getD (Config.memInit sp a)

/-- `MemRead(S, a, n)` (00_scope.md R14). -/
def State.readBytes (s : State) (sp : Space) (a n : Nat) : List Byte :=
  (List.range n).map fun i => s.readByte sp (a + i)

/-- `MemWrite(S, a, bytes)` (00_scope.md R14). -/
def State.writeBytes (s : State) (sp : Space) (a : Nat) (bs : List Byte) : State :=
  s.setMem sp ((s.mem sp).put a bs)

/-- A bulk command's range of S, its end `stop` not included, must lie inside S. It always does in the states a run
reaches (R73); elsewhere the address does not exist and the model stops (log entry 4). -/
def within (s : State) (sp : Space) (stop : Nat) (effect : Result) : Result :=
  if stop ≤ capacity s.params sp then effect else .fault (.outsideSpace sp)

/-! ## Answering a command -/

/-- `resp <- v` (10_state.md R48). -/
def State.respond (s : State) (v : Word) : State := { s with resp := some v }

/-- The state with the registers changed. -/
def State.updRegs (s : State) (f : Regs → Regs) : State := { s with regs := f s.regs }

/-! ## Raising an error -/

/-- The number recorded in ERR_CODE (60_exceptions.md R200). -/
def ErrCode.code : ErrCode → Byte
  | .noError => 0
  | .illegalCommand => 1
  | .configError => 2
  | .sequenceError => 3
  | .rangeError => 4
  | .valueError => 5

/-- Recording (60_exceptions.md R207): the first error is kept, a further one sets ERR_MORE. -/
def recordError (op : Byte) (e : ErrCode) (info : Byte) (r : Regs) : Regs :=
  if r.errCode = .noError then { r with errCode := e, errOp := op, errInfo := info } else { r with errMore := true }

/-- `raise Error(e, info)`: ERR is updated, no other register and no memory byte changes, `resp <- 0` (R201). `op` is
CMD[7:0] of the command. -/
def State.raise (s : State) (op : Byte) (e : ErrCode) (info : Byte) : State :=
  (s.updRegs (recordError op e info)).respond 0

/-- CLRERR's effect on the record (40_control.md R108). -/
def clearError (r : Regs) : Regs := { r with errCode := .noError, errOp := 0, errInfo := 0, errMore := false }

/-- One check of a command: does it fail, and the error it then raises. -/
structure Check where
  fails : Bool
  code : ErrCode
  info : Byte
  deriving DecidableEq, Repr

/-- A check whose error carries ERR_INFO 0: every check but SETUP's (R207). -/
def Check.plain (fails : Bool) (code : ErrCode) : Check := { fails := fails, code := code, info := 0 }

/-- "The first failing check is the one raised and no later check is evaluated" (R208). -/
def firstFailing : List Check → Option Check
  | [] => none
  | c :: cs => if c.fails then some c else firstFailing cs

/-- A command with its checks, in the order its rule lists them (R208): the error of the first that fails, or the
effect. -/
def checked (op : Byte) (checks : List Check) (s : State) (effect : Result) : Result :=
  match firstFailing checks with
  | some c => .next (s.raise op c.code c.info)
  | none => effect

/-! ## The command port -/

/-- The command the block performs next and the state with it taken from the port: issue order (20_memory.md R70).
None where the host has presented none. -/
def State.nextCommand (s : State) : Option (Command × State) :=
  match s.port with
  | [] => none
  | c :: rest => some (c, { s with port := rest })

/-- A command that does not decode raises ILLEGAL_COMMAND "with no other effect"; "ERR_OP records CMD[7:0] even for an
unassigned OP" (30_encoding.md R82, 60_exceptions.md R202). -/
def State.rejectCommand (s : State) (c : Command) : State := s.raise (cmdOp c.cmd) .illegalCommand 0

end Sys2Proof.Machine
end

