-- ==== Sys2Proof/Machine/Flags.lean ====
section
/-! DEFINITION. The status flags (10_state.md R45: "the block has no condition codes") and the two register words that
gather them, STATUS (R35) and ERR (R41), with the numbers of their fields. -/

namespace Sys2Proof.Machine

/-- A one-bit field. -/
def flagBit (b : Bool) : BitVec 1 := if b then 1 else 0

/-- The number of FSTATE (R35). -/
def FState.code : FState → BitVec 3
  | .new => 0
  | .headerWritten => 1
  | .payloadWritten => 2
  | .metadataWritten => 3
  | .complete => 4

/-- The number of F_SRC (R35). -/
def FSrc.code : FSrc → BitVec 2
  | .raw => 0
  | .comp => 1
  | .ext => 2

/-- STATUS: F_SRC [11:10], MPKT_VALID [9], F_COMP [8], FSTATE [6:4], CONFIGURED [0], the rest 0 (R35, R43). -/
def Regs.statusWord (r : Regs) : Word :=
  0#20 ++ r.fSrc.code ++ flagBit r.mpktValid ++ flagBit r.fComp ++ 0#1 ++ r.fstate.code ++ 0#3 ++ flagBit r.configured

/-- ERR: ERR_MORE [31], ERR_INFO [23:16], ERR_OP [15:8], ERR_CODE [7:0], the rest 0 (R41, R43). -/
def Regs.errWord (r : Regs) : Word :=
  flagBit r.errMore ++ 0#7 ++ r.errInfo ++ r.errOp ++ r.errCode.code

end Sys2Proof.Machine
end

