-- ==== Sys2Proof/Machine/Operands.lean ====
section
/-! DEFINITION. The operand forms: the register a 32-bit index names (10_state.md R42), its class, its fields, its
value and the effect of writing it; the entries of the four register files (R46); little-endian words
(00_scope.md R13). -/

namespace Sys2Proof.Machine

/-! ## Little-endian (R13, R67) -/

/-- `LE32(v)` = [v[7:0], v[15:8], v[23:16], v[31:24]]. -/
def le32 (v : Word) : List Byte :=
  [v.extractLsb' 0 8, v.extractLsb' 8 8, v.extractLsb' 16 8, v.extractLsb' 24 8]

/-- `LE32` of a length or count held exactly. DESIGN CHOICE (log entry 20): R13 defines `LE32` for a 32-bit v only; a length
of 2^32 or more, which no packet of the block has, is taken modulo 2^32. -/
def le32Nat (n : Nat) : List Byte := le32 (BitVec.ofNat 32 n)

/-- A length as a 32-bit register holds it: "arithmetic on lengths and counts is exact (unbounded) unless a field width
is named" (R12). A length that does not fit is a free value (log entry 11). -/
def lengthWord (n : Nat) : Word := if n < 2 ^ 32 then BitVec.ofNat 32 n else Config.lengthOutside n

/-! ## The register map (R42) -/

/-- The scalar registers, index 0x000 to 0x015. -/
def scalarReg (n : Nat) : Option Reg :=
  match n with
  | 0x000 => some .frameW
  | 0x001 => some .frameH
  | 0x002 => some .chanC
  | 0x003 => some .mode
  | 0x004 => some .compEn
  | 0x005 => some .gen
  | 0x006 => some .metaCount
  | 0x007 => some .status
  | 0x008 => some .err
  | 0x009 => some .nsamp
  | 0x00A => some .sumb
  | 0x00B => some .plenRaw
  | 0x00C => some .hdrLen
  | 0x00D => some .ser
  | 0x00E => some .serWp
  | 0x00F => some .clen
  | 0x010 => some .cvalid
  | 0x011 => some .fTs
  | 0x012 => some .fPlen
  | 0x013 => some .pktLen
  | 0x014 => some .mTs
  | 0x015 => some .mpktLen
  | _ => none

/-- The register an index names: "any index not in this table is undefined" (R42, R44). -/
def regOf (r : Word) : Option Reg :=
  let n := r.toNat
  if n < 0x100 then scalarReg n
  else if n < 0x200 then some (.bw (Fin.ofNat 256 (n - 0x100)))
  else if n < 0x400 then some (.mname (Fin.ofNat 512 (n - 0x200)))
  else if n < 0x500 then some (.mval (Fin.ofNat 256 (n - 0x400)))
  else if n < 0x600 then some (.ebw (Fin.ofNat 256 (n - 0x500)))
  else none

/-- The index of a register (R42). -/
def Reg.index : Reg → Word
  | .frameW => 0x000
  | .frameH => 0x001
  | .chanC => 0x002
  | .mode => 0x003
  | .compEn => 0x004
  | .gen => 0x005
  | .metaCount => 0x006
  | .status => 0x007
  | .err => 0x008
  | .nsamp => 0x009
  | .sumb => 0x00A
  | .plenRaw => 0x00B
  | .hdrLen => 0x00C
  | .ser => 0x00D
  | .serWp => 0x00E
  | .clen => 0x00F
  | .cvalid => 0x010
  | .fTs => 0x011
  | .fPlen => 0x012
  | .pktLen => 0x013
  | .mTs => 0x014
  | .mpktLen => 0x015
  | .bw c => BitVec.ofNat 32 (0x100 + c.val)
  | .mname k => BitVec.ofNat 32 (0x200 + k.val)
  | .mval s => BitVec.ofNat 32 (0x400 + s.val)
  | .ebw c => BitVec.ofNat 32 (0x500 + c.val)

/-- The class column of R42 (R23). -/
def Reg.cls : Reg → RegClass
  | .frameW => .cfg
  | .frameH => .cfg
  | .chanC => .cfg
  | .mode => .cfg
  | .compEn => .cfg
  | .gen => .cfg
  | .metaCount => .cfg
  | .status => .ro
  | .err => .ro
  | .nsamp => .ro
  | .sumb => .ro
  | .plenRaw => .ro
  | .hdrLen => .ro
  | .ser => .ro
  | .serWp => .ro
  | .clen => .frame
  | .cvalid => .frame
  | .fTs => .ro
  | .fPlen => .ro
  | .pktLen => .ro
  | .mTs => .ro
  | .mpktLen => .ro
  | .bw _ => .cfg
  | .mname _ => .cfg
  | .mval _ => .frame
  | .ebw _ => .ro

/-- The bits that hold a field (the fields column of R42); every other bit is reserved (R22, R43). -/
def Reg.fieldMask : Reg → Word
  | .frameW => 0xFFFFFFFF
  | .frameH => 0xFFFFFFFF
  | .chanC => 0x000000FF
  | .mode => 0x000000F1
  | .compEn => 0x00000001
  | .gen => 0x00000003
  | .metaCount => 0x000001FF
  | .status => 0x00000F71
  | .err => 0x80FFFFFF
  | .nsamp => 0xFFFFFFFF
  | .sumb => 0xFFFFFFFF
  | .plenRaw => 0xFFFFFFFF
  | .hdrLen => 0xFFFFFFFF
  | .ser => 0x000007FF
  | .serWp => 0xFFFFFFFF
  | .clen => 0xFFFFFFFF
  | .cvalid => 0x00000001
  | .fTs => 0xFFFFFFFF
  | .fPlen => 0xFFFFFFFF
  | .pktLen => 0xFFFFFFFF
  | .mTs => 0xFFFFFFFF
  | .mpktLen => 0xFFFFFFFF
  | .bw _ => 0x0000000F
  | .mname _ => 0xFFFFFFFF
  | .mval _ => 0xFFFFFFFF
  | .ebw _ => 0x0000000F

/-- `reg[r]` with every field in its bits and every reserved bit 0 (R43, 40_control.md R102). -/
def Regs.read (r : Regs) : Reg → Word
  | .frameW => r.frameW
  | .frameH => r.frameH
  | .chanC => r.chanC.setWidth 32
  | .mode => 0#24 ++ r.ubits ++ 0#3 ++ flagBit r.uniform
  | .compEn => (flagBit r.compEn).setWidth 32
  | .gen => r.gen.setWidth 32
  | .metaCount => r.metaCount.setWidth 32
  | .status => r.statusWord
  | .err => r.errWord
  | .nsamp => r.nsamp
  | .sumb => r.sumb
  | .plenRaw => r.plenRaw
  | .hdrLen => r.hdrLen
  | .ser => 0#21 ++ r.serNb ++ r.serAcc
  | .serWp => r.serWp
  | .clen => r.clen
  | .cvalid => (flagBit r.cvalid).setWidth 32
  | .fTs => r.fTs
  | .fPlen => r.fPlen
  | .pktLen => r.pktLen
  | .mTs => r.mTs
  | .mpktLen => r.mpktLen
  | .bw c => r.bw[c].setWidth 32
  | .mname k => r.mname[k]
  | .mval s => r.mval[s]
  | .ebw c => r.ebw[c].setWidth 32

/-- `reg[r] <- v`: "every named field of r takes its bits of v" (40_control.md R101). WRREG reaches only the CFG and
FRAME registers; writing an RO register is not an operation of the block, and this leaves it alone. -/
def Regs.write (r : Regs) (g : Reg) (v : Word) : Regs :=
  match g with
  | .frameW => { r with frameW := v }
  | .frameH => { r with frameH := v }
  | .chanC => { r with chanC := v.extractLsb' 0 8 }
  | .mode => { r with uniform := v.getLsbD 0, ubits := v.extractLsb' 4 4 }
  | .compEn => { r with compEn := v.getLsbD 0 }
  | .gen => { r with gen := v.extractLsb' 0 2 }
  | .metaCount => { r with metaCount := v.extractLsb' 0 9 }
  | .status => r
  | .err => r
  | .nsamp => r
  | .sumb => r
  | .plenRaw => r
  | .hdrLen => r
  | .ser => r
  | .serWp => r
  | .clen => { r with clen := v }
  | .cvalid => { r with cvalid := v.getLsbD 0 }
  | .fTs => r
  | .fPlen => r
  | .pktLen => r
  | .mTs => r
  | .mpktLen => r
  | .bw c => { r with bw := r.bw.set c (v.extractLsb' 0 4) }
  | .mname k => { r with mname := r.mname.set k v }
  | .mval s => { r with mval := r.mval.set s v }
  | .ebw _ => r

/-! ## Entries of the register files (R46)

R46 gives each file 256 entries (of MNAME two halves each). DESIGN CHOICE (log entry 20): an entry past its file, which no
command reads in a state a run reaches, reads as 0. -/

/-- EBW[c] as a number; 0 past the file (log entry 20). -/
def Regs.ebwAt (r : Regs) (c : Nat) : Nat := (r.ebw.getD c 0).toNat

/-- BW[c] as a number; 0 past the file (log entry 20). -/
def Regs.bwAt (r : Regs) (c : Nat) : Nat := (r.bw.getD c 0).toNat

/-- MVAL[s]; 0 past the file (log entry 20). -/
def Regs.mvalAt (r : Regs) (s : Nat) : Word := r.mval.getD s 0

/-- MNAME[s].byte[0..7]: byte 4h + k is bits [8k+7 : 8k] of half h (R31, R69), so each half gives its bytes as LE32
does; zero bytes past the file (log entry 20). -/
def Regs.nameBytes (r : Regs) (s : Nat) : List Byte :=
  le32 (r.mname.getD (2 * s) 0) ++ le32 (r.mname.getD (2 * s + 1) 0)

end Sys2Proof.Machine
end

