-- ==== Sys2Proof/Machine/Codec.lean ====
section
/-! DEFINITION. The pure functions of the codec: Quant and QuantFrame (41_quantizer.md), Pack (42_packer.md), and the
decode side that the laws of 46_reference_functions.md are stated through, Unpack and Dequant (no command of the block
performs those two, 00_scope.md R6). A width vector is given as the function c ↦ width of channel c. For widths outside
1..8, samples that do not fit their width, a channel count of 0 and a number of samples that is no multiple of it the spec
gives Pack, Unpack and Dequant no value, and what these total functions compute there is the model's choice (log entry
18). -/

namespace Sys2Proof.Machine

/-- `ceil_div(a, 8)` (00_scope.md R12). -/
def ceilDiv8 (a : Nat) : Nat := (a + 7) / 8

/-- A bit width the codec allows: 1 ≤ b ≤ 8 (R9 of 00_scope.md). -/
def legalWidth (b : Nat) : Bool := decide (1 ≤ b) && decide (b ≤ 8)

/-! ## Quantizer -/

/-- `Quant(s, b)` = s >> (8 − b), truncating (R120). "Quant is undefined for b outside 1..8": a free value there
(log entry 3). -/
def quant (x : Byte) (b : Nat) : Byte :=
  if legalWidth b then x >>> (8 - b) else Config.quantOutside x b

/-- `QuantFrame(F, C)[i]` = Quant(F[i], EBW[i mod C]) (R124). -/
def quantFrame (w : Nat → Nat) (c : Nat) (f : List Byte) : List Byte :=
  f.mapIdx fun i x => quant x (w (i % c))

/-! ## Packer -/

/-- The n low bits of v, most significant first: v[n−1], ..., v[0]. -/
def msbBits (n v : Nat) : List Bool := (List.range n).map fun j => v.testBit (n - 1 - j)

/-- The bit stream of a frame (the loop of R130): each sample contributes its EBW bits, MSB first (20_memory.md R68). -/
def frameBits (w : Nat → Nat) (c : Nat) (q : List Byte) : List Bool :=
  (q.mapIdx fun i x => msbBits (w (i % c)) x.toNat).flatten

/-- Byte k of a bit stream: the sum over j in 0..7 of B(8k + j) · 2^(7−j), with B(t) = 0 past the end (R130). -/
def streamByte (bits : List Bool) (k : Nat) : Byte :=
  BitVec.ofNat 8 (((List.range 8).map fun j => if bits.getD (8 * k + j) false then 2 ^ (7 - j) else 0).sum)

/-- The bytes of a bit stream, ceil_div(T, 8) of them for T bits (R130). -/
def packBits (bits : List Bool) : List Byte := (List.range (ceilDiv8 bits.length)).map (streamByte bits)

/-- `Pack(Q, C)` (R130). DESIGN CHOICE (log entry 18): R130 takes widths 1..8 and samples below 2^width; elsewhere this
packs the low bits of a sample. -/
def pack (w : Nat → Nat) (c : Nat) (q : List Byte) : List Byte := packBits (frameBits w c q)

/-! ## Reference functions -/

/-- The outcome of Unpack: "returns either `TruncatedInput` or a sequence Q" (R180). -/
inductive Unpacked
  | truncatedInput
  | samples (q : List Nat)
  deriving DecidableEq, Repr

/-- `bit(t)` = bytes[t div 8][7 − (t mod 8)] (R180, 20_memory.md R68). -/
def streamBit (bytes : List Byte) (t : Nat) : Bool := (bytes.getD (t / 8) 0).getLsbD (7 - t % 8)

/-- The n-bit number at a bit position: the sum over j in 0..n−1 of bit(pos + j) · 2^(n−1−j) (R180). -/
def streamSample (bytes : List Byte) (pos n : Nat) : Nat :=
  ((List.range n).map fun j => if streamBit bytes (pos + j) then 2 ^ (n - 1 - j) else 0).sum

/-- The loop of R180: samples i, i + 1, ... (`k` of them), the first at bit `pos`. -/
def unpackFrom (w : Nat → Nat) (c : Nat) (bytes : List Byte) : Nat → Nat → Nat → List Nat
  | _, _, 0 => []
  | i, pos, k + 1 =>
    streamSample bytes pos (w (i % c)) :: unpackFrom w c bytes (i + 1) (pos + w (i % c)) k

/-- b[0] + ... + b[C−1]. -/
def widthSum (w : Nat → Nat) (c : Nat) : Nat := ((List.range c).map w).sum

/-- `Unpack(bytes, b, H, W, C)` (R180, R181). DESIGN CHOICE (log entry 18): "a bit-width entry outside 1..8 is a
configuration error and Unpack is not applied to it" (R181); for such widths this runs the same loop. -/
def unpack (bytes : List Byte) (w : Nat → Nat) (h wd c : Nat) : Unpacked :=
  if bytes.length < ceilDiv8 (h * wd * widthSum w c) then .truncatedInput
  else .samples (unpackFrom w c bytes 0 0 (h * wd * c))

/-- `Dequant(q, b)` = q << (8 − b), "an 8-bit value for q < 2^b" (R182). DESIGN CHOICE (log entry 18): for b above 8 this
is q, and a q of more than b bits gives a number of more than 8 bits. -/
def dequant (q b : Nat) : Nat := q <<< (8 - b)

end Sys2Proof.Machine
end

