-- ==== Sys2Proof/Machine/Layout.lean ====
section
/-! DEFINITION. The packet layouts of the framer as pure functions of the registers (43_framer.md R151 to R155), and
the choice of the payload (R159). -/

namespace Sys2Proof.Machine

/-- The configured widths EBW as the width function of the codec. -/
def Regs.widths (r : Regs) : Nat → Nat := r.ebwAt

/-- C = CHAN_C. -/
def Regs.channels (r : Regs) : Nat := r.chanC.toNat

/-- M = META_COUNT. -/
def Regs.readings (r : Regs) : Nat := r.metaCount.toNat

/-- The size of the legacy metadata table, 256 slots of 12 bytes (00_scope.md R9, 43_framer.md R153). -/
def metaTableLen : Nat := 3072

/-- `Hdr(W, H, C, EBW)` (R152): the constant fields of a legacy header. -/
def hdr (r : Regs) : List Byte :=
  le32 r.frameW ++ le32 r.frameH ++ [r.chanC] ++ (List.range r.channels).map fun c => BitVec.ofNat 8 (r.ebwAt c)

/-- `Entry(s)` = MNAME[s].byte[0..7] ++ LE32(MVAL[s]) (R152). DESIGN CHOICE (log entry 20): zero bytes for s above 255, where
there is no MNAME[s] and no MVAL[s]. -/
def entry (r : Regs) (s : Nat) : List Byte := r.nameBytes s ++ le32 (r.mvalAt s)

/-- `Slot(s)` (R153): a used slot's entry; "unused slots are zero" (R166). -/
def slot (r : Regs) (s : Nat) : List Byte := if s < r.readings then entry r s else List.replicate 12 0

/-- `MetaTable()`: 256 slots (R153). -/
def metaTable (r : Regs) : List Byte := (List.range 256).flatMap (slot r)

/-- The compression flag byte: "0 = raw, 1 = compressed" (R151). -/
def flagByte (f : Bool) : Byte := if f then 1 else 0

/-- `Packet0(t, p)` (R152). DESIGN CHOICE (log entry 20): LE32(P) of a payload of 2^32 bytes or more is that of P modulo
2^32, here and in the two packets below. -/
def packet0 (r : Regs) (t : Word) (p : List Byte) : List Byte :=
  le32 t ++ hdr r ++ le32Nat p.length ++ p ++ metaTable r

/-- `Packet1(t, f, p)` (R152). -/
def packet1 (r : Regs) (t : Word) (f : Bool) (p : List Byte) : List Byte :=
  le32 t ++ hdr r ++ [flagByte f] ++ le32Nat p.length ++ p ++ metaTable r

/-- `VideoPacket2(t, p)` (R152). -/
def videoPacket2 (r : Regs) (t : Word) (p : List Byte) : List Byte :=
  le32 t ++ le32 r.frameW ++ le32 r.frameH ++ le32Nat p.length ++ p

/-- `MetaPacket2(t)` (R152); entryCount is M = META_COUNT (R155). SETUP's check 8 lets M be at most 256; for a META_COUNT of
257 to 511 the entries from 256 on are zero (log entry 20). -/
def metaPacket2 (r : Regs) (t : Word) : List Byte :=
  le32 t ++ le32Nat r.readings ++ (List.range r.readings).flatMap (entry r)

/-- The header length of the configured generation (R151; 40_control.md R106). -/
def headerLen (r : Regs) : Nat :=
  if r.gen = 0 then 17 + r.channels else if r.gen = 1 then 18 + r.channels else 16

/-- What a metadata table adds to a packet: nothing in generation 2 (R162, R168). -/
def tableLen (r : Regs) : Nat := if r.gen = 2 then 0 else metaTableLen

/-- A raw payload is ready: the serializer is closed at exactly the configured length (R159). -/
def rawReady (r : Regs) : Bool := decide (r.serNb = 0) && decide (r.serWp = r.plenRaw)

/-- `Select()` (R159): the payload's source, the compression flag and the length; none where it fails. GEN = 3 has no
case in R159; no configured state has it (40_control.md R105 check 6), and no payload is selected (log entry 10). -/
def select (r : Regs) : Option (FSrc × Bool × Word) :=
  if r.gen = 0 then
    if rawReady r then some (.raw, false, r.plenRaw) else none
  else if r.gen = 1 then
    if r.compEn && r.cvalid && decide (r.clen ≤ r.plenRaw) then some (.comp, true, r.clen)
    else if rawReady r then some (.raw, false, r.plenRaw) else none
  else if r.gen = 2 then
    if r.cvalid then some (.ext, false, r.clen) else none
  else none

/-- The memory a payload source reads (R161): RAW is PB, COMP and EXT are CB. -/
def FSrc.space : FSrc → Space
  | .raw => .pb
  | .comp => .cb
  | .ext => .cb

end Sys2Proof.Machine
end

