-- ==== Sys2Proof/Machine/Control.lean ====
section
/-! DEFINITION. The control, register and memory-access commands (40_control.md): NOP, WRREG, RDREG, WRMEM, RDMEM,
SETUP, CLRERR, SRESET. -/

namespace Sys2Proof.Machine

/-- NOP (R100): no effect but the response 0. -/
def execNop (s : State) : Result := .next (s.respond 0)

/-- The checks of WRREG, in order (R101): undefined index, class RO, the CFG lock, a reserved bit, CLEN > CB_CAP. -/
def wrregChecks (r v : Word) (s : State) : List Check :=
  match regOf r with
  | none => [.plain true .rangeError]
  | some g =>
    [ .plain (decide (g.cls = .ro)) .rangeError
    , .plain (decide (g.cls = .cfg) && s.regs.configured) .sequenceError
    , .plain (decide (v &&& ~~~g.fieldMask ≠ 0)) .valueError
    , .plain (decide (g = .clen) && decide (s.params.cbCap < v.toNat)) .valueError ]

/-- `reg[r] <- v` (R101). -/
def writeReg (r v : Word) (s : State) : State :=
  match regOf r with
  | none => s
  | some g => s.updRegs fun regs => regs.write g v

/-- WRREG (R101). -/
def execWrreg (r v : Word) (s : State) : Result :=
  checked (Instr.wrreg r v).opcode (wrregChecks r v s) s (.next ((writeReg r v s).respond 0))

/-- RDREG (R102): the register's value, no state changes. -/
def execRdreg (r : Word) (s : State) : Result :=
  match regOf r with
  | none => .next (s.raise (Instr.rdreg r).opcode .rangeError 0)
  | some g => .next (s.respond (s.regs.read g))

/-- PA and MA are read-only to the host (20_memory.md R60, R73). -/
def hostMayWrite : Space → Bool
  | .ifb => true
  | .qb => true
  | .pb => true
  | .cb => true
  | .pa => false
  | .ma => false

/-- WRMEM (R103): one byte. -/
def execWrmem (sp : Space) (a v : Word) (s : State) : Result :=
  checked (Instr.wrmem sp a v).opcode
    [ .plain (!hostMayWrite sp) .rangeError
    , .plain (decide (capacity s.params sp ≤ a.toNat)) .rangeError
    , .plain (decide (255 < v.toNat)) .valueError ] s
    (.next ((s.writeBytes sp a.toNat [v.extractLsb' 0 8]).respond 0))

/-- RDMEM (R104): zext_32 of the byte, no state changes. -/
def execRdmem (sp : Space) (a : Word) (s : State) : Result :=
  checked (Instr.rdmem sp a).opcode
    [ .plain (decide (capacity s.params sp ≤ a.toNat)) .rangeError ] s
    (.next (s.respond ((s.readByte sp a.toNat).setWidth 32)))

/-! ## SETUP -/

/-- Once a 0x00 occurs, every later byte is 0x00 (10_state.md R31, 43_framer.md R154). -/
def nullPadded : List Byte → Bool
  | [] => true
  | b :: bs => if b = 0 then bs.all (fun x => decide (x = 0)) else nullPadded bs

/-- A valid name: ASCII (each byte < 0x80) and null-padded (R105 check 9). -/
def validName (bs : List Byte) : Bool := bs.all (fun x => decide (x.toNat < 0x80)) && nullPadded bs

/-- A configuration check of SETUP: its number is recorded in ERR_INFO (R105, 60_exceptions.md R206). -/
def configCheck (number : Byte) (fails : Bool) : Check := { fails := fails, code := .configError, info := number }

/-- The checks of SETUP, 0 to 10 (R105). -/
def setupChecks (s : State) : List Check :=
  let r := s.regs
  [ .plain r.configured .sequenceError
  , configCheck 1 (decide (r.frameW = 0))
  , configCheck 2 (decide (r.frameH = 0))
  , configCheck 3 (decide (r.chanC = 0))
  , configCheck 4 (r.uniform && !legalWidth r.ubits.toNat)
  , configCheck 5 (!r.uniform && (List.range r.channels).any fun c => !legalWidth (r.bwAt c))
  , configCheck 6 (decide (r.gen = 3))
  , configCheck 7 (r.compEn && decide (r.gen ≠ 1))
  , configCheck 8 (decide (256 < r.readings))
  , configCheck 9 ((List.range r.readings).any fun k => !validName (r.nameBytes k))
  , configCheck 10 (decide (s.params.maxSamples < r.frameW.toNat * r.frameH.toNat * r.channels)) ]

/-- EBW as SETUP writes it (R106, 10_state.md R36): UBITS or BW[c] for c < C, 0 for c ≥ C. -/
def effectiveWidths (r : Regs) : Vector (BitVec 4) 256 :=
  Vector.ofFn fun c => if c.val < r.channels then (if r.uniform then r.ubits else r.bw[c]) else 0

/-- The registers SETUP writes (R106). SUMB, PLEN_RAW and HDR_LEN are computed from the EBW just written. -/
def configure (r : Regs) : Regs :=
  let widths := effectiveWidths r
  let sum := widthSum (fun c => (widths.getD c 0).toNat) r.channels
  { r with
    ebw := widths
    nsamp := lengthWord (r.frameW.toNat * r.frameH.toNat * r.channels)
    sumb := lengthWord sum
    plenRaw := lengthWord (ceilDiv8 (r.frameW.toNat * r.frameH.toNat * sum))
    hdrLen := lengthWord (headerLen r)
    fstate := .new, pktLen := 0, mpktValid := false, configured := true }

/-- The names of the used slots in MA, slot k at 8 + 12·k (R107). -/
def writeNames (s : State) : State :=
  (List.range s.regs.readings).foldl (fun t k => t.writeBytes .ma (8 + 12 * k) (s.regs.nameBytes k)) s

/-- The constant arena fields (R107): width, height, channel count and widths of a legacy header, in one range from PA
address 4; width and height of a video packet, with MA's entryCount and names. Addresses stay below 13 + 255 in PA and
8 + 12·256 in MA, inside both arenas whatever the parameters. -/
def writeConstants (s : State) : State :=
  if s.regs.gen = 0 ∨ s.regs.gen = 1 then s.writeBytes .pa 4 (hdr s.regs)
  else if s.regs.gen = 2 then
    writeNames
      ((s.writeBytes .pa 4 (le32 s.regs.frameW ++ le32 s.regs.frameH)).writeBytes .ma 4 (le32Nat s.regs.readings))
  else s

/-- SETUP (R105, R106, R107). -/
def execSetup (s : State) : Result :=
  checked Instr.setup.opcode (setupChecks s) s (.next ((writeConstants (s.updRegs configure)).respond 0))

/-- CLRERR (R108): the error record is cleared, nothing else changes. -/
def execClrerr (s : State) : Result := .next ((s.updRegs clearError).respond 0)

/-- SRESET (R109): every register takes its reset value, every memory byte is kept. -/
def execSreset (s : State) : Result := .next ((s.updRegs fun _ => Regs.reset).respond 0)

end Sys2Proof.Machine
end

