-- ==== Sys2Proof/Machine/Quantizer.lean ====
section
/-! DEFINITION. The quantizer's commands (41_quantizer.md): QSAMPLE and QUANT. -/

namespace Sys2Proof.Machine

/-- The check most commands of the codec and the framer begin with: CONFIGURED = 0 raises SEQUENCE_ERROR
(60_exceptions.md R203). -/
def needsSetup (s : State) : Check := .plain (!s.regs.configured) .sequenceError

/-- QSAMPLE (R122): one sample with the width of its channel, no state changes. -/
def execQsample (c v : Word) (s : State) : Result :=
  checked (Instr.qsample c v).opcode
    [ needsSetup s
    , .plain (decide (s.regs.channels ≤ c.toNat)) .rangeError
    , .plain (decide (255 < v.toNat)) .valueError ] s
    (.next (s.respond ((quant (v.extractLsb' 0 8) (s.regs.ebwAt c.toNat)).setWidth 32)))

/-- The quantized input frame, QuantFrame(MemRead(IFB, 0, NSAMP), C) (R123). -/
def quantizedInput (s : State) : List Byte :=
  quantFrame s.regs.widths s.regs.channels (s.readBytes .ifb 0 s.regs.nsamp.toNat)

/-- QUANT (R123): IFB to QB. -/
def execQuant (s : State) : Result :=
  checked Instr.quant.opcode [needsSetup s] s
    (within s .ifb s.regs.nsamp.toNat
      (within s .qb s.regs.nsamp.toNat
        (.next ((s.writeBytes .qb 0 (quantizedInput s)).respond 0))))

end Sys2Proof.Machine
end

