-- ==== Sys2Proof/Machine/Packer.lean ====
section
/-! DEFINITION. The packer's commands (42_packer.md): the serializer SRST, SPUSH, SFLUSH, and the frame commands PACK
and QPACK. -/

namespace Sys2Proof.Machine

/-! ## The serializer -/

/-- SRST (R131): cursor and CVALID cleared, PB unchanged. -/
def execSrst (s : State) : Result :=
  .next ((s.updRegs fun r => { r with serAcc := 0, serNb := 0, serWp := 0, cvalid := false }).respond 0)

/-- One turn of SPUSH's loop (R132): the next bit at the highest free position of SER_ACC; a byte that completes goes
to PB[SER_WP]. -/
def pushBit (s : State) (b : Bool) : State :=
  let r := s.regs
  let acc := r.serAcc + if b then BitVec.ofNat 8 (2 ^ (7 - r.serNb.toNat)) else 0
  if r.serNb.toNat + 1 = 8 then
    (s.writeBytes .pb r.serWp.toNat [acc]).updRegs fun r => { r with serAcc := 0, serNb := 0, serWp := r.serWp + 1 }
  else s.updRegs fun r => { r with serAcc := acc, serNb := r.serNb + 1 }

/-- The loop of R132 over a sequence of bits. -/
def pushBits (bits : List Bool) (s : State) : State := bits.foldl pushBit s

/-- SPUSH (R132): append one n-bit value, most significant bit first. -/
def execSpush (n : Nat) (v : Word) (s : State) : Result :=
  checked (Instr.spush n v).opcode
    [ .plain (decide (n = 0) || decide (8 < n)) .valueError
    , .plain (decide (2 ^ n ≤ v.toNat)) .valueError
    , .plain (decide (8 ≤ s.regs.serNb.toNat + n) && decide (s.params.maxSamples ≤ s.regs.serWp.toNat)) .rangeError ] s
    (.next ((pushBits (msbBits n v.toNat) s).respond 0))

/-- The effect of SFLUSH (R133): a partial byte is written as it stands, its low bits zero; none, nothing changes. -/
def flush (s : State) : State :=
  if 0 < s.regs.serNb.toNat then
    (s.writeBytes .pb s.regs.serWp.toNat [s.regs.serAcc]).updRegs
      fun r => { r with serAcc := 0, serNb := 0, serWp := r.serWp + 1 }
  else s

/-- SFLUSH (R133): close the bitstream at a byte boundary. -/
def execSflush (s : State) : Result :=
  checked Instr.sflush.opcode
    [ .plain (decide (0 < s.regs.serNb.toNat) && decide (s.params.maxSamples ≤ s.regs.serWp.toNat)) .rangeError ] s
    (.next ((flush s).respond 0))

/-! ## The frame commands -/

/-- What PACK and QPACK leave (R135, R136): the bitstream in PB from address 0, the cursor closed at PLEN_RAW, CVALID
cleared. -/
def leaveBitstream (s : State) (stream : List Byte) : State :=
  (s.writeBytes .pb 0 stream).updRegs
    fun r => { r with serAcc := 0, serNb := 0, serWp := r.plenRaw, cvalid := false }

/-- Some QB[i] ≥ 2^EBW[i mod C], i < NSAMP (R135 check 2). -/
def sampleTooWide (s : State) : Bool :=
  (List.range s.regs.nsamp.toNat).any fun i =>
    decide (2 ^ s.regs.ebwAt (i % s.regs.channels) ≤ (s.readByte .qb i).toNat)

/-- Pack(MemRead(QB, 0, NSAMP), C) (R135). -/
def packedFrame (s : State) : List Byte :=
  pack s.regs.widths s.regs.channels (s.readBytes .qb 0 s.regs.nsamp.toNat)

/-- PACK (R135): QB to PB. The samples are read once CONFIGURED is known to be 1. -/
def execPack (s : State) : Result :=
  checked Instr.pack.opcode [needsSetup s] s
    (within s .qb s.regs.nsamp.toNat
      (checked Instr.pack.opcode [.plain (sampleTooWide s) .valueError] s
        (within s .pb (packedFrame s).length
          (.next ((leaveBitstream s (packedFrame s)).respond 0)))))

/-- Pack(QuantFrame(MemRead(IFB, 0, NSAMP), C), C) (R136). -/
def fusedFrame (s : State) : List Byte := pack s.regs.widths s.regs.channels (quantizedInput s)

/-- QPACK (R136): IFB to PB; QB is not read and not written. -/
def execQpack (s : State) : Result :=
  checked Instr.qpack.opcode [needsSetup s] s
    (within s .ifb s.regs.nsamp.toNat
      (within s .pb (fusedFrame s).length
        (.next ((leaveBitstream s (fusedFrame s)).respond 0))))

end Sys2Proof.Machine
end

