-- ==== Sys2Proof/Machine/Framer.lean ====
section
/-! DEFINITION. The wire framer's commands (43_framer.md): FHDR, FPAY, FMETA, FDONE (one packet in PA) and MPKT (the
generation-2 metadata packet in MA). -/

namespace Sys2Proof.Machine

/-- The variable header fields (R157, offsets R151): timestamp, compression flag, payload length. They lie below
14 + 255 + 4, inside PA whatever the parameters. -/
def writeHeader (t : Word) (f : Bool) (p : Word) (s : State) : State :=
  let c := s.regs.channels
  let s1 := s.writeBytes .pa 0 (le32 t)
  if s.regs.gen = 0 then s1.writeBytes .pa (13 + c) (le32 p)
  else if s.regs.gen = 1 then (s1.writeBytes .pa (13 + c) [flagByte f]).writeBytes .pa (14 + c) (le32 p)
  else if s.regs.gen = 2 then s1.writeBytes .pa 12 (le32 p)
  else s1

/-- The registers FHDR writes (R157). -/
def beginPacket (t : Word) (src : FSrc) (f : Bool) (p : Word) (r : Regs) : Regs :=
  { r with fTs := t, fSrc := src, fComp := f, fPlen := p, pktLen := 0, fstate := .headerWritten }

/-- FHDR (R157): legal from every FSTATE; fails with SEQUENCE_ERROR when there is no payload to frame (R160). The
high word of the timestamp is ignored (R158). -/
def execFhdr (tsHi ts : Word) (s : State) : Result :=
  checked (Instr.fhdr tsHi ts).opcode [needsSetup s] s
    (match select s.regs with
     | none => .next (s.raise (Instr.fhdr tsHi ts).opcode .sequenceError 0)
     | some (src, f, p) => .next (((writeHeader ts f p s).updRegs (beginPacket ts src f p)).respond 0))

/-- A stage of the framer's chain is legal only in its predecessor's state (R150). -/
def inState (s : State) (st : FState) : Check := .plain (decide (s.regs.fstate ≠ st)) .sequenceError

/-- FPAY (R161): copy the payload, as it stands when FPAY runs, behind the header. -/
def execFpay (s : State) : Result :=
  let src := s.regs.fSrc.space
  let p := s.regs.fPlen.toNat
  let h := s.regs.hdrLen.toNat
  checked Instr.fpay.opcode [inState s .headerWritten] s
    (within s src p
      (within s .pa (h + p)
        (.next (((s.writeBytes .pa h (s.readBytes src 0 p)).updRegs
          fun r => { r with fstate := .payloadWritten }).respond 0))))

/-- FMETA (R162): the metadata table behind the payload in generations 0 and 1 (R163), nothing in generation 2. -/
def execFmeta (s : State) : Result :=
  let o := s.regs.hdrLen.toNat + s.regs.fPlen.toNat
  checked Instr.fmeta.opcode [inState s .payloadWritten] s
    (if s.regs.gen = 0 ∨ s.regs.gen = 1 then
      within s .pa (o + metaTableLen)
        (.next (((s.writeBytes .pa o (metaTable s.regs)).updRegs
          fun r => { r with fstate := .metadataWritten }).respond 0))
     else .next ((s.updRegs fun r => { r with fstate := .metadataWritten }).respond 0))

/-- FDONE (R168): the packet is complete, its length known, the payload in CB consumed. -/
def execFdone (s : State) : Result :=
  checked Instr.fdone.opcode [inState s .metadataWritten] s
    (.next ((s.updRegs fun r =>
      { r with
        pktLen := lengthWord (r.hdrLen.toNat + r.fPlen.toNat + tableLen r)
        fstate := .complete
        cvalid := false }).respond 0))

/-- The values of the used slots in MA, slot k's at 8 + 12·k + 8 (R169). -/
def writeValues (s : State) : State :=
  (List.range s.regs.readings).foldl (fun t k => t.writeBytes .ma (8 + 12 * k + 8) (le32 (s.regs.mvalAt k))) s

/-- MPKT (R169): timestamp and values of the metadata packet; entryCount and names stand since SETUP. -/
def execMpkt (tsHi ts : Word) (s : State) : Result :=
  checked (Instr.mpkt tsHi ts).opcode [needsSetup s, .plain (decide (s.regs.gen ≠ 2)) .sequenceError] s
    (within s .ma (8 + 12 * s.regs.readings)
      (.next (((writeValues (s.writeBytes .ma 0 (le32 ts))).updRegs fun r =>
        { r with mTs := ts, mpktLen := lengthWord (8 + 12 * r.readings), mpktValid := true }).respond 0)))

end Sys2Proof.Machine
end

