-- ==== Sys2Proof/Machine/Dispatch.lean ====
section
/-! DEFINITION. One arm per command (30_encoding.md R85): each calls its meaning. -/

namespace Sys2Proof.Machine

def exec (i : Instr) (s : State) : Host.Outcome State Fault Refusal :=
  match i with
  | .nop => Sys2Proof.Machine.execNop s
  | .wrreg r v => Sys2Proof.Machine.execWrreg r v s
  | .rdreg r => Sys2Proof.Machine.execRdreg r s
  | .wrmem sp a v => Sys2Proof.Machine.execWrmem sp a v s
  | .rdmem sp a => Sys2Proof.Machine.execRdmem sp a s
  | .setup => Sys2Proof.Machine.execSetup s
  | .clrerr => Sys2Proof.Machine.execClrerr s
  | .sreset => Sys2Proof.Machine.execSreset s
  | .qsample c v => Sys2Proof.Machine.execQsample c v s
  | .quant => Sys2Proof.Machine.execQuant s
  | .pack => Sys2Proof.Machine.execPack s
  | .qpack => Sys2Proof.Machine.execQpack s
  | .srst => Sys2Proof.Machine.execSrst s
  | .spush n v => Sys2Proof.Machine.execSpush n v s
  | .sflush => Sys2Proof.Machine.execSflush s
  | .fhdr tsHi ts => Sys2Proof.Machine.execFhdr tsHi ts s
  | .fpay => Sys2Proof.Machine.execFpay s
  | .fmeta => Sys2Proof.Machine.execFmeta s
  | .fdone => Sys2Proof.Machine.execFdone s
  | .mpkt tsHi ts => Sys2Proof.Machine.execMpkt tsHi ts s

end Sys2Proof.Machine
end

