-- ==== Sys2Proof/Machine/Step.lean ====
section
/-! DEFINITION. One step of the block: the next command of the port is performed (20_memory.md R70); with none there,
nothing happens (10_state.md R47, log entry 6). -/

namespace Sys2Proof.Machine

/-- Perform the next command: decode it, then either its meaning or, where it is illegal, ILLEGAL_COMMAND (R82). -/
def step (s : State) : Host.Outcome State Fault Refusal :=
  match s.nextCommand with
  | none => .next s
  | some (c, t) =>
    match decode c with
    | .ok i => exec i t
    | .error _ => .next (t.rejectCommand c)

/-- The state in which the command of `commandOf nbits w` is the next on the port (log entry 5). -/
def State.withFetchWord (s : State) (nbits w : Nat) : State := { s with port := commandOf nbits w :: s.port }

end Sys2Proof.Machine
end

