-- ==== Sys2Proof/Machine/Program.lean ====
section
/-! DEFINITION. What the host issues: the pseudo-commands as lists of commands (30_encoding.md R89), the textual syntax
(R88), the boot order and the per-frame sequence (70_reset_and_hazards.md R223), what each collaborator may issue (R230),
and what the host reads back (R234). -/

namespace Sys2Proof.Machine

/-! ## Pseudo-commands (R89)

The operands of these lists are numbers and lists of any size. R89 gives no expansion outside its own domains and where an
operand would not fit 32 bits; what these functions issue there is the model's choice (DESIGN CHOICE, log entry 19). -/

/-- A 64-bit timestamp T as the operands ADDR = T div 2^32, DATA = T mod 2^32 (R88, 43_framer.md R158). DESIGN CHOICE (log
entry 19): of a T of 2^64 or more the low 64 bits are taken. -/
def timestampWords (t : Nat) : Word × Word := (BitVec.ofNat 32 (t / 2 ^ 32), BitVec.ofNat 32 (t % 2 ^ 32))

/-- `FRAME T`: one whole packet. -/
def pseudoFrame (t : Nat) : List Instr :=
  [.fhdr (timestampWords t).1 (timestampWords t).2, .fpay, .fmeta, .fdone]

/-- The first four bytes of a list as a word, the first the least significant: n0 + n1·2^8 + n2·2^16 + n3·2^24. -/
def wordOfBytes (bs : List Byte) : Word := bs.getD 3 0 ++ bs.getD 2 0 ++ bs.getD 1 0 ++ bs.getD 0 0

/-- `WRNAME s, text`: the text's bytes, then zero bytes to length 8, in two halves. DESIGN CHOICE (log entry 19): R89 takes
"at most 8 ASCII characters" and a slot of the file (0 to 255); elsewhere bytes past the eighth are dropped, and the index
0x200 + 2s runs on behind MNAME. -/
def pseudoWrname (slot : Nat) (text : List Byte) : List Instr :=
  let n := text ++ List.replicate (8 - text.length) 0
  [ .wrreg (BitVec.ofNat 32 (0x200 + 2 * slot)) (wordOfBytes n)
  , .wrreg (BitVec.ofNat 32 (0x201 + 2 * slot)) (wordOfBytes (n.drop 4)) ]

/-- `WRWIDTHS [b0, ..., b(C−1)]`: per-channel mode and the widths. DESIGN CHOICE (log entry 19): BW has 256 entries, and of
more widths the index 0x100 + c runs on behind BW. -/
def pseudoWrwidths (bs : List Word) : List Instr :=
  .wrreg 0x003 0 :: bs.mapIdx fun c b => .wrreg (BitVec.ofNat 32 (0x100 + c)) b

/-- `WRUNIFORM b`: UNIFORM = 1, UBITS = b. DESIGN CHOICE (log entry 19): 1 + 16·b is taken modulo 2^32. -/
def pseudoWruniform (b : Nat) : List Instr := [.wrreg 0x003 (BitVec.ofNat 32 (1 + 16 * b))]

/-- `WRBYTES S, a, [v0, ...]`. DESIGN CHOICE (log entry 19): the address a + i is taken modulo 2^32, so a list that passes
2^32 − 1 goes on at address 0. -/
def pseudoWrbytes (sp : Space) (a : Nat) (vs : List Word) : List Instr :=
  vs.mapIdx fun i v => .wrmem sp (BitVec.ofNat 32 (a + i)) v

/-- `RDBYTES S, a, k`. DESIGN CHOICE (log entry 19): the address a + i is taken modulo 2^32. -/
def pseudoRdbytes (sp : Space) (a k : Nat) : List Instr :=
  (List.range k).map fun i => .rdmem sp (BitVec.ofNat 32 (a + i))

/-- Commands performed in order, "stopping at nothing": a failing command raises its error and the following ones still
run (R89). -/
def perform : List Instr → State → Result
  | [], s => .next s
  | i :: is, s =>
    match exec i s with
    | .next t => perform is t
    | .fault f => .fault f
    | .refused r => .refused r

/-- The serializer sequence of 42_packer.md R134: SRST, one SPUSH a sample, SFLUSH. R134 has a configured block and its
frame; elsewhere the widths and samples are issued as they are (log entry 21). -/
def serializerCommands (w : Nat → Nat) (c : Nat) (q : List Byte) : List Instr :=
  .srst :: (q.mapIdx fun i x => .spush (w (i % c)) (x.setWidth 32)) ++ [.sflush]

/-! ## Boot order (R223) -/

/-- How a configuration gives the widths (10_state.md R25, R30). -/
inductive WidthConfig
  /-- UNIFORM = 0: one BW entry a channel; C is their number. -/
  | perChannel (bits : List Word)
  /-- UNIFORM = 1: C channels of UBITS bits. -/
  | uniform (channels bits : Nat)
  deriving DecidableEq, Repr

/-- C. -/
def WidthConfig.channels : WidthConfig → Nat
  | .perChannel bits => bits.length
  | .uniform channels _ => channels

/-- The writes of MODE, and of BW in per-channel mode. -/
def WidthConfig.commands : WidthConfig → List Instr
  | .perChannel bits => pseudoWrwidths bits
  | .uniform _ bits => pseudoWruniform bits

/-- What a host decides before the first frame: the values of the CFG registers. -/
structure BootConfig where
  width : Word
  height : Word
  widths : WidthConfig
  generation : Word
  compression : Word
  /-- One name a reading; META_COUNT is their number. -/
  names : List (List Byte)
  deriving DecidableEq, Repr

/-- Part (1) of the boot order: the writes of the CFG registers. The two counts are taken modulo 2^32 (log entry 19). -/
def configurationWrites (b : BootConfig) : List Instr :=
  [ .wrreg 0x000 b.width, .wrreg 0x001 b.height, .wrreg 0x002 (BitVec.ofNat 32 b.widths.channels) ]
    ++ b.widths.commands
    ++ [ .wrreg 0x005 b.generation, .wrreg 0x004 b.compression
       , .wrreg 0x006 (BitVec.ofNat 32 b.names.length) ]
    ++ (b.names.mapIdx pseudoWrname).flatten

/-- A boot: those writes "in any order among themselves", then SETUP. -/
def IsBoot (b : BootConfig) (is : List Instr) : Prop :=
  ∃ writes, List.Perm writes (configurationWrites b) ∧ is = writes ++ [.setup]

/-- The boot in the order in which R223 names the registers. -/
def bootCommands (b : BootConfig) : List Instr := configurationWrites b ++ [.setup]

/-- Part (2), the host's check after SETUP: ERR_CODE = 0 in ERR and CONFIGURED = 1 in STATUS, as RDREG shows them. -/
def bootAccepted (s : State) : Bool :=
  decide ((s.regs.read .err).extractLsb' 0 8 = 0) && (s.regs.read .status).getLsbD 0

/-! ## The per-frame sequence (R223) -/

/-- The three ways to the packed bitstream. -/
inductive Packing
  /-- QPACK. -/
  | fused
  /-- QUANT, then PACK. -/
  | twoStages
  /-- SRST, SPUSH per sample, SFLUSH: the host quantizes the frame itself. -/
  | serializer
  deriving DecidableEq, Repr

/-- What a host brings for one frame. R223 and R230 give the sequence for a configured block and inputs that fit it; what the
lists below do with others is the model's choice (DESIGN CHOICE, log entry 21). -/
structure FrameInput where
  /-- The samples of the frame, W·H·C of them. Another number of samples is written as it is (log entry 21). -/
  samples : List Byte
  packing : Packing
  /-- The bytes the compressor (generation 1) or the encoder (generation 2) supplies; none where it supplies none. -/
  payload : Option (List Byte)
  /-- The readings the metadata cache has refreshed: slot and value. R230 gives it the slots below META_COUNT; others are
  written as they are (log entry 21). -/
  readings : List (Nat × Word)
  timestamp : Nat
  deriving DecidableEq, Repr

/-- The commands that pack the frame. -/
def packingCommands (r : Regs) (f : FrameInput) : List Instr :=
  match f.packing with
  | .fused => [.qpack]
  | .twoStages => [.quant, .pack]
  | .serializer => serializerCommands r.ebwAt r.channels (quantFrame r.ebwAt r.channels f.samples)

/-- A payload in CB: its bytes, CLEN, CVALID = 1. "Set CVALID = 1 only with CB[0 : CLEN] the compressed bytes; on failure
leave CVALID = 0" (R230). DESIGN CHOICE (log entry 21): a payload that CB cannot hold, of which R230 says no more, is such a
failure, and nothing is written. -/
def supplyCommands (cbCap : Nat) (p : List Byte) : List Instr :=
  if p.length ≤ cbCap then
    pseudoWrbytes .cb 0 (p.map fun x => x.setWidth 32) ++ [.wrreg 0x00F (BitVec.ofNat 32 p.length), .wrreg 0x010 1]
  else []

/-- "In generation 1 with compression, optionally have the compressor read PB and write CB, CLEN and CVALID; in
generation 2, have the encoder write CB, CLEN and CVALID". DESIGN CHOICE (log entry 21): in generation 2 with no payload, or
one CB cannot hold, nothing is written and the sequence goes on (FHDR then raises SEQUENCE_ERROR where CVALID = 0,
43_framer.md R160); a payload in generation 0, or in generation 1 without compression, is not written. -/
def payloadCommands (cbCap : Nat) (r : Regs) (f : FrameInput) : List Instr :=
  match f.payload with
  | none => []
  | some p =>
    if r.gen = 1 ∧ r.compEn then pseudoRdbytes .pb 0 r.plenRaw.toNat ++ supplyCommands cbCap p
    else if r.gen = 2 then supplyCommands cbCap p
    else []

/-- The commands of one frame, up to the finished packet, for a block with CB_CAP = `cbCap` configured as `r`
says. The list is fixed before it is issued: no error in it changes what follows (log entry 21). A reading's slot is one of
MVAL's, 0 to 255; elsewhere its index runs on behind MVAL (log entry 19). -/
def frameCommands (cbCap : Nat) (r : Regs) (f : FrameInput) : List Instr :=
  pseudoWrbytes .ifb 0 (f.samples.map fun x => x.setWidth 32)
    ++ packingCommands r f
    ++ payloadCommands cbCap r f
    ++ (f.readings.map fun x => .wrreg (BitVec.ofNat 32 (0x400 + x.1)) x.2)
    ++ pseudoFrame f.timestamp

/-- "Hand PA[0 : PKT_LEN] to the transport": the reads of a finished packet. -/
def transportReads (s : State) : List Instr := pseudoRdbytes .pa 0 s.regs.pktLen.toNat

/-! ## Issuing -/

/-- The host presents commands: they join the port behind those already there (20_memory.md R70). -/
def State.issue (s : State) (is : List Instr) : State := { s with port := s.port ++ is.map encode }

/-! ## Collaborators (R230) -/

/-- The external agents of the table of R230. -/
inductive Collaborator
  | captureSource
  | compressor
  | jpegEncoder
  | metadataCache
  | transportSender
  | configurationLoader
  deriving DecidableEq, Repr

/-- A supplier of CB: WRMEM CB; WRREG CLEN, CVALID (the compressor in generation 1, the JPEG encoder in generation 2). -/
def supplyPayload (i : Instr) : Bool :=
  match i with
  | .wrmem sp _ _ => decide (sp = .cb)
  | .wrreg r _ => decide (regOf r = some .clen) || decide (regOf r = some .cvalid)
  | _ => false

/-- The capture source: WRMEM IFB[0 : NSAMP]. -/
def supplyFrame (s : State) (i : Instr) : Bool :=
  match i with
  | .wrmem sp a _ => decide (sp = .ifb) && decide (a.toNat < s.regs.nsamp.toNat)
  | _ => false

/-- The compressor, besides supplying CB: RDMEM PB[0 : PLEN_RAW]. -/
def readBitstream (s : State) (i : Instr) : Bool :=
  match i with
  | .rdmem sp a => decide (sp = .pb) && decide (a.toNat < s.regs.plenRaw.toNat)
  | _ => false

/-- A register MVAL[s] for s < M. -/
def isReading (s : State) (g : Reg) : Bool :=
  match g with
  | .mval slot => decide (slot.val < s.regs.readings)
  | _ => false

/-- The metadata cache: WRREG MVAL[s] for s < M. -/
def supplyReading (s : State) (i : Instr) : Bool :=
  match i with
  | .wrreg r _ => (regOf r).any fun g => isReading s g
  | _ => false

/-- The transport sender: RDMEM PA while FSTATE = COMPLETE; RDMEM MA while MPKT_VALID = 1. -/
def readPacket (s : State) (i : Instr) : Bool :=
  match i with
  | .rdmem sp _ => (decide (sp = .pa) && decide (s.regs.fstate = .complete)) || (decide (sp = .ma) && s.regs.mpktValid)
  | _ => false

/-- WRREG of a CFG register. -/
def writesConfiguration (i : Instr) : Bool :=
  match i with
  | .wrreg r _ => (regOf r).any fun g => decide (g.cls = .cfg)
  | _ => false

/-- The configuration loader: WRREG of CFG registers, SETUP, SRESET. -/
def loadConfiguration (i : Instr) : Bool := writesConfiguration i || decide (i = .setup) || decide (i = .sreset)

/-- "May do to the block" (R230): "an action not listed is not taken by that collaborator". RDREG, NOP and CLRERR are
the host's own. -/
def Collaborator.may (k : Collaborator) (s : State) (i : Instr) : Bool :=
  match k with
  | .captureSource => supplyFrame s i
  | .compressor => decide (s.regs.gen = 1) && (readBitstream s i || supplyPayload i)
  | .jpegEncoder => decide (s.regs.gen = 2) && supplyPayload i
  | .metadataCache => supplyReading s i
  | .transportSender => readPacket s i
  | .configurationLoader => loadConfiguration i

/-! ## What the host reads back (R227, R234) -/

/-- The finished packet, PA[0 : PKT_LEN], where FSTATE = COMPLETE. -/
def State.packet (s : State) : Option (List Byte) :=
  if s.regs.fstate = .complete then some (s.readBytes .pa 0 s.regs.pktLen.toNat) else none

/-- The finished metadata packet, MA[0 : MPKT_LEN], where MPKT_VALID = 1. -/
def State.metaPacket (s : State) : Option (List Byte) :=
  if s.regs.mpktValid then some (s.readBytes .ma 0 s.regs.mpktLen.toNat) else none

/-! ## Textual syntax (R88) -/

/-- The names of the spaces (20_memory.md R60). -/
def spaceText : Space → String
  | .ifb => "IFB"
  | .qb => "QB"
  | .pb => "PB"
  | .cb => "CB"
  | .pa => "PA"
  | .ma => "MA"

/-- The names of the registers (10_state.md R42), the register files as R88 writes them: `BW[2]`, `MNAME[3].h1`. -/
def regText : Reg → String
  | .frameW => "FRAME_W"
  | .frameH => "FRAME_H"
  | .chanC => "CHAN_C"
  | .mode => "MODE"
  | .compEn => "COMP_EN"
  | .gen => "GEN"
  | .metaCount => "META_COUNT"
  | .status => "STATUS"
  | .err => "ERR"
  | .nsamp => "NSAMP"
  | .sumb => "SUMB"
  | .plenRaw => "PLEN_RAW"
  | .hdrLen => "HDR_LEN"
  | .ser => "SER"
  | .serWp => "SER_WP"
  | .clen => "CLEN"
  | .cvalid => "CVALID"
  | .fTs => "F_TS"
  | .fPlen => "F_PLEN"
  | .pktLen => "PKT_LEN"
  | .mTs => "M_TS"
  | .mpktLen => "MPKT_LEN"
  | .bw c => "BW[" ++ toString c.val ++ "]"
  | .mname k => "MNAME[" ++ toString (k.val / 2) ++ "].h" ++ toString (k.val % 2)
  | .mval s => "MVAL[" ++ toString s.val ++ "]"
  | .ebw c => "EBW[" ++ toString c.val ++ "]"

/-- A register index by its name where it has one, else in decimal (log entry 22). -/
def indexText (r : Word) : String :=
  match regOf r with
  | some g => regText g
  | none => toString r.toNat

/-- A timestamp operand, T = ADDR · 2^32 + DATA. -/
def timestampText (tsHi ts : Word) : String := toString (tsHi.toNat * 2 ^ 32 + ts.toNat)

/-- `MNEMONIC operand, operand`, "operands in the order SEL, ADDR, DATA, omitting those the command ignores". DESIGN CHOICE
(log entry 22): every number is decimal; R88 fixes no base, and its examples use decimal and hexadecimal. -/
def commandText : Instr → String
  | .nop => "NOP"
  | .wrreg r v => "WRREG " ++ indexText r ++ ", " ++ toString v.toNat
  | .rdreg r => "RDREG " ++ indexText r
  | .wrmem sp a v => "WRMEM " ++ spaceText sp ++ ", " ++ toString a.toNat ++ ", " ++ toString v.toNat
  | .rdmem sp a => "RDMEM " ++ spaceText sp ++ ", " ++ toString a.toNat
  | .setup => "SETUP"
  | .clrerr => "CLRERR"
  | .sreset => "SRESET"
  | .qsample c v => "QSAMPLE " ++ toString c.toNat ++ ", " ++ toString v.toNat
  | .quant => "QUANT"
  | .pack => "PACK"
  | .qpack => "QPACK"
  | .srst => "SRST"
  | .spush n v => "SPUSH " ++ toString n ++ ", " ++ toString v.toNat
  | .sflush => "SFLUSH"
  | .fhdr tsHi ts => "FHDR " ++ timestampText tsHi ts
  | .fpay => "FPAY"
  | .fmeta => "FMETA"
  | .fdone => "FDONE"
  | .mpkt tsHi ts => "MPKT " ++ timestampText tsHi ts

end Sys2Proof.Machine
end

