-- ==== Sys2Proof/Safety.lean ====
section
/-! DEFINITION. What the spec says holds of the block between commands, in every state a run reaches: the invariant
`State.Inv`, the constant header (43_framer.md R172), and what a safe step is. -/

namespace Sys2Proof.Machine

/-- A step is safe when the block accepts the command and goes on: "Nothing is `stuck`: the block always accepts the
next command" (93_implementation_defined.md U7, 60_exceptions.md R201). -/
def SafeStep (s : State) : Prop := ∃ t, step s = .next t

/-- A memory in canonical form whose every listed address lies in its space (20_memory.md R60, R73). -/
structure MemOk (p : Params) (sp : Space) (m : Memory) : Prop where
  canonical : m.wf
  inside : ∀ c ∈ m, c.1 < capacity p sp

/-- The configuration checks 1 to 10 of SETUP pass (40_control.md R105). -/
structure LegalConfig (p : Params) (r : Regs) : Prop where
  width : r.frameW ≠ 0
  height : r.frameH ≠ 0
  channels : r.chanC ≠ 0
  uniformBits : r.uniform = true → 1 ≤ r.ubits.toNat ∧ r.ubits.toNat ≤ 8
  channelBits : r.uniform = false → ∀ c < r.channels, 1 ≤ r.bwAt c ∧ r.bwAt c ≤ 8
  generation : r.gen ≠ 3
  compression : r.compEn = true → r.gen = 1
  readings : r.readings ≤ 256
  names : ∀ k < r.readings, validName (r.nameBytes k) = true
  size : r.frameW.toNat * r.frameH.toNat * r.channels ≤ p.maxSamples

/-- The registers SETUP derives agree with the configuration (10_state.md R36, R37; 40_control.md R106). -/
structure DerivedRegs (r : Regs) : Prop where
  widths : r.ebw = effectiveWidths r
  samples : r.nsamp.toNat = r.frameW.toNat * r.frameH.toNat * r.channels
  bitsPerPixel : r.sumb.toNat = widthSum r.widths r.channels
  rawLength : r.plenRaw.toNat = ceilDiv8 (r.frameW.toNat * r.frameH.toNat * r.sumb.toNat)
  headerLength : r.hdrLen.toNat = headerLen r

/-- The payload FHDR chose is one its generation allows and its length fits the memory it comes from (R159, R161). -/
structure LatchedPayload (p : Params) (r : Regs) : Prop where
  external : r.gen = 2 ↔ r.fSrc = .ext
  rawLength : r.fSrc = .raw → r.fPlen = r.plenRaw
  compressedLength : r.fSrc = .comp → r.fPlen.toNat ≤ r.plenRaw.toNat
  fitsCb : r.fSrc ≠ .raw → r.fPlen.toNat ≤ p.cbCap
  flag : r.fComp = true ↔ r.fSrc = .comp

/-- What holds between commands. -/
structure State.Inv (s : State) : Prop where
  /-- The parameters meet the constraints of 00_scope.md R10. -/
  params : s.params.wf = true
  ifb : MemOk s.params .ifb s.ifb
  qb : MemOk s.params .qb s.qb
  pb : MemOk s.params .pb s.pb
  cb : MemOk s.params .cb s.cb
  pa : MemOk s.params .pa s.pa
  ma : MemOk s.params .ma s.ma
  /-- SER_ACC is zero below its SER_NB filled bits (10_state.md R38). -/
  serLow : s.regs.serAcc.toNat % 2 ^ (8 - s.regs.serNb.toNat) = 0
  /-- The serializer never writes past PB (42_packer.md R132, R133). -/
  serWp : s.regs.serWp.toNat ≤ s.params.maxSamples
  /-- CLEN ≤ CB_CAP (10_state.md R33, 92 D38). -/
  clen : s.regs.clen.toNat ≤ s.params.cbCap
  legal : s.regs.configured = true → LegalConfig s.params s.regs
  derived : s.regs.configured = true → DerivedRegs s.regs
  /-- No packet without a configuration (70_reset_and_hazards.md R222). -/
  unconfigured : s.regs.configured = false → s.regs.fstate = .new ∧ s.regs.mpktValid = false
  latched : s.regs.fstate ≠ .new → LatchedPayload s.params s.regs
  /-- PKT_LEN is the packet's length when complete, "0 whenever FSTATE ≠ COMPLETE" (10_state.md R39, 43_framer.md
  R168). -/
  packetLength : s.regs.pktLen =
    if s.regs.fstate = .complete then lengthWord (s.regs.hdrLen.toNat + s.regs.fPlen.toNat + tableLen s.regs) else 0
  /-- A metadata packet exists in generation 2 only, of length 8 + 12·M (10_state.md R40). -/
  metaPacket : s.regs.mpktValid = true → s.regs.gen = 2 ∧ s.regs.mpktLen.toNat = 8 + 12 * s.regs.readings
  /-- With no error recorded the other fields of ERR are 0 (10_state.md R41, 60_exceptions.md R207). -/
  noRecord : s.regs.errCode = .noError → s.regs.errOp = 0 ∧ s.regs.errInfo = 0 ∧ s.regs.errMore = false
  /-- ERR_INFO is a check number for CONFIG_ERROR and 0 otherwise (10_state.md R41). -/
  info : s.regs.errCode ≠ .configError → s.regs.errInfo = 0

/-- The constant fields SETUP wrote stand in the arenas (40_control.md R107, 43_framer.md R156, R172). -/
def State.ConstantHeader (s : State) : Prop :=
  s.regs.configured = true →
    if s.regs.gen = 2 then
      s.readBytes .pa 4 8 = le32 s.regs.frameW ++ le32 s.regs.frameH
        ∧ s.readBytes .ma 4 4 = le32Nat s.regs.readings
        ∧ ∀ k < s.regs.readings, s.readBytes .ma (8 + 12 * k) 8 = s.regs.nameBytes k
    else s.readBytes .pa 4 (9 + s.regs.channels) = hdr s.regs

end Sys2Proof.Machine
end

