-- ==== Sys2Proof/Certificates/Slice0/Obligations.lean ====
section
/-! DEFINITION. The statements for the provers. First the words they are written in: what a command leaves, what raising
an error leaves (60_exceptions.md R201, R207), and the tables and conditions of the spec's rules written out from their
text, on numbers. Then one definition a statement. -/

namespace Sys2Proof.Spec

open Sys2Proof.Machine

/-- The command leaves the registers `r` and the response `v`; the parameters and the waiting commands are as before. -/
def Leaves (s t : State) (r : Regs) (v : Word) : Prop :=
  t.params = s.params ∧ t.port = s.port ∧ t.regs = r ∧ t.resp = some v

/-- Every byte of every memory that `stored` does not name reads as before. -/
def KeptOutside (s t : State) (stored : Space → Nat → Prop) : Prop :=
  ∀ sp a, ¬ stored sp a → t.readByte sp a = s.readByte sp a

/-- Every byte of every memory reads as before. -/
def MemoryKept (s t : State) : Prop := ∀ sp a, t.readByte sp a = s.readByte sp a

/-- `raise Error(e, info)` by a command of opcode `op` (R201, R207): the first error is recorded whole, a further one
sets ERR_MORE, nothing else changes, the response is 0. -/
def Raised (s t : State) (op : Byte) (e : ErrCode) (info : Byte) : Prop :=
  Leaves s t
      (if s.regs.errCode = .noError then { s.regs with errCode := e, errOp := op, errInfo := info }
       else { s.regs with errMore := true })
      0
    ∧ MemoryKept s t

/-- The command completes with the error `e`. -/
def Raises (i : Instr) (s : State) (op : Byte) (e : ErrCode) (info : Byte) : Prop :=
  ∃ t, exec i s = .next t ∧ Raised s t op e info

/-- 30_encoding.md R82, on the number of CMD: OP = CMD mod 256, SEL = CMD div 256 mod 16, the reserved bits above. -/
def IllegalWord (w : Nat) : Prop :=
  w % 256 = 0x0F ∨ 0x15 ≤ w % 256 ∨ w / 4096 ≠ 0
    ∨ (w / 256 % 16 ≠ 0 ∧ w % 256 ∉ [0x03, 0x04, 0x0D])
    ∨ (6 ≤ w / 256 % 16 ∧ w % 256 ∈ [0x03, 0x04])

/-- A block that has just been powered on (70_reset_and_hazards.md R220): every register 0, memory undetermined, no
response. -/
def PoweredOn (s : State) : Prop :=
  (∀ g : Reg, s.regs.read g = 0)
    ∧ s.regs.configured = false ∧ s.regs.fstate = .new ∧ s.regs.cvalid = false ∧ s.regs.mpktValid = false
    ∧ (∀ sp a, s.readByte sp a = Config.memInit sp a)
    ∧ s.resp = none

/-- The state with its error record cleared. -/
def withoutRecord (s : State) : State :=
  { s with regs := { s.regs with errCode := .noError, errOp := 0, errInfo := 0, errMore := false } }

/-- A row of the register map (10_state.md R42): index, register, class, and the bits its fields take. -/
structure Row where
  index : Nat
  reg : Reg
  cls : RegClass
  fields : Nat

/-- The scalar rows of the register map. -/
def scalarRows : List Row :=
  [ ⟨0x000, .frameW, .cfg, 0xFFFFFFFF⟩, ⟨0x001, .frameH, .cfg, 0xFFFFFFFF⟩, ⟨0x002, .chanC, .cfg, 0xFF⟩
  , ⟨0x003, .mode, .cfg, 0xF1⟩, ⟨0x004, .compEn, .cfg, 0x1⟩, ⟨0x005, .gen, .cfg, 0x3⟩
  , ⟨0x006, .metaCount, .cfg, 0x1FF⟩, ⟨0x007, .status, .ro, 0xF71⟩, ⟨0x008, .err, .ro, 0x80FFFFFF⟩ ]
    ++ [ ⟨0x009, .nsamp, .ro, 0xFFFFFFFF⟩, ⟨0x00A, .sumb, .ro, 0xFFFFFFFF⟩, ⟨0x00B, .plenRaw, .ro, 0xFFFFFFFF⟩
       , ⟨0x00C, .hdrLen, .ro, 0xFFFFFFFF⟩, ⟨0x00D, .ser, .ro, 0x7FF⟩, ⟨0x00E, .serWp, .ro, 0xFFFFFFFF⟩
       , ⟨0x00F, .clen, .frame, 0xFFFFFFFF⟩, ⟨0x010, .cvalid, .frame, 0x1⟩ ]
    ++ [ ⟨0x011, .fTs, .ro, 0xFFFFFFFF⟩, ⟨0x012, .fPlen, .ro, 0xFFFFFFFF⟩, ⟨0x013, .pktLen, .ro, 0xFFFFFFFF⟩
       , ⟨0x014, .mTs, .ro, 0xFFFFFFFF⟩, ⟨0x015, .mpktLen, .ro, 0xFFFFFFFF⟩ ]

/-- The rows of the four register files (R42, R46). -/
def fileRow (g : Reg) : Option Row :=
  match g with
  | .bw c => some ⟨0x100 + c.val, g, .cfg, 0xF⟩
  | .mname k => some ⟨0x200 + k.val, g, .cfg, 0xFFFFFFFF⟩
  | .mval k => some ⟨0x400 + k.val, g, .frame, 0xFFFFFFFF⟩
  | .ebw c => some ⟨0x500 + c.val, g, .ro, 0xF⟩
  | _ => none

/-- The row says what the model has: the register of its index, its class and its bits. -/
def Row.Holds (x : Row) : Prop :=
  regOf (BitVec.ofNat 32 x.index) = some x.reg ∧ x.reg.index.toNat = x.index ∧ x.reg.cls = x.cls
    ∧ x.reg.fieldMask.toNat = x.fields

/-- The column "written by (besides WRREG)" of 10_state.md R42 as opcodes, SRESET apart. ERR is written by any command
that raises an error, and is stated on its own. -/
def writersOf : Reg → List Nat
  | .frameW => []
  | .frameH => []
  | .chanC => []
  | .mode => []
  | .compEn => []
  | .gen => []
  | .metaCount => []
  | .status => [0x05, 0x10, 0x11, 0x12, 0x13, 0x14]
  | .err => []
  | .nsamp => [0x05]
  | .sumb => [0x05]
  | .plenRaw => [0x05]
  | .hdrLen => [0x05]
  | .ser => [0x0C, 0x0D, 0x0E, 0x0A, 0x0B]
  | .serWp => [0x0C, 0x0D, 0x0E, 0x0A, 0x0B]
  | .clen => []
  | .cvalid => [0x0C, 0x0A, 0x0B, 0x13]
  | .fTs => [0x10]
  | .fPlen => [0x10]
  | .pktLen => [0x10, 0x13, 0x05]
  | .mTs => [0x14]
  | .mpktLen => [0x14]
  | .bw _ => []
  | .mname _ => []
  | .mval _ => []
  | .ebw _ => [0x05]

/-- The column "written by commands" of 20_memory.md R60 as opcodes. -/
def memoryWritersOf : Space → List Nat
  | .ifb => [0x03]
  | .qb => [0x03, 0x09]
  | .pb => [0x03, 0x0D, 0x0E, 0x0A, 0x0B]
  | .cb => [0x03]
  | .pa => [0x05, 0x10, 0x11, 0x12]
  | .ma => [0x05, 0x14]

/-- The column "raised by" of 60_exceptions.md R200 as opcodes; ILLEGAL_COMMAND is raised before a command is known. -/
def raisersOf : ErrCode → List Nat
  | .noError => []
  | .illegalCommand => []
  | .configError => [0x05]
  | .sequenceError => [0x01, 0x05, 0x08, 0x09, 0x0A, 0x0B, 0x10, 0x11, 0x12, 0x13, 0x14]
  | .rangeError => [0x01, 0x02, 0x03, 0x04, 0x08, 0x0D, 0x0E]
  | .valueError => [0x01, 0x03, 0x08, 0x0D, 0x0A]

/-- Byte j of MNAME[k]: "byte 4h + k of the name in bits [8k+7 : 8k] of half h" (10_state.md R31), as a number. -/
def nameByte (r : Regs) (k j : Nat) : Nat := (r.mname.getD (2 * k + j / 4) 0).toNat / 2 ^ (8 * (j % 4)) % 256

/-- The condition of check n of SETUP (40_control.md R105). -/
def SetupFails (s : State) (n : Nat) : Prop :=
  match n with
  | 0 => s.regs.configured = true
  | 1 => s.regs.frameW.toNat = 0
  | 2 => s.regs.frameH.toNat = 0
  | 3 => s.regs.chanC.toNat = 0
  | 4 => s.regs.uniform = true ∧ ¬ (1 ≤ s.regs.ubits.toNat ∧ s.regs.ubits.toNat ≤ 8)
  | 5 => s.regs.uniform = false
      ∧ ∃ c < s.regs.chanC.toNat, ¬ (1 ≤ (s.regs.bw.getD c 0).toNat ∧ (s.regs.bw.getD c 0).toNat ≤ 8)
  | 6 => s.regs.gen.toNat = 3
  | 7 => s.regs.compEn = true ∧ s.regs.gen.toNat ≠ 1
  | 8 => 256 < s.regs.metaCount.toNat
  | 9 => ∃ k < s.regs.metaCount.toNat,
      (∃ j < 8, 0x80 ≤ nameByte s.regs k j)
        ∨ ∃ i j, i < j ∧ j < 8 ∧ nameByte s.regs k i = 0 ∧ nameByte s.regs k j ≠ 0
  | 10 => s.params.maxSamples < s.regs.frameW.toNat * s.regs.frameH.toNat * s.regs.chanC.toNat
  | _ => False

/-- A closed raw bitstream of exactly the configured length (43_framer.md R159). -/
def RawClosed (r : Regs) : Prop := r.serNb.toNat = 0 ∧ r.serWp = r.plenRaw

/-- A compressed payload that may be framed (R159). -/
def CompressedReady (r : Regs) : Prop := r.compEn = true ∧ r.cvalid = true ∧ r.clen.toNat ≤ r.plenRaw.toNat

/-- `Select()` (R159) as a relation, case by case: source, flag, length. -/
def Chooses (r : Regs) (src : FSrc) (f : Bool) (p : Word) : Prop :=
  (r.gen.toNat = 0 ∧ RawClosed r ∧ src = .raw ∧ f = false ∧ p = r.plenRaw)
    ∨ (r.gen.toNat = 1 ∧ CompressedReady r ∧ src = .comp ∧ f = true ∧ p = r.clen)
    ∨ (r.gen.toNat = 1 ∧ ¬ CompressedReady r ∧ RawClosed r ∧ src = .raw ∧ f = false ∧ p = r.plenRaw)
    ∨ (r.gen.toNat = 2 ∧ r.cvalid = true ∧ src = .ext ∧ f = false ∧ p = r.clen)

/-- The packet of the configured generation around a payload (43_framer.md R152). -/
def wholePacket (r : Regs) (t : Word) (f : Bool) (payload : List Byte) : List Byte :=
  if r.gen.toNat = 0 then packet0 r t payload
  else if r.gen.toNat = 1 then packet1 r t f payload
  else videoPacket2 r t payload

/-- What a collaborator may store to (70_reset_and_hazards.md R230): bytes of the memories. -/
def collaboratorBytes (s : State) : Collaborator → Space → Nat → Prop
  | .captureSource, sp, a => sp = .ifb ∧ a < s.regs.nsamp.toNat
  | .compressor, sp, _ => sp = .cb
  | .jpegEncoder, sp, _ => sp = .cb
  | .metadataCache, _, _ => False
  | .transportSender, _, _ => False
  | .configurationLoader, sp, _ => sp = .pa ∨ sp = .ma

/-- What a collaborator may change among the registers, ERR apart (R230): of MVAL the slots below META_COUNT. -/
def collaboratorRegs (s : State) : Collaborator → Reg → Prop
  | .captureSource, _ => False
  | .compressor, g => g = .clen ∨ g = .cvalid
  | .jpegEncoder, g => g = .clen ∨ g = .cvalid
  | .metadataCache, g => ∃ k, k.val < s.regs.metaCount.toNat ∧ g = .mval k
  | .transportSender, _ => False
  | .configurationLoader, _ => True

end Sys2Proof.Spec

open Sys2Proof Sys2Proof.Machine Sys2Proof.Spec

/-! ## Reset, encoding, the step -/

/-- 70_reset_and_hazards.md R220: what power-on reset leaves, in a block with any parameters (00_scope.md R10) and in the
block of `State.reset`, whose parameters are legal and otherwise unknown. -/
def Obligations.ResetRegistersAreZero : Prop :=
  (∀ p : Params, PoweredOn (State.powerOn p) ∧ (State.powerOn p).params = p)
    ∧ PoweredOn State.reset ∧ State.reset.params.wf = true

/-- 30_encoding.md R81, R84, R85: command words written out from the tables and what they stand for. -/
def Obligations.CommandWordsDecode : Prop :=
  decode ⟨0x00000000, 0xFFFFFFFF, 0xFFFFFFFF⟩ = .ok .nop
    ∧ decode ⟨0x00000001, 0x00000000, 0x00000140⟩ = .ok (.wrreg 0 320)
    ∧ decode ⟨0x00000403, 0x00000000, 0x00000000⟩ = .ok (.wrmem .pa 0 0)
    ∧ decode ⟨0x00000204, 0x00000001, 0x00000000⟩ = .ok (.rdmem .pb 1)
    ∧ decode ⟨0x00000008, 0x00000002, 0x00000032⟩ = .ok (.qsample 2 50)
    ∧ decode ⟨0x0000080D, 0x00000000, 0x000000FF⟩ = .ok (.spush 8 0xFF)
    ∧ decode ⟨0x00000010, 0x00000001, 0x00000002⟩ = .ok (.fhdr 1 2)
    ∧ decode ⟨0x0000000F, 0x00000000, 0x00000000⟩ = .error .unassignedOpcode
    ∧ decode ⟨0x00001000, 0x00000000, 0x00000000⟩ = .error .reservedBits
    ∧ decode ⟨0x00000105, 0x00000000, 0x00000000⟩ = .error .selNotZero
    ∧ decode ⟨0x00000603, 0x00000000, 0x00000000⟩ = .error .noSuchSpace

/-- 30_encoding.md R81, R84, R85: decoding an encoded well-formed command gives it back, with every operand. -/
def Obligations.DecodeOfEncode : Prop := ∀ i : Instr, i.wf = true → decode (encode i) = .ok i

/-- 30_encoding.md R84, R87: each command word has one meaning. Encoding what was decoded gives the same CMD, and the
same ADDR and DATA for the opcodes whose operands R84 names. -/
def Obligations.EncodeOfDecode : Prop :=
  ∀ (c : Command) (i : Instr), decode c = .ok i →
    i.wf = true ∧ (encode i).cmd = c.cmd
      ∧ (c.cmd.toNat % 256 ∈ [0x01, 0x02, 0x03, 0x04, 0x08, 0x10, 0x14] → (encode i).addr = c.addr)
      ∧ (c.cmd.toNat % 256 ∈ [0x01, 0x03, 0x08, 0x0D, 0x10, 0x14] → (encode i).data = c.data)

/-- 30_encoding.md R82, R86 and 60_exceptions.md R202: a step on an illegal command records ILLEGAL_COMMAND with
CMD[7:0] and does nothing else; every other command decodes and is performed. -/
def Obligations.IllegalCommandsAreRecorded : Prop :=
  ∀ (s : State) (c : Command) (rest : List Command), s.port = c :: rest →
    (IllegalWord c.cmd.toNat →
        ∃ t, step s = .next t
          ∧ Raised { s with port := rest } t (BitVec.ofNat 8 (c.cmd.toNat % 256)) .illegalCommand 0)
      ∧ (¬ IllegalWord c.cmd.toNat → ∃ i, decode c = .ok i ∧ step s = exec i { s with port := rest })

/-- 30_encoding.md R83, R84 and 43_framer.md R158: an operand the table marks with a dash, and the high word of a
timestamp, have no effect. -/
def Obligations.UnusedOperandsHaveNoEffect : Prop :=
  ∀ (s : State) (w a a' d d' : Word) (rest : List Command),
    (w.toNat % 256 ∈ [0x00, 0x05, 0x06, 0x07, 0x09, 0x0A, 0x0B, 0x0C, 0x0E, 0x11, 0x12, 0x13] →
        step { s with port := ⟨w, a, d⟩ :: rest } = step { s with port := ⟨w, a', d'⟩ :: rest })
      ∧ (w.toNat % 256 ∈ [0x02, 0x04] →
        step { s with port := ⟨w, a, d⟩ :: rest } = step { s with port := ⟨w, a, d'⟩ :: rest })
      ∧ (w.toNat % 256 ∈ [0x0D, 0x10, 0x14] →
        step { s with port := ⟨w, a, d⟩ :: rest } = step { s with port := ⟨w, a', d⟩ :: rest })

/-- 20_memory.md R70: a step performs the oldest waiting command, taken from the port. -/
def Obligations.StepPerformsTheNextCommand : Prop :=
  ∀ (s : State) (c : Command) (rest : List Command) (i : Instr), s.port = c :: rest → decode c = .ok i →
    step s = exec i { s with port := rest }

/-- 10_state.md R47 (nothing is pending in the block) and the model's choice of log entry 6: with no command waiting a
step changes nothing. -/
def Obligations.NothingHappensWithoutACommand : Prop := ∀ s : State, s.port = [] → step s = .next s

/-! ## Invariants -/

/-- The invariant holds after power-on reset, whatever the legal parameters are. -/
def Obligations.ResetMeetsTheInvariant : Prop :=
  (∀ p : Params, p.wf = true → (State.powerOn p).Inv ∧ (State.powerOn p).ConstantHeader)
    ∧ State.reset.Inv ∧ State.reset.ConstantHeader

/-- Every step keeps the invariant: memories in canonical form and inside their spaces (20_memory.md R60, R73), the
serializer's zero low bits (10_state.md R38), the derived registers agreeing with a legal configuration (R36, R37), the
packet length and the latched payload (R39, 43_framer.md R159), the error record (R41). -/
def Obligations.StepKeepsTheInvariant : Prop := ∀ s t : State, s.Inv → step s = .next t → t.Inv

/-- 93_implementation_defined.md U7, 20_memory.md R73: between commands the block accepts whatever comes next; no bulk
command leaves its space, so no step stops. -/
def Obligations.TheBlockNeverStops : Prop :=
  ∀ s : State, s.Inv → SafeStep s ∧ ∀ i : Instr, ∃ t, exec i s = .next t

/-- 43_framer.md R172: no command other than SETUP writes the constant header bytes of PA, nor MA[4 : 8], nor a name
byte of MA. -/
def Obligations.OnlySetupWritesTheConstantHeader : Prop :=
  ∀ s t : State, s.Inv → step s = .next t →
    (∀ c rest, s.port = c :: rest → decode c ≠ .ok .setup) →
      (∀ a, 4 ≤ a → a < (if s.regs.gen.toNat = 2 then 12 else 13 + s.regs.chanC.toNat) →
        t.readByte .pa a = s.readByte .pa a)
      ∧ (∀ a, 4 ≤ a → a < 8 → t.readByte .ma a = s.readByte .ma a)
      ∧ (∀ k j, j < 8 → t.readByte .ma (8 + 12 * k + j) = s.readByte .ma (8 + 12 * k + j))

/-- 43_framer.md R156, 40_control.md R107: whenever the block is configured, the arenas hold the constant fields of the
configuration. -/
def Obligations.StepKeepsTheConstantHeader : Prop :=
  ∀ s t : State, s.Inv → s.ConstantHeader → step s = .next t → t.ConstantHeader

/-! ## Rules over all commands -/

/-- 10_state.md R42, the column "written by", and R45: a register other than ERR changes only by SRESET, by WRREG of its
own index, or by a command the column names. -/
def Obligations.RegistersChangeOnlyByTheirWriters : Prop :=
  ∀ (i : Instr) (s t : State) (g : Reg), exec i s = .next t → g ≠ .err → t.regs.read g ≠ s.regs.read g →
    i = .sreset ∨ (∃ r v, i = .wrreg r v ∧ regOf r = some g) ∨ i.opcode.toNat ∈ writersOf g

/-- 20_memory.md R60, the column "written by commands": a byte changes only by a command the column names, and WRMEM
changes only the byte it addresses. -/
def Obligations.MemoriesChangeOnlyByTheirWriters : Prop :=
  ∀ (i : Instr) (s t : State) (sp : Space) (a : Nat), exec i s = .next t → t.readByte sp a ≠ s.readByte sp a →
    i.opcode.toNat ∈ memoryWritersOf sp ∧ ∀ sp' a' v, i = .wrmem sp' a' v → sp' = sp ∧ a'.toNat = a

/-- 60_exceptions.md R201: a command other than CLRERR and SRESET either raises no error, and then the error record is as
it was, or raises one, and then nothing but ERR changes and the response is 0. Which of the two, and which error, does not
depend on the errors recorded before: the same command in the state whose record is cleared shows it. A command that does
not decode raises ILLEGAL_COMMAND so. -/
def Obligations.AnErrorChangesNothingButErr : Prop :=
  (∀ (i : Instr) (s t : State), exec i s = .next t → i ≠ .clrerr → i ≠ .sreset →
      ∃ u, exec i (withoutRecord s) = .next u
        ∧ (u.regs.errCode = .noError →
            t.regs.errCode = s.regs.errCode ∧ t.regs.errOp = s.regs.errOp ∧ t.regs.errInfo = s.regs.errInfo
              ∧ t.regs.errMore = s.regs.errMore)
        ∧ (u.regs.errCode ≠ .noError → Raised s t i.opcode u.regs.errCode u.regs.errInfo)
        ∧ (u.regs.errCode ≠ .configError → u.regs.errInfo = 0))
    ∧ ∀ (s : State) (c : Command) (rest : List Command) (e : DecodeError), s.port = c :: rest → decode c = .error e →
        ∃ t, step s = .next t ∧ Raised { s with port := rest } t (cmdOp c.cmd) .illegalCommand 0

/-- 60_exceptions.md R200, R206: which commands raise which error; CONFIG_ERROR carries a check number 1 to 10. -/
def Obligations.ErrorsComeFromTheirCommands : Prop :=
  ∀ (i : Instr) (s t : State), exec i s = .next t → s.regs.errCode = .noError → t.regs.errCode ≠ .noError →
    i.opcode.toNat ∈ raisersOf t.regs.errCode ∧ t.regs.errOp = i.opcode
      ∧ (t.regs.errCode = .configError → 1 ≤ t.regs.errInfo.toNat ∧ t.regs.errInfo.toNat ≤ 10)
      ∧ (t.regs.errCode ≠ .configError → t.regs.errInfo = 0)

/-- 10_state.md R23, 70_reset_and_hazards.md R224, 43_framer.md R164: while configured, no command but SRESET changes a
CFG register or CONFIGURED. -/
def Obligations.ConfigurationIsLockedUntilSreset : Prop :=
  ∀ (i : Instr) (s t : State), exec i s = .next t → s.regs.configured = true → i ≠ .sreset →
    t.regs.configured = true ∧ ∀ g : Reg, g.cls = .cfg → t.regs.read g = s.regs.read g

/-- 43_framer.md R150: FSTATE moves only along the chain, FHDR leaves any state for HEADER_WRITTEN, SETUP and SRESET set
NEW, each arrow is taken in its state, and FPAY, FMETA and FDONE in any other state raise SEQUENCE_ERROR and change
nothing. -/
def Obligations.FramerMovesAlongItsChain : Prop :=
  (∀ (i : Instr) (s t : State), exec i s = .next t → t.regs.fstate ≠ s.regs.fstate →
      (i.opcode.toNat = 0x10 ∧ t.regs.fstate = .headerWritten)
        ∨ (i = .fpay ∧ s.regs.fstate = .headerWritten ∧ t.regs.fstate = .payloadWritten)
        ∨ (i = .fmeta ∧ s.regs.fstate = .payloadWritten ∧ t.regs.fstate = .metadataWritten)
        ∨ (i = .fdone ∧ s.regs.fstate = .metadataWritten ∧ t.regs.fstate = .complete)
        ∨ ((i = .setup ∨ i = .sreset) ∧ t.regs.fstate = .new))
    ∧ (∀ (s : State) (hi ts : Word) (src : FSrc) (f : Bool) (p : Word), s.regs.configured = true →
        Chooses s.regs src f p → ∃ t, exec (.fhdr hi ts) s = .next t ∧ t.regs.fstate = .headerWritten)
    ∧ (∀ s : State, s.Inv → s.regs.fstate = .headerWritten →
        ∃ t, exec .fpay s = .next t ∧ t.regs.fstate = .payloadWritten)
    ∧ (∀ s : State, s.Inv → s.regs.fstate = .payloadWritten →
        ∃ t, exec .fmeta s = .next t ∧ t.regs.fstate = .metadataWritten)
    ∧ (∀ s : State, s.Inv → s.regs.fstate = .metadataWritten →
        ∃ t, exec .fdone s = .next t ∧ t.regs.fstate = .complete)
    ∧ (∀ s : State, s.params.wf = true → (∀ n ≤ 10, ¬ SetupFails s n) →
        ∃ t, exec .setup s = .next t ∧ t.regs.fstate = .new)
    ∧ (∀ s : State, ∃ t, exec .sreset s = .next t ∧ t.regs.fstate = .new)
    ∧ (∀ s : State, s.regs.fstate ≠ .headerWritten → Raises .fpay s 0x11 .sequenceError 0)
    ∧ (∀ s : State, s.regs.fstate ≠ .payloadWritten → Raises .fmeta s 0x12 .sequenceError 0)
    ∧ (∀ s : State, s.regs.fstate ≠ .metadataWritten → Raises .fdone s 0x13 .sequenceError 0)

/-- 70_reset_and_hazards.md R222: until a successful SETUP the codec and framer commands raise SEQUENCE_ERROR. -/
def Obligations.CodecAndFramerWaitForSetup : Prop :=
  ∀ s : State, s.Inv → s.regs.configured = false →
    (∀ c v, Raises (.qsample c v) s 0x08 .sequenceError 0)
      ∧ Raises .quant s 0x09 .sequenceError 0 ∧ Raises .pack s 0x0A .sequenceError 0
      ∧ Raises .qpack s 0x0B .sequenceError 0 ∧ (∀ hi ts, Raises (.fhdr hi ts) s 0x10 .sequenceError 0)
      ∧ Raises .fpay s 0x11 .sequenceError 0 ∧ Raises .fmeta s 0x12 .sequenceError 0
      ∧ Raises .fdone s 0x13 .sequenceError 0 ∧ (∀ hi ts, Raises (.mpkt hi ts) s 0x14 .sequenceError 0)

/-- 70_reset_and_hazards.md R230: a command a collaborator may issue completes and changes only what the table gives that
collaborator, ERR apart; the compressor acts in generation 1 only, the JPEG encoder in generation 2 only. -/
def Obligations.CollaboratorsTouchOnlyTheirPart : Prop :=
  ∀ (k : Collaborator) (i : Instr) (s : State), s.Inv → k.may s i = true →
    ∃ t, exec i s = .next t ∧ KeptOutside s t (collaboratorBytes s k)
      ∧ (∀ g : Reg, g ≠ .err → ¬ collaboratorRegs s k g → t.regs.read g = s.regs.read g)
      ∧ (k = .compressor → s.regs.gen.toNat = 1) ∧ (k = .jpegEncoder → s.regs.gen.toNat = 2)

/-! ## Registers and control commands -/

/-- 10_state.md R42, R44, R46, and the classes of R23: every row of the register map (index, class, bits of the fields),
scalar registers and register files; one register an index; which indexes are undefined. -/
def Obligations.RegisterMapHasOneRegisterAnIndex : Prop :=
  (∀ x ∈ scalarRows, x.Holds) ∧ (∀ g x, fileRow g = some x → x.Holds)
    ∧ (∀ g : Reg, (∃ x ∈ scalarRows, x.reg = g) ∨ ∃ x, fileRow g = some x)
    ∧ (∀ g : Reg, regOf g.index = some g)
    ∧ (∀ r g, regOf r = some g → r = g.index)
    ∧ (∀ r : Word, regOf r = none ↔ (0x016 ≤ r.toNat ∧ r.toNat < 0x100) ∨ 0x600 ≤ r.toNat)
    ∧ (∀ c : Fin 256, regOf (BitVec.ofNat 32 (0x100 + c.val)) = some (.bw c)
        ∧ regOf (BitVec.ofNat 32 (0x400 + c.val)) = some (.mval c)
        ∧ regOf (BitVec.ofNat 32 (0x500 + c.val)) = some (.ebw c))
    ∧ (∀ k : Fin 512, regOf (BitVec.ofNat 32 (0x200 + k.val)) = some (.mname k))

/-- 10_state.md R24 to R41 and R43: what every register reads as. The fields of MODE, STATUS, SER and ERR in their bits
with the numbers of FSTATE, F_SRC (R35) and ERR_CODE (60_exceptions.md R200), every other register its one field, every
reserved bit 0. -/
def Obligations.RegisterFieldsStandInTheirBits : Prop :=
  ∀ r : Regs,
    (r.read .mode).toNat = r.uniform.toNat + 2 ^ 4 * r.ubits.toNat
      ∧ (r.read .status).toNat = r.configured.toNat + 2 ^ 4 * r.fstate.code.toNat + 2 ^ 8 * r.fComp.toNat
          + 2 ^ 9 * r.mpktValid.toNat + 2 ^ 10 * r.fSrc.code.toNat
      ∧ (r.read .err).toNat = r.errCode.code.toNat + 2 ^ 8 * r.errOp.toNat + 2 ^ 16 * r.errInfo.toNat
          + 2 ^ 31 * r.errMore.toNat
      ∧ (r.read .ser).toNat = r.serAcc.toNat + 2 ^ 8 * r.serNb.toNat
      ∧ (FState.new.code.toNat = 0 ∧ FState.headerWritten.code.toNat = 1 ∧ FState.payloadWritten.code.toNat = 2
          ∧ FState.metadataWritten.code.toNat = 3 ∧ FState.complete.code.toNat = 4)
      ∧ (FSrc.raw.code.toNat = 0 ∧ FSrc.comp.code.toNat = 1 ∧ FSrc.ext.code.toNat = 2)
      ∧ (ErrCode.noError.code.toNat = 0 ∧ ErrCode.illegalCommand.code.toNat = 1 ∧ ErrCode.configError.code.toNat = 2
          ∧ ErrCode.sequenceError.code.toNat = 3 ∧ ErrCode.rangeError.code.toNat = 4
          ∧ ErrCode.valueError.code.toNat = 5)
      ∧ (r.read .frameW = r.frameW ∧ r.read .frameH = r.frameH ∧ (r.read .chanC).toNat = r.chanC.toNat
          ∧ (r.read .compEn).toNat = r.compEn.toNat ∧ (r.read .gen).toNat = r.gen.toNat
          ∧ (r.read .metaCount).toNat = r.metaCount.toNat ∧ r.read .nsamp = r.nsamp ∧ r.read .sumb = r.sumb
          ∧ r.read .plenRaw = r.plenRaw ∧ r.read .hdrLen = r.hdrLen ∧ r.read .serWp = r.serWp)
      ∧ (r.read .clen = r.clen ∧ (r.read .cvalid).toNat = r.cvalid.toNat ∧ r.read .fTs = r.fTs
          ∧ r.read .fPlen = r.fPlen ∧ r.read .pktLen = r.pktLen ∧ r.read .mTs = r.mTs ∧ r.read .mpktLen = r.mpktLen)
      ∧ (∀ c : Fin 256, (r.read (.bw c)).toNat = r.bwAt c.val ∧ r.read (.mval c) = r.mvalAt c.val
          ∧ (r.read (.ebw c)).toNat = r.ebwAt c.val)
      ∧ (∀ k : Fin 512, r.read (.mname k) = r.mname.getD k.val 0)
      ∧ ∀ g : Reg, r.read g &&& ~~~g.fieldMask = 0

/-- 40_control.md R101: WRREG raises the error of its first failing check, or writes the one register and nothing else
(RDREG then shows the value written). -/
def Obligations.WrregWritesOneRegister : Prop :=
  ∀ (s : State) (r v : Word),
    (regOf r = none → Raises (.wrreg r v) s 0x01 .rangeError 0)
      ∧ ∀ g, regOf r = some g →
        (g.cls = .ro → Raises (.wrreg r v) s 0x01 .rangeError 0)
          ∧ (g.cls = .cfg → s.regs.configured = true → Raises (.wrreg r v) s 0x01 .sequenceError 0)
          ∧ (g.cls ≠ .ro → (g.cls = .cfg → s.regs.configured = false) →
              (v &&& ~~~g.fieldMask ≠ 0 → Raises (.wrreg r v) s 0x01 .valueError 0)
                ∧ (v &&& ~~~g.fieldMask = 0 →
                    (g = .clen → s.params.cbCap < v.toNat → Raises (.wrreg r v) s 0x01 .valueError 0)
                      ∧ ((g = .clen → v.toNat ≤ s.params.cbCap) →
                          ∃ t, exec (.wrreg r v) s = .next t ∧ t.regs.read g = v
                            ∧ (∀ g', g' ≠ g → t.regs.read g' = s.regs.read g')
                            ∧ t.params = s.params ∧ t.port = s.port ∧ t.resp = some 0 ∧ MemoryKept s t)))

/-- 40_control.md R102: RDREG answers the register's value, an undefined index raises RANGE_ERROR, no state changes. -/
def Obligations.RdregAnswersTheRegister : Prop :=
  ∀ (s : State) (r : Word),
    (regOf r = none → Raises (.rdreg r) s 0x02 .rangeError 0)
      ∧ ∀ g, regOf r = some g →
        ∃ t, exec (.rdreg r) s = .next t ∧ Leaves s t s.regs (s.regs.read g) ∧ MemoryKept s t

/-- 40_control.md R103: WRMEM raises the error of its first failing check, or writes the one byte and nothing else. -/
def Obligations.WrmemWritesOneByte : Prop :=
  ∀ (s : State) (sp : Space) (a v : Word),
    (sp = .pa ∨ sp = .ma → Raises (.wrmem sp a v) s 0x03 .rangeError 0)
      ∧ (sp ≠ .pa → sp ≠ .ma →
          (capacity s.params sp ≤ a.toNat → Raises (.wrmem sp a v) s 0x03 .rangeError 0)
            ∧ (a.toNat < capacity s.params sp →
                (255 < v.toNat → Raises (.wrmem sp a v) s 0x03 .valueError 0)
                  ∧ (v.toNat ≤ 255 →
                      ∃ t, exec (.wrmem sp a v) s = .next t ∧ Leaves s t s.regs 0
                        ∧ (t.readByte sp a.toNat).toNat = v.toNat
                        ∧ KeptOutside s t (fun sp' a' => sp' = sp ∧ a' = a.toNat))))

/-- 40_control.md R104: RDMEM answers the byte, zero-extended; past the capacity RANGE_ERROR; no state changes. -/
def Obligations.RdmemAnswersTheByte : Prop :=
  ∀ (s : State) (sp : Space) (a : Word),
    (capacity s.params sp ≤ a.toNat → Raises (.rdmem sp a) s 0x04 .rangeError 0)
      ∧ (a.toNat < capacity s.params sp →
          ∃ t, exec (.rdmem sp a) s = .next t
            ∧ Leaves s t s.regs (BitVec.ofNat 32 (s.readByte sp a.toNat).toNat) ∧ MemoryKept s t)

/-- 20_memory.md R60, R63: the capacities of the six spaces. -/
def Obligations.CapacitiesOfTheSpaces : Prop :=
  ∀ p : Params,
    capacity p .ifb = p.maxSamples ∧ capacity p .qb = p.maxSamples ∧ capacity p .pb = p.maxSamples
      ∧ capacity p .cb = p.cbCap ∧ capacity p .ma = 3080
      ∧ (capacity p .pa = 3345 + p.maxSamples ∨ capacity p .pa = 16 + p.cbCap)
      ∧ 3345 + p.maxSamples ≤ capacity p .pa ∧ 16 + p.cbCap ≤ capacity p .pa
      ∧ (p.wf = true → ∀ sp, capacity p sp ≤ 2 ^ 32)

/-- 40_control.md R100, R108, R109: NOP changes nothing, CLRERR clears the error record, SRESET gives every register its
reset value and keeps every memory byte. -/
def Obligations.NopClrerrAndSresetEffects : Prop :=
  ∀ s : State,
    (∃ t, exec .nop s = .next t ∧ Leaves s t s.regs 0 ∧ MemoryKept s t)
      ∧ (∃ t, exec .clrerr s = .next t ∧ MemoryKept s t
          ∧ Leaves s t { s.regs with errCode := .noError, errOp := 0, errInfo := 0, errMore := false } 0)
      ∧ (∃ t, exec .sreset s = .next t ∧ MemoryKept s t ∧ Leaves s t Regs.reset 0 ∧ ∀ g, t.regs.read g = 0)

/-- 40_control.md R105: SETUP raises the error of the first check that fails, with its number in ERR_INFO. -/
def Obligations.SetupReportsTheFirstFailingCheck : Prop :=
  ∀ (s : State) (n : Nat), n ≤ 10 → SetupFails s n → (∀ m < n, ¬ SetupFails s m) →
    Raises .setup s 0x05 (if n = 0 then .sequenceError else .configError) (BitVec.ofNat 8 n)

/-- 40_control.md R106, R107: a SETUP whose every check passes writes the derived registers and the constant arena
fields, and nothing else. -/
def Obligations.SetupDerivesRegistersAndConstants : Prop :=
  ∀ s : State, s.params.wf = true → (∀ n ≤ 10, ¬ SetupFails s n) →
    ∃ t, exec .setup s = .next t
      ∧ t.params = s.params ∧ t.port = s.port ∧ t.resp = some 0
      ∧ (∀ c < 256, t.regs.ebwAt c =
          if c < s.regs.chanC.toNat then (if s.regs.uniform then s.regs.ubits.toNat else s.regs.bwAt c) else 0)
      ∧ t.regs.nsamp.toNat = s.regs.frameW.toNat * s.regs.frameH.toNat * s.regs.chanC.toNat
      ∧ t.regs.sumb.toNat = ((List.range s.regs.chanC.toNat).map t.regs.ebwAt).sum
      ∧ t.regs.plenRaw.toNat = (s.regs.frameW.toNat * s.regs.frameH.toNat * t.regs.sumb.toNat + 7) / 8
      ∧ t.regs.hdrLen.toNat =
          (if s.regs.gen.toNat = 0 then 17 + s.regs.chanC.toNat
           else if s.regs.gen.toNat = 1 then 18 + s.regs.chanC.toNat else 16)
      ∧ t.regs =
          { s.regs with
            ebw := t.regs.ebw, nsamp := t.regs.nsamp, sumb := t.regs.sumb, plenRaw := t.regs.plenRaw
            hdrLen := t.regs.hdrLen, fstate := .new, pktLen := 0, mpktValid := false, configured := true }
      ∧ (s.regs.gen.toNat ≠ 2 →
          t.readBytes .pa 4 (9 + s.regs.chanC.toNat) =
              le32 s.regs.frameW ++ le32 s.regs.frameH ++ [s.regs.chanC]
                ++ (List.range s.regs.chanC.toNat).map (fun c => BitVec.ofNat 8 (t.regs.ebwAt c))
            ∧ KeptOutside s t (fun sp a => sp = .pa ∧ 4 ≤ a ∧ a < 13 + s.regs.chanC.toNat))
      ∧ (s.regs.gen.toNat = 2 →
          t.readBytes .pa 4 8 = le32 s.regs.frameW ++ le32 s.regs.frameH
            ∧ t.readBytes .ma 4 4 = le32 (BitVec.ofNat 32 s.regs.metaCount.toNat)
            ∧ (∀ k < s.regs.metaCount.toNat, ∀ j < 8,
                (t.readByte .ma (8 + 12 * k + j)).toNat = nameByte s.regs k j)
            ∧ KeptOutside s t (fun sp a => (sp = .pa ∧ 4 ≤ a ∧ a < 12)
                ∨ (sp = .ma ∧ (4 ≤ a ∧ a < 8
                    ∨ ∃ k < s.regs.metaCount.toNat, 8 + 12 * k ≤ a ∧ a < 8 + 12 * k + 8))))

/-! ## Quantizer -/

/-- 41_quantizer.md R120, R121: Quant discards the 8 − b low bits, and its value fits b bits. -/
def Obligations.QuantTruncates : Prop :=
  ∀ (x : Byte) (b : Nat), 1 ≤ b → b ≤ 8 →
    (quant x b).toNat = x.toNat / 2 ^ (8 - b) ∧ (quant x b).toNat ≤ 2 ^ b - 1

/-- 41_quantizer.md R122: QSAMPLE raises the error of its first failing check, or answers the sample quantized with its
channel's width; no state changes. -/
def Obligations.QsampleAnswersOneSample : Prop :=
  ∀ (s : State) (c v : Word), s.Inv →
    (s.regs.configured = false → Raises (.qsample c v) s 0x08 .sequenceError 0)
      ∧ (s.regs.configured = true →
          (s.regs.chanC.toNat ≤ c.toNat → Raises (.qsample c v) s 0x08 .rangeError 0)
            ∧ (c.toNat < s.regs.chanC.toNat →
                (255 < v.toNat → Raises (.qsample c v) s 0x08 .valueError 0)
                  ∧ (v.toNat ≤ 255 →
                      ∃ t, exec (.qsample c v) s = .next t
                        ∧ Leaves s t s.regs (BitVec.ofNat 32 (v.toNat / 2 ^ (8 - s.regs.ebwAt c.toNat)))
                        ∧ MemoryKept s t)))

/-- 41_quantizer.md R123, R124: QUANT writes every sample of IFB[0 : NSAMP], quantized with the width of its channel,
to QB[0 : NSAMP], and nothing else. -/
def Obligations.QuantWritesTheQuantizedFrame : Prop :=
  ∀ s : State, s.Inv →
    (s.regs.configured = false → Raises .quant s 0x09 .sequenceError 0)
      ∧ (s.regs.configured = true →
          ∃ t, exec .quant s = .next t ∧ Leaves s t s.regs 0
            ∧ (∀ i < s.regs.nsamp.toNat, (t.readByte .qb i).toNat =
                (s.readByte .ifb i).toNat / 2 ^ (8 - s.regs.ebwAt (i % s.regs.chanC.toNat)))
            ∧ KeptOutside s t (fun sp a => sp = .qb ∧ a < s.regs.nsamp.toNat))

/-- 46_reference_functions.md R186, R182: the reconstruction error is exactly s mod 2^(8−b). -/
def Obligations.QuantErrorIsBounded : Prop :=
  ∀ (x : Byte) (b : Nat), 1 ≤ b → b ≤ 8 →
    dequant (quant x b).toNat b ≤ x.toNat
      ∧ x.toNat - dequant (quant x b).toNat b = x.toNat % 2 ^ (8 - b)
      ∧ x.toNat - dequant (quant x b).toNat b ≤ 2 ^ (8 - b) - 1

/-- 46_reference_functions.md R185: after QUANT every sample of QB fits its channel's width, so a PACK that follows
raises no error and has its effect. -/
def Obligations.QuantizedFrameIsInRange : Prop :=
  ∀ s t : State, s.Inv → s.regs.configured = true → exec .quant s = .next t →
    (∀ i < s.regs.nsamp.toNat, (t.readByte .qb i).toNat < 2 ^ s.regs.ebwAt (i % s.regs.chanC.toNat))
      ∧ ∃ u, exec .pack t = .next u
        ∧ Leaves t u { t.regs with serAcc := 0, serNb := 0, serWp := t.regs.plenRaw, cvalid := false } 0
        ∧ u.readBytes .pb 0 t.regs.plenRaw.toNat =
            pack t.regs.ebwAt t.regs.chanC.toNat (t.readBytes .qb 0 t.regs.nsamp.toNat)

/-! ## Packer -/

/-- 42_packer.md R131: SRST clears the cursor and CVALID; PB is unchanged. -/
def Obligations.SrstClearsTheSerializer : Prop :=
  ∀ s : State, ∃ t, exec .srst s = .next t
    ∧ Leaves s t { s.regs with serAcc := 0, serNb := 0, serWp := 0, cvalid := false } 0 ∧ MemoryKept s t

/-- 42_packer.md R132: SPUSH raises the error of its first failing check, or appends the n bits of v: behind the SER_NB
bits of SER_ACC, and where a byte completes, that byte goes to PB[SER_WP] and the k = SER_NB + n − 8 bits left over
start the next one. -/
def Obligations.SpushAppendsBits : Prop :=
  ∀ (s : State) (n : Nat) (v : Word), s.Inv →
    (n = 0 ∨ 8 < n → Raises (.spush n v) s 0x0D .valueError 0)
      ∧ (1 ≤ n → n ≤ 8 →
          (2 ^ n ≤ v.toNat → Raises (.spush n v) s 0x0D .valueError 0)
            ∧ (v.toNat < 2 ^ n →
                (8 ≤ s.regs.serNb.toNat + n → s.params.maxSamples ≤ s.regs.serWp.toNat →
                    Raises (.spush n v) s 0x0D .rangeError 0)
                  ∧ (s.regs.serNb.toNat + n < 8 →
                      ∃ t, exec (.spush n v) s = .next t ∧ MemoryKept s t
                        ∧ Leaves s t
                            { s.regs with
                              serAcc := BitVec.ofNat 8
                                (s.regs.serAcc.toNat + v.toNat * 2 ^ (8 - (s.regs.serNb.toNat + n)))
                              serNb := BitVec.ofNat 3 (s.regs.serNb.toNat + n) } 0)
                  ∧ (8 ≤ s.regs.serNb.toNat + n → s.regs.serWp.toNat < s.params.maxSamples →
                      ∃ t, exec (.spush n v) s = .next t
                        ∧ (t.readByte .pb s.regs.serWp.toNat).toNat =
                            s.regs.serAcc.toNat + v.toNat / 2 ^ (s.regs.serNb.toNat + n - 8)
                        ∧ KeptOutside s t (fun sp a => sp = .pb ∧ a = s.regs.serWp.toNat)
                        ∧ Leaves s t
                            { s.regs with
                              serAcc := BitVec.ofNat 8 (v.toNat % 2 ^ (s.regs.serNb.toNat + n - 8)
                                * 2 ^ (8 - (s.regs.serNb.toNat + n - 8)))
                              serNb := BitVec.ofNat 3 (s.regs.serNb.toNat + n - 8)
                              serWp := s.regs.serWp + 1 } 0)))

/-- 42_packer.md R133: SFLUSH writes a partial byte and closes the stream; with no partial byte it changes nothing; with
PB full it raises RANGE_ERROR. -/
def Obligations.SflushClosesTheStream : Prop :=
  ∀ s : State,
    (s.regs.serNb.toNat = 0 → ∃ t, exec .sflush s = .next t ∧ Leaves s t s.regs 0 ∧ MemoryKept s t)
      ∧ (0 < s.regs.serNb.toNat → s.params.maxSamples ≤ s.regs.serWp.toNat → Raises .sflush s 0x0E .rangeError 0)
      ∧ (0 < s.regs.serNb.toNat → s.regs.serWp.toNat < s.params.maxSamples →
          ∃ t, exec .sflush s = .next t
            ∧ Leaves s t { s.regs with serAcc := 0, serNb := 0, serWp := s.regs.serWp + 1 } 0
            ∧ t.readByte .pb s.regs.serWp.toNat = s.regs.serAcc
            ∧ KeptOutside s t (fun sp a => sp = .pb ∧ a = s.regs.serWp.toNat))

/-- 42_packer.md R135: PACK raises SEQUENCE_ERROR before SETUP and VALUE_ERROR on a sample that does not fit; otherwise
PB[0 : PLEN_RAW] is Pack of QB, the serializer stands closed behind it and CVALID is 0. -/
def Obligations.PackWritesTheBitstream : Prop :=
  ∀ s : State, s.Inv →
    (s.regs.configured = false → Raises .pack s 0x0A .sequenceError 0)
      ∧ (s.regs.configured = true →
          ((∃ i < s.regs.nsamp.toNat,
                2 ^ s.regs.ebwAt (i % s.regs.chanC.toNat) ≤ (s.readByte .qb i).toNat) →
              Raises .pack s 0x0A .valueError 0)
            ∧ ((∀ i < s.regs.nsamp.toNat,
                (s.readByte .qb i).toNat < 2 ^ s.regs.ebwAt (i % s.regs.chanC.toNat)) →
              ∃ t, exec .pack s = .next t
                ∧ Leaves s t { s.regs with serAcc := 0, serNb := 0, serWp := s.regs.plenRaw, cvalid := false } 0
                ∧ t.readBytes .pb 0 s.regs.plenRaw.toNat =
                    pack s.regs.ebwAt s.regs.chanC.toNat (s.readBytes .qb 0 s.regs.nsamp.toNat)
                ∧ KeptOutside s t (fun sp a => sp = .pb ∧ a < s.regs.plenRaw.toNat)))

/-- 42_packer.md R136: QPACK does the same from IFB, quantizing on the way; QB is neither read nor written. -/
def Obligations.QpackWritesTheBitstream : Prop :=
  ∀ s : State, s.Inv →
    (s.regs.configured = false → Raises .qpack s 0x0B .sequenceError 0)
      ∧ (s.regs.configured = true →
          ∃ t, exec .qpack s = .next t
            ∧ Leaves s t { s.regs with serAcc := 0, serNb := 0, serWp := s.regs.plenRaw, cvalid := false } 0
            ∧ t.readBytes .pb 0 s.regs.plenRaw.toNat =
                pack s.regs.ebwAt s.regs.chanC.toNat
                  (quantFrame s.regs.ebwAt s.regs.chanC.toNat (s.readBytes .ifb 0 s.regs.nsamp.toNat))
            ∧ KeptOutside s t (fun sp a => sp = .pb ∧ a < s.regs.plenRaw.toNat))

/-- 46_reference_functions.md R184 and 42_packer.md R136: QPACK leaves PB and the registers as QUANT; PACK does, and
Pack(QuantFrame(F, C), C) in PB; the two differ only in QB. -/
def Obligations.FusedPathEqualsTwoStages : Prop :=
  ∀ s : State, s.Inv → s.regs.configured = true →
    ∃ t u, perform [.quant, .pack] s = .next t ∧ exec .qpack s = .next u
      ∧ u.regs = t.regs ∧ u.resp = t.resp
      ∧ (∀ sp a, sp ≠ .qb → u.readByte sp a = t.readByte sp a)
      ∧ (∀ a, u.readByte .qb a = s.readByte .qb a)
      ∧ u.readBytes .pb 0 s.regs.plenRaw.toNat =
          pack s.regs.ebwAt s.regs.chanC.toNat
            (quantFrame s.regs.ebwAt s.regs.chanC.toNat (s.readBytes .ifb 0 s.regs.nsamp.toNat))

/-- 42_packer.md R134, the serializer law: SRST, one SPUSH a sample and SFLUSH raise no error and leave Pack(Q, C) in
PB[0 : PLEN_RAW], SER_WP = PLEN_RAW, SER_NB = 0, SER_ACC = 0. -/
def Obligations.SerializerBuildsThePackedFrame : Prop :=
  ∀ (s : State) (q : List Byte), s.Inv → s.regs.configured = true → q.length = s.regs.nsamp.toNat →
    (∀ i < q.length, (q.getD i 0).toNat < 2 ^ s.regs.ebwAt (i % s.regs.chanC.toNat)) →
      ∃ t, perform (serializerCommands s.regs.ebwAt s.regs.chanC.toNat q) s = .next t
        ∧ t.readBytes .pb 0 s.regs.plenRaw.toNat = pack s.regs.ebwAt s.regs.chanC.toNat q
        ∧ t.regs = { s.regs with serAcc := 0, serNb := 0, serWp := s.regs.plenRaw, cvalid := false }
        ∧ KeptOutside s t (fun sp a => sp = .pb ∧ a < s.regs.plenRaw.toNat)

/-- 42_packer.md R137: the length of a packed frame for every legal width vector, and the two degenerate cases. -/
def Obligations.PackedLengthIsExact : Prop :=
  ∀ (b : Nat → Nat) (h w c : Nat) (q : List Byte), (∀ k < c, 1 ≤ b k ∧ b k ≤ 8) → q.length = h * w * c →
    (pack b c q).length = (h * w * ((List.range c).map b).sum + 7) / 8
      ∧ ((∀ k < c, b k = 8) → (pack b c q).length = h * w * c)
      ∧ ((∀ k < c, b k = 1) → (pack b c q).length = (h * w * c + 7) / 8)

/-- 20_memory.md R68 and 42_packer.md R130, R138: bit t of the packed bytes, bit 7 − (t mod 8) of byte t div 8, is bit t
of the stream; the fewer than 8 slack bits behind it are zero. -/
def Obligations.PackedBitsAreTheStream : Prop :=
  ∀ bits : List Bool,
    (∀ t < bits.length, ((packBits bits).getD (t / 8) 0).getLsbD (7 - t % 8) = bits.getD t false)
      ∧ (∀ t, bits.length ≤ t → t < 8 * (packBits bits).length →
          ((packBits bits).getD (t / 8) 0).getLsbD (7 - t % 8) = false)
      ∧ bits.length ≤ 8 * (packBits bits).length ∧ 8 * (packBits bits).length < bits.length + 8

/-- 46_reference_functions.md R183: Unpack is the left inverse of Pack on every frame whose samples fit their widths, and
so on every quantized frame. -/
def Obligations.UnpackInvertsPack : Prop :=
  ∀ (b : Nat → Nat) (h w c : Nat), (∀ k < c, 1 ≤ b k ∧ b k ≤ 8) →
    (∀ q : List Byte, q.length = h * w * c → (∀ i < q.length, (q.getD i 0).toNat < 2 ^ b (i % c)) →
        unpack (pack b c q) b h w c = .samples (q.map BitVec.toNat))
      ∧ (∀ f : List Byte, f.length = h * w * c →
        unpack (pack b c (quantFrame b c f)) b h w c = .samples ((quantFrame b c f).map BitVec.toNat))

/-- 46_reference_functions.md R180, R181: Unpack fails exactly on a buffer shorter than the shape and widths imply, and
otherwise reads only the stream bits: slack bits and further bytes do not matter. The widths are those R181 applies Unpack
to. -/
def Obligations.UnpackReadsOnlyTheStream : Prop :=
  ∀ (b : Nat → Nat) (h w c : Nat) (bytes : List Byte), (∀ k < c, 1 ≤ b k ∧ b k ≤ 8) →
    (unpack bytes b h w c = .truncatedInput ↔
        bytes.length < (h * w * ((List.range c).map b).sum + 7) / 8)
      ∧ ∀ other : List Byte,
        (h * w * ((List.range c).map b).sum + 7) / 8 ≤ bytes.length →
        (h * w * ((List.range c).map b).sum + 7) / 8 ≤ other.length →
        (∀ t < h * w * ((List.range c).map b).sum,
          (bytes.getD (t / 8) 0).getLsbD (7 - t % 8) = (other.getD (t / 8) 0).getLsbD (7 - t % 8)) →
        unpack bytes b h w c = unpack other b h w c

/-! ## Framer -/

/-- 43_framer.md R157, R159, R160: FHDR begins a packet from any FSTATE with the payload the rules choose, and raises
SEQUENCE_ERROR exactly when there is none or the block is not configured. No configured block has GEN = 3 (40_control.md
R105 check 6), and the rules say nothing of it. -/
def Obligations.FhdrBeginsAPacket : Prop :=
  ∀ (s : State) (hi ts : Word),
    (s.regs.configured = false → Raises (.fhdr hi ts) s 0x10 .sequenceError 0)
      ∧ (s.regs.configured = true →
          (s.regs.gen.toNat ≠ 3 → (∀ src f p, ¬ Chooses s.regs src f p) → Raises (.fhdr hi ts) s 0x10 .sequenceError 0)
            ∧ ∀ src f p, Chooses s.regs src f p →
              ∃ t, exec (.fhdr hi ts) s = .next t
                ∧ Leaves s t
                    { s.regs with
                      fTs := ts, fSrc := src, fComp := f, fPlen := p, pktLen := 0, fstate := .headerWritten } 0
                ∧ t.readBytes .pa 0 4 = le32 ts
                ∧ (s.regs.gen.toNat = 0 →
                    t.readBytes .pa (13 + s.regs.chanC.toNat) 4 = le32 p
                      ∧ KeptOutside s t (fun sp a => sp = .pa ∧ (a < 4
                          ∨ 13 + s.regs.chanC.toNat ≤ a ∧ a < 17 + s.regs.chanC.toNat)))
                ∧ (s.regs.gen.toNat = 1 →
                    (t.readByte .pa (13 + s.regs.chanC.toNat)).toNat = f.toNat
                      ∧ t.readBytes .pa (14 + s.regs.chanC.toNat) 4 = le32 p
                      ∧ KeptOutside s t (fun sp a => sp = .pa ∧ (a < 4
                          ∨ 13 + s.regs.chanC.toNat ≤ a ∧ a < 18 + s.regs.chanC.toNat)))
                ∧ (s.regs.gen.toNat = 2 →
                    t.readBytes .pa 12 4 = le32 p
                      ∧ KeptOutside s t (fun sp a => sp = .pa ∧ (a < 4 ∨ 12 ≤ a ∧ a < 16))))

/-- 43_framer.md R161: FPAY copies the payload bytes as they stand, from PB or CB, behind the header. -/
def Obligations.FpayCopiesThePayload : Prop :=
  ∀ s : State, s.Inv →
    (s.regs.fstate ≠ .headerWritten → Raises .fpay s 0x11 .sequenceError 0)
      ∧ (s.regs.fstate = .headerWritten →
          ∃ t, exec .fpay s = .next t ∧ Leaves s t { s.regs with fstate := .payloadWritten } 0
            ∧ (∀ i < s.regs.fPlen.toNat, t.readByte .pa (s.regs.hdrLen.toNat + i) =
                if s.regs.fSrc = .raw then s.readByte .pb i else s.readByte .cb i)
            ∧ KeptOutside s t (fun sp a => sp = .pa ∧ s.regs.hdrLen.toNat ≤ a
                ∧ a < s.regs.hdrLen.toNat + s.regs.fPlen.toNat))

/-- 43_framer.md R162, R163, R153, R166: FMETA writes the 256 slots of the metadata table behind the payload in
generations 0 and 1, unused slots zero; in generation 2 it writes nothing. -/
def Obligations.FmetaWritesTheTable : Prop :=
  ∀ s : State, s.Inv →
    (s.regs.fstate ≠ .payloadWritten → Raises .fmeta s 0x12 .sequenceError 0)
      ∧ (s.regs.fstate = .payloadWritten →
          ∃ t, exec .fmeta s = .next t ∧ Leaves s t { s.regs with fstate := .metadataWritten } 0
            ∧ (s.regs.gen.toNat = 2 → MemoryKept s t)
            ∧ (s.regs.gen.toNat ≠ 2 →
                (∀ k < 256, t.readBytes .pa (s.regs.hdrLen.toNat + s.regs.fPlen.toNat + 12 * k) 12 =
                    if k < s.regs.metaCount.toNat then s.regs.nameBytes k ++ le32 (s.regs.mvalAt k)
                    else List.replicate 12 0)
                  ∧ KeptOutside s t (fun sp a => sp = .pa
                      ∧ s.regs.hdrLen.toNat + s.regs.fPlen.toNat ≤ a
                      ∧ a < s.regs.hdrLen.toNat + s.regs.fPlen.toNat + 3072)))

/-- 43_framer.md R168: FDONE completes the packet, with its exact length, and clears CVALID; no memory changes. A length
of 2^32, which PKT_LEN cannot hold, needs generation 2 and a payload of 2^32 − 16 bytes; the model leaves PKT_LEN free
there (log entry 11). -/
def Obligations.FdoneCompletesThePacket : Prop :=
  ∀ s : State, s.Inv →
    (s.regs.fstate ≠ .metadataWritten → Raises .fdone s 0x13 .sequenceError 0)
      ∧ (s.regs.fstate = .metadataWritten →
          ∃ t, exec .fdone s = .next t ∧ MemoryKept s t
            ∧ Leaves s t { s.regs with pktLen := t.regs.pktLen, fstate := .complete, cvalid := false } 0
            ∧ (s.regs.gen.toNat ≠ 2 ∨ s.regs.fPlen.toNat < 2 ^ 32 - 16 →
                t.regs.pktLen.toNat = s.regs.hdrLen.toNat + s.regs.fPlen.toNat
                  + (if s.regs.gen.toNat = 2 then 0 else 3072)))

/-- 43_framer.md R169: MPKT writes the timestamp and the values of the metadata packet, in generation 2 only. -/
def Obligations.MpktBuildsTheMetadataPacket : Prop :=
  ∀ (s : State) (hi ts : Word), s.Inv →
    (s.regs.configured = false → Raises (.mpkt hi ts) s 0x14 .sequenceError 0)
      ∧ (s.regs.gen.toNat ≠ 2 → Raises (.mpkt hi ts) s 0x14 .sequenceError 0)
      ∧ (s.regs.configured = true → s.regs.gen.toNat = 2 →
          ∃ t, exec (.mpkt hi ts) s = .next t
            ∧ Leaves s t
                { s.regs with
                  mTs := ts, mpktLen := BitVec.ofNat 32 (8 + 12 * s.regs.metaCount.toNat), mpktValid := true } 0
            ∧ t.readBytes .ma 0 4 = le32 ts
            ∧ (∀ k < s.regs.metaCount.toNat, t.readBytes .ma (8 + 12 * k + 8) 4 = le32 (s.regs.mvalAt k))
            ∧ KeptOutside s t (fun sp a => sp = .ma ∧ (a < 4
                ∨ ∃ k < s.regs.metaCount.toNat, 8 + 12 * k + 8 ≤ a ∧ a < 8 + 12 * k + 12)))

/-- 43_framer.md R152: the lengths of the packets. -/
def Obligations.PacketLengths : Prop :=
  ∀ (r : Regs) (t : Word) (f : Bool) (p : List Byte),
    (packet0 r t p).length = 17 + r.chanC.toNat + p.length + 3072
      ∧ (packet1 r t f p).length = 18 + r.chanC.toNat + p.length + 3072
      ∧ (videoPacket2 r t p).length = 16 + p.length
      ∧ (metaPacket2 r t).length = 8 + 12 * r.metaCount.toNat
      ∧ (metaTable r).length = 3072

/-- 43_framer.md R167: FHDR T, FPAY, FMETA, FDONE leave the whole packet of the generation in PA from address 0, around
the payload FHDR chose, whatever stood in the arena beyond the constant header; it is PA[0 : PKT_LEN] for every length
PKT_LEN can hold (log entry 11). -/
def Obligations.FrameBuildsTheWholePacket : Prop :=
  ∀ (s : State) (T : Nat) (src : FSrc) (f : Bool) (p : Word),
    s.Inv → s.ConstantHeader → s.regs.configured = true → Chooses s.regs src f p →
      ∃ t, perform (pseudoFrame T) s = .next t ∧ t.regs.fstate = .complete
        ∧ t.readBytes .pa 0 (s.regs.hdrLen.toNat + p.toNat + (if s.regs.gen.toNat = 2 then 0 else 3072))
            = wholePacket s.regs (BitVec.ofNat 32 (T % 2 ^ 32)) f (s.readBytes src.space 0 p.toNat)
        ∧ (s.regs.gen.toNat ≠ 2 ∨ p.toNat < 2 ^ 32 - 16 →
            t.packet = some (wholePacket s.regs (BitVec.ofNat 32 (T % 2 ^ 32)) f (s.readBytes src.space 0 p.toNat)))
        ∧ t.regs.cvalid = false ∧ t.regs.errCode = s.regs.errCode ∧ t.regs.errMore = s.regs.errMore

/-- 43_framer.md R170: in generation 2, MPKT leaves the whole metadata packet in MA[0 : MPKT_LEN]. -/
def Obligations.MpktLeavesTheWholeMetadataPacket : Prop :=
  ∀ (s : State) (hi ts : Word), s.Inv → s.ConstantHeader → s.regs.configured = true → s.regs.gen.toNat = 2 →
    ∃ t, exec (.mpkt hi ts) s = .next t ∧ t.metaPacket = some (metaPacket2 s.regs ts)

/-! ## What the host issues -/

/-- 30_encoding.md R89: WRNAME stores the text, null-padded, as the name of its slot, and leaves every other name and
every memory byte alone. -/
def Obligations.WrnameStoresThePaddedName : Prop :=
  ∀ (s : State) (slot : Nat) (text : List Byte), s.regs.configured = false → slot < 256 → text.length ≤ 8 →
    ∃ t, perform (pseudoWrname slot text) s = .next t
      ∧ t.regs.nameBytes slot = text ++ List.replicate (8 - text.length) 0
      ∧ (∀ k, k ≠ slot → t.regs.nameBytes k = s.regs.nameBytes k)
      ∧ t.regs = { s.regs with mname := t.regs.mname } ∧ MemoryKept s t

/-- 70_reset_and_hazards.md R223 part (2), 40_control.md R105: the host's check after a first SETUP, ERR_CODE = 0 and
CONFIGURED = 1, holds exactly where the configuration passes every check. -/
def Obligations.BootCheckTellsWhetherSetupSucceeded : Prop :=
  ∀ s : State, s.params.wf = true → s.regs.configured = false → s.regs.errCode = .noError →
    ∃ t, exec .setup s = .next t ∧ (bootAccepted t = true ↔ ∀ n ≤ 10, ¬ SetupFails s n)

/-- 30_encoding.md R89, 10_state.md R25, R30 (R223 part (1)): in an unconfigured block WRUNIFORM sets UNIFORM and UBITS,
WRWIDTHS clears both and sets one BW entry a channel; nothing else changes. -/
def Obligations.WidthCommandsSetTheWidths : Prop :=
  (∀ (s : State) (b : Nat), s.regs.configured = false → b < 16 →
      ∃ t, perform (pseudoWruniform b) s = .next t
        ∧ Leaves s t { s.regs with uniform := true, ubits := BitVec.ofNat 4 b } 0 ∧ MemoryKept s t)
    ∧ ∀ (s : State) (bs : List Word), s.regs.configured = false → bs.length ≤ 255 → (∀ v ∈ bs, v.toNat < 16) →
      ∃ t, perform (pseudoWrwidths bs) s = .next t
        ∧ Leaves s t { s.regs with uniform := false, ubits := 0, bw := t.regs.bw } 0 ∧ MemoryKept s t
        ∧ ∀ c < 256, t.regs.bwAt c = if c < bs.length then (bs.getD c 0).toNat else s.regs.bwAt c
end

