-- ==== Sys2Proof/Laws/State.lean ====
section
/-! SUPPORT. One lemma a field for each update of the state, so that no later proof unfolds a record update. -/

namespace Sys2Proof

/-! ## The parameters (R10) -/

/-- The parameters picked are legal. -/
theorem Params.ofDraws_wf (m c : Nat) : (Params.ofDraws m c).wf = true := by
  unfold Params.wf Params.ofDraws
  rw [Bool.and_eq_true, Bool.and_eq_true, Bool.and_eq_true, decide_eq_true_iff, decide_eq_true_iff, decide_eq_true_iff,
    decide_eq_true_iff]
  dsimp only
  omega

/-- Every legal choice of the parameters is picked by some draws. -/
theorem Params.ofDraws_surjective {p : Params} (h : p.wf = true) : ∃ m c, Params.ofDraws m c = p := by
  obtain ⟨m, c⟩ := p
  simp only [Params.wf, Bool.and_eq_true, decide_eq_true_eq] at h
  refine ⟨2 ^ 32 - 3345 - m, 2 ^ 32 - 16 - c, ?_⟩
  simp only [Params.ofDraws, Params.mk.injEq]
  omega

/-- The block of `State.reset` has legal parameters. -/
@[simp] theorem Config.params_wf : Config.params.wf = true := Params.ofDraws_wf ..

end Sys2Proof

namespace Sys2Proof.Machine

/-! ## respond -/

@[simp] theorem respond_params (s : State) (v : Word) : (s.respond v).params = s.params := rfl
@[simp] theorem respond_regs (s : State) (v : Word) : (s.respond v).regs = s.regs := rfl
@[simp] theorem respond_port (s : State) (v : Word) : (s.respond v).port = s.port := rfl
@[simp] theorem respond_resp (s : State) (v : Word) : (s.respond v).resp = some v := rfl
@[simp] theorem respond_mem (s : State) (v : Word) (sp : Space) : (s.respond v).mem sp = s.mem sp := by
  cases sp <;> rfl
@[simp] theorem respond_readByte (s : State) (v : Word) (sp : Space) (a : Nat) :
    (s.respond v).readByte sp a = s.readByte sp a := by simp [State.readByte]
@[simp] theorem respond_readBytes (s : State) (v : Word) (sp : Space) (a n : Nat) :
    (s.respond v).readBytes sp a n = s.readBytes sp a n := by simp [State.readBytes]

/-! ## updRegs -/

@[simp] theorem updRegs_params (s : State) (f : Regs → Regs) : (s.updRegs f).params = s.params := rfl
@[simp] theorem updRegs_regs (s : State) (f : Regs → Regs) : (s.updRegs f).regs = f s.regs := rfl
@[simp] theorem updRegs_port (s : State) (f : Regs → Regs) : (s.updRegs f).port = s.port := rfl
@[simp] theorem updRegs_resp (s : State) (f : Regs → Regs) : (s.updRegs f).resp = s.resp := rfl
@[simp] theorem updRegs_mem (s : State) (f : Regs → Regs) (sp : Space) : (s.updRegs f).mem sp = s.mem sp := by
  cases sp <;> rfl
@[simp] theorem updRegs_readByte (s : State) (f : Regs → Regs) (sp : Space) (a : Nat) :
    (s.updRegs f).readByte sp a = s.readByte sp a := by simp [State.readByte]
@[simp] theorem updRegs_readBytes (s : State) (f : Regs → Regs) (sp : Space) (a n : Nat) :
    (s.updRegs f).readBytes sp a n = s.readBytes sp a n := by simp [State.readBytes]

/-! ## setMem and writeBytes -/

@[simp] theorem setMem_params (s : State) (sp : Space) (m : Memory) : (s.setMem sp m).params = s.params := by
  cases sp <;> rfl
@[simp] theorem setMem_regs (s : State) (sp : Space) (m : Memory) : (s.setMem sp m).regs = s.regs := by
  cases sp <;> rfl
@[simp] theorem setMem_port (s : State) (sp : Space) (m : Memory) : (s.setMem sp m).port = s.port := by
  cases sp <;> rfl
@[simp] theorem setMem_resp (s : State) (sp : Space) (m : Memory) : (s.setMem sp m).resp = s.resp := by
  cases sp <;> rfl
theorem setMem_mem (s : State) (sp sp' : Space) (m : Memory) :
    (s.setMem sp m).mem sp' = if sp' = sp then m else s.mem sp' := by
  cases sp <;> cases sp' <;> rfl
@[simp] theorem setMem_mem_same (s : State) (sp : Space) (m : Memory) : (s.setMem sp m).mem sp = m := by
  simp [setMem_mem]
@[simp] theorem setMem_mem_other (s : State) {sp sp' : Space} (m : Memory) (h : sp' ≠ sp) :
    (s.setMem sp m).mem sp' = s.mem sp' := by
  simp [setMem_mem, h]

@[simp] theorem writeBytes_params (s : State) (sp : Space) (a : Nat) (bs : List Byte) :
    (s.writeBytes sp a bs).params = s.params := setMem_params ..
@[simp] theorem writeBytes_regs (s : State) (sp : Space) (a : Nat) (bs : List Byte) :
    (s.writeBytes sp a bs).regs = s.regs := setMem_regs ..
@[simp] theorem writeBytes_port (s : State) (sp : Space) (a : Nat) (bs : List Byte) :
    (s.writeBytes sp a bs).port = s.port := setMem_port ..
@[simp] theorem writeBytes_resp (s : State) (sp : Space) (a : Nat) (bs : List Byte) :
    (s.writeBytes sp a bs).resp = s.resp := setMem_resp ..
theorem writeBytes_mem (s : State) (sp sp' : Space) (a : Nat) (bs : List Byte) :
    (s.writeBytes sp a bs).mem sp' = if sp' = sp then (s.mem sp).put a bs else s.mem sp' := by
  simp [State.writeBytes, setMem_mem]
@[simp] theorem writeBytes_mem_same (s : State) (sp : Space) (a : Nat) (bs : List Byte) :
    (s.writeBytes sp a bs).mem sp = (s.mem sp).put a bs := by simp [writeBytes_mem]
@[simp] theorem writeBytes_mem_other (s : State) {sp sp' : Space} (a : Nat) (bs : List Byte) (h : sp' ≠ sp) :
    (s.writeBytes sp a bs).mem sp' = s.mem sp' := by simp [writeBytes_mem, h]

/-! ## raise -/

@[simp] theorem raise_params (s : State) (op : Byte) (e : ErrCode) (i : Byte) : (s.raise op e i).params = s.params := rfl
@[simp] theorem raise_regs (s : State) (op : Byte) (e : ErrCode) (i : Byte) :
    (s.raise op e i).regs = recordError op e i s.regs := rfl
@[simp] theorem raise_port (s : State) (op : Byte) (e : ErrCode) (i : Byte) : (s.raise op e i).port = s.port := rfl
@[simp] theorem raise_resp (s : State) (op : Byte) (e : ErrCode) (i : Byte) : (s.raise op e i).resp = some 0 := rfl
@[simp] theorem raise_mem (s : State) (op : Byte) (e : ErrCode) (i : Byte) (sp : Space) :
    (s.raise op e i).mem sp = s.mem sp := by simp [State.raise]
@[simp] theorem raise_readByte (s : State) (op : Byte) (e : ErrCode) (i : Byte) (sp : Space) (a : Nat) :
    (s.raise op e i).readByte sp a = s.readByte sp a := by simp [State.raise]

/-! ## the memory fields by their space -/

@[simp] theorem mem_ifb (s : State) : s.mem .ifb = s.ifb := rfl
@[simp] theorem mem_qb (s : State) : s.mem .qb = s.qb := rfl
@[simp] theorem mem_pb (s : State) : s.mem .pb = s.pb := rfl
@[simp] theorem mem_cb (s : State) : s.mem .cb = s.cb := rfl
@[simp] theorem mem_pa (s : State) : s.mem .pa = s.pa := rfl
@[simp] theorem mem_ma (s : State) : s.mem .ma = s.ma := rfl

/-- Two states are equal when their parameters, registers, six memories, port and response are. -/
theorem state_eq {s t : State} (hp : s.params = t.params) (hr : s.regs = t.regs) (hm : ∀ sp, s.mem sp = t.mem sp)
    (hq : s.port = t.port) (hs : s.resp = t.resp) : s = t := by
  obtain ⟨p, r, a, b, c, d, e, f, q, u⟩ := s
  obtain ⟨p', r', a', b', c', d', e', f', q', u'⟩ := t
  have h1 := hm .ifb
  have h2 := hm .qb
  have h3 := hm .pb
  have h4 := hm .cb
  have h5 := hm .pa
  have h6 := hm .ma
  simp only [mem_ifb, mem_qb, mem_pb, mem_cb, mem_pa, mem_ma] at h1 h2 h3 h4 h5 h6
  simp_all

end Sys2Proof.Machine
end

