-- ==== Sys2Proof/Laws/Memory.lean ====
section
/-! SUPPORT. The laws of memory: a write keeps the canonical form, a read after a write gives what was written, and a
write leaves every other address alone. -/

namespace Sys2Proof.Machine

/-! ## One memory -/

@[simp] theorem get_nil (a : Nat) : Memory.get [] a = none := rfl

theorem get_cons (k : Nat) (b : Byte) (m : Memory) (a : Nat) :
    Memory.get ((k, b) :: m) a = if k = a then some b else Memory.get m a := rfl

theorem get_append (m n : Memory) (a : Nat) :
    Memory.get (m ++ n) a = (Memory.get m a).or (Memory.get n a) := by
  induction m with
  | nil => simp
  | cons c m ih =>
    obtain ⟨k, b⟩ := c
    simp only [List.cons_append, get_cons]
    split <;> simp [ih]

/-- A filter on addresses hides exactly the addresses it drops. -/
theorem get_filter (p : Nat → Bool) (m : Memory) (a : Nat) :
    Memory.get (m.filter fun c => p c.1) a = if p a then Memory.get m a else none := by
  induction m with
  | nil => simp
  | cons c m ih =>
    obtain ⟨k, b⟩ := c
    by_cases hk : p k
    · simp only [List.filter_cons_of_pos (p := fun c : Host.Cell => p c.1) (a := (k, b)) hk, get_cons, ih]
      by_cases h : k = a
      · subst h; simp [hk]
      · simp [h]
    · rw [List.filter_cons_of_neg (p := fun c : Host.Cell => p c.1) (a := (k, b)) hk, ih, get_cons]
      by_cases h : k = a
      · subst h; simp [hk]
      · simp [h]

@[simp] theorem cells_nil (a : Nat) : cells a [] = [] := rfl
@[simp] theorem cells_cons (a : Nat) (b : Byte) (bs : List Byte) : cells a (b :: bs) = (a, b) :: cells (a + 1) bs := rfl

theorem get_cells (bs : List Byte) (a x : Nat) :
    Memory.get (cells a bs) x = if a ≤ x then bs[x - a]? else none := by
  induction bs generalizing a with
  | nil => simp
  | cons b bs ih =>
    rw [cells_cons, get_cons, ih]
    by_cases h : a = x
    · subst h; simp
    · by_cases h' : a + 1 ≤ x
      · have h2 : a ≤ x := by omega
        have h3 : x - a = (x - (a + 1)) + 1 := by omega
        simp [h, h', h2, h3]
      · have h2 : ¬ a ≤ x := by omega
        simp [h, h', h2]

/-- The byte at an address after `MemWrite`: the byte written inside the range, what was there outside it. -/
theorem get_put (m : Memory) (a : Nat) (bs : List Byte) (x : Nat) :
    (m.put a bs).get x = if a ≤ x ∧ x < a + bs.length then bs[x - a]? else m.get x := by
  unfold Memory.put
  rw [get_append, get_append, get_filter (fun k => decide (k < a)), get_filter (fun k => decide (a + bs.length ≤ k)),
    get_cells]
  by_cases h1 : x < a
  · have h2 : ¬ a ≤ x := by omega
    have h3 : ¬ a + bs.length ≤ x := by omega
    simp [h1, h2, h3]
  · have h2 : a ≤ x := by omega
    by_cases h3 : x < a + bs.length
    · have h4 : ¬ a + bs.length ≤ x := by omega
      simp [h1, h2, h3, h4]
    · have h4 : a + bs.length ≤ x := by omega
      have h5 : bs[x - a]? = none := List.getElem?_eq_none (by omega)
      simp [h1, h2, h3, h4, h5]

theorem cells_addr (bs : List Byte) (a : Nat) : ∀ c ∈ cells a bs, a ≤ c.1 ∧ c.1 < a + bs.length := by
  induction bs generalizing a with
  | nil => simp
  | cons b bs ih =>
    intro c hc
    rw [cells_cons, List.mem_cons] at hc
    rcases hc with rfl | hc
    · simp
    · have := ih (a + 1) c hc
      simp only [List.length_cons]
      omega

theorem cells_wf (bs : List Byte) (a : Nat) : (cells a bs).wf := by
  induction bs generalizing a with
  | nil => exact List.Pairwise.nil
  | cons b bs ih =>
    rw [cells_cons]
    refine List.Pairwise.cons (fun c hc => ?_) (ih (a + 1))
    have := cells_addr bs (a + 1) c hc
    show a < c.1
    omega

/-- Every listed address of a memory after a write was listed before or lies in the range written. -/
theorem put_addr (m : Memory) (a : Nat) (bs : List Byte) :
    ∀ c ∈ m.put a bs, c ∈ m ∨ (a ≤ c.1 ∧ c.1 < a + bs.length) := by
  intro c hc
  simp only [Memory.put, List.append_assoc, List.mem_append, List.mem_filter] at hc
  rcases hc with ⟨h, -⟩ | h | ⟨h, -⟩
  · exact .inl h
  · exact .inr (cells_addr bs a c h)
  · exact .inl h

/-- A write keeps the canonical form. -/
theorem put_wf {m : Memory} (h : m.wf) (a : Nat) (bs : List Byte) : (m.put a bs).wf := by
  unfold Memory.put
  refine List.pairwise_append.2 ⟨List.pairwise_append.2 ⟨h.filter _, cells_wf bs a, ?_⟩, h.filter _, ?_⟩
  · intro x hx y hy
    have h1 := (List.mem_filter.1 hx).2
    have h2 := cells_addr bs a y hy
    simp only [decide_eq_true_eq] at h1
    show x.1 < y.1
    omega
  · intro x hx y hy
    have h2 := (List.mem_filter.1 hy).2
    simp only [decide_eq_true_eq] at h2
    show x.1 < y.1
    rcases List.mem_append.1 hx with hx | hx
    · have h1 := (List.mem_filter.1 hx).2
      simp only [decide_eq_true_eq] at h1
      omega
    · have h1 := cells_addr bs a x hx
      omega

/-- A write inside the space keeps the memory well formed and inside its space. -/
theorem MemOk.put {p : Params} {sp : Space} {m : Memory} (h : MemOk p sp m) {a : Nat} {bs : List Byte}
    (hb : a + bs.length ≤ capacity p sp) : MemOk p sp (m.put a bs) where
  canonical := put_wf h.canonical a bs
  inside c hc := by
    rcases put_addr m a bs c hc with hm | hr
    · exact h.inside c hm
    · omega

/-! ## The memories of the state -/

/-- Reading one byte after `MemWrite`. -/
theorem readByte_writeBytes (s : State) (sp sp' : Space) (a x : Nat) (bs : List Byte) :
    (s.writeBytes sp a bs).readByte sp' x =
      if sp' = sp ∧ a ≤ x ∧ x < a + bs.length then bs.getD (x - a) 0 else s.readByte sp' x := by
  unfold State.readByte
  rw [writeBytes_mem]
  by_cases h : sp' = sp
  · subst h
    rw [if_pos rfl, get_put]
    by_cases hr : a ≤ x ∧ x < a + bs.length
    · have hl : x - a < bs.length := by omega
      rw [if_pos hr, if_pos ⟨rfl, hr⟩]
      simp [hl]
    · rw [if_neg hr, if_neg (fun h => hr h.2)]
  · rw [if_neg h, if_neg (fun h' => h h'.1)]

/-- A write to another space changes no byte of this one. -/
theorem readByte_writeBytes_other (s : State) {sp sp' : Space} (a x : Nat) (bs : List Byte) (h : sp' ≠ sp) :
    (s.writeBytes sp a bs).readByte sp' x = s.readByte sp' x := by
  rw [readByte_writeBytes, if_neg (fun h' => h h'.1)]

/-- A write changes no byte outside its range. -/
theorem readByte_writeBytes_outside (s : State) (sp sp' : Space) (a x : Nat) (bs : List Byte)
    (h : x < a ∨ a + bs.length ≤ x) : (s.writeBytes sp a bs).readByte sp' x = s.readByte sp' x := by
  rw [readByte_writeBytes, if_neg (by omega)]

/-- A byte of the range written. -/
theorem readByte_writeBytes_inside (s : State) (sp : Space) (a i : Nat) (bs : List Byte) (h : i < bs.length) :
    (s.writeBytes sp a bs).readByte sp (a + i) = bs[i] := by
  rw [readByte_writeBytes, if_pos ⟨rfl, by omega, by omega⟩]
  simp [h]

@[simp] theorem length_readBytes (s : State) (sp : Space) (a n : Nat) : (s.readBytes sp a n).length = n := by
  simp [State.readBytes]

@[simp] theorem getElem_readBytes (s : State) (sp : Space) (a n i : Nat) (h : i < (s.readBytes sp a n).length) :
    (s.readBytes sp a n)[i] = s.readByte sp (a + i) := by
  simp [State.readBytes]

/-- Two ranges of one length hold the same bytes when they agree byte by byte. -/
theorem readBytes_congr {s t : State} {sp sp' : Space} {a b n : Nat}
    (h : ∀ i < n, s.readByte sp (a + i) = t.readByte sp' (b + i)) : s.readBytes sp a n = t.readBytes sp' b n := by
  apply List.ext_getElem <;> simp +contextual [h]

/-- A range holds a given sequence when it does so byte by byte. -/
theorem readBytes_eq {s : State} {sp : Space} {a : Nat} {bs : List Byte}
    (h : ∀ (i : Nat) (hi : i < bs.length), s.readByte sp (a + i) = bs[i]) : s.readBytes sp a bs.length = bs := by
  apply List.ext_getElem <;> simp +contextual [h]

/-- `MemRead` of the range just written gives what was written. -/
theorem readBytes_writeBytes_same (s : State) (sp : Space) (a : Nat) (bs : List Byte) :
    (s.writeBytes sp a bs).readBytes sp a bs.length = bs :=
  readBytes_eq fun i hi => readByte_writeBytes_inside s sp a i bs hi

/-- `MemRead` of a range disjoint from the one written, or in another space, is unchanged. -/
theorem readBytes_writeBytes_disjoint (s : State) (sp sp' : Space) (a b n : Nat) (bs : List Byte)
    (h : sp' ≠ sp ∨ b + n ≤ a ∨ a + bs.length ≤ b) :
    (s.writeBytes sp a bs).readBytes sp' b n = s.readBytes sp' b n := by
  apply readBytes_congr
  intro i hi
  rcases h with h | h
  · exact readByte_writeBytes_other s a (b + i) bs h
  · exact readByte_writeBytes_outside s sp sp' a (b + i) bs (by omega)

/-- `MemRead` splits at any point. -/
theorem readBytes_append (s : State) (sp : Space) (a m n : Nat) :
    s.readBytes sp a (m + n) = s.readBytes sp a m ++ s.readBytes sp (a + m) n := by
  apply List.ext_getElem
  · simp
  · intro i h1 h2
    rw [List.getElem_append]
    simp only [getElem_readBytes, length_readBytes]
    split
    · rfl
    · congr 1; omega

end Sys2Proof.Machine
end

