-- ==== Sys2Proof/Laws/Ops.lean ====
section
/-! SUPPORT. What the shared operations can do: the order of checks, the range guard, the error record. -/

namespace Sys2Proof.Machine

/-! ## Checks in order (R208) -/

@[simp] theorem firstFailing_nil : firstFailing [] = none := rfl

@[simp] theorem firstFailing_cons (c : Check) (cs : List Check) :
    firstFailing (c :: cs) = if c.fails = true then some c else firstFailing cs := rfl

@[simp] theorem plain_fails (b : Bool) (e : ErrCode) : (Check.plain b e).fails = b := rfl
@[simp] theorem plain_code (b : Bool) (e : ErrCode) : (Check.plain b e).code = e := rfl
@[simp] theorem plain_info (b : Bool) (e : ErrCode) : (Check.plain b e).info = 0 := rfl
@[simp] theorem configCheck_fails (n : Byte) (b : Bool) : (configCheck n b).fails = b := rfl
@[simp] theorem configCheck_code (n : Byte) (b : Bool) : (configCheck n b).code = .configError := rfl
@[simp] theorem configCheck_info (n : Byte) (b : Bool) : (configCheck n b).info = n := rfl

/-- The failing check found is one of the list, and it fails. -/
theorem firstFailing_some {cs : List Check} {c : Check} (h : firstFailing cs = some c) : c ∈ cs ∧ c.fails = true := by
  induction cs with
  | nil => simp at h
  | cons d cs ih =>
    rw [firstFailing_cons] at h
    split at h
    · obtain rfl := Option.some.inj h
      exact ⟨List.mem_cons_self .., ‹_›⟩
    · exact ⟨List.mem_cons_of_mem _ (ih h).1, (ih h).2⟩

/-- No check fails. -/
theorem firstFailing_none {cs : List Check} : firstFailing cs = none ↔ ∀ c ∈ cs, c.fails = false := by
  induction cs with
  | nil => simp
  | cons d cs ih =>
    rw [firstFailing_cons]
    split
    · simp_all
    · simp_all

theorem checked_pass {op : Byte} {cs : List Check} {s : State} {e : Result} (h : firstFailing cs = none) :
    checked op cs s e = e := by simp [checked, h]

theorem checked_fail {op : Byte} {cs : List Check} {s : State} {e : Result} {c : Check}
    (h : firstFailing cs = some c) : checked op cs s e = .next (s.raise op c.code c.info) := by simp [checked, h]

@[simp] theorem checked_nil (op : Byte) (s : State) (e : Result) : checked op [] s e = e := rfl

/-- One check at a time (R208). -/
theorem checked_cons (op : Byte) (c : Check) (cs : List Check) (s : State) (e : Result) :
    checked op (c :: cs) s e = if c.fails = true then .next (s.raise op c.code c.info) else checked op cs s e := by
  unfold checked
  rw [firstFailing_cons]
  cases c.fails <;> rfl

theorem checked_cons_fail {op : Byte} {c : Check} (cs : List Check) {s : State} (e : Result) (h : c.fails = true) :
    checked op (c :: cs) s e = .next (s.raise op c.code c.info) := by rw [checked_cons, if_pos h]

theorem checked_cons_pass {op : Byte} {c : Check} (cs : List Check) {s : State} (e : Result) (h : c.fails = false) :
    checked op (c :: cs) s e = checked op cs s e := by rw [checked_cons, if_neg (by simp [h])]

/-- A checked command that answers a next state raised the error of its first failing check, or passed them all and its
effect answered that state. -/
theorem checked_next {op : Byte} {cs : List Check} {s t : State} {e : Result} (h : checked op cs s e = .next t) :
    (∃ c, firstFailing cs = some c ∧ t = s.raise op c.code c.info) ∨ (firstFailing cs = none ∧ e = .next t) := by
  unfold checked at h
  split at h
  · rename_i c hc
    exact .inl ⟨c, hc, (Host.Outcome.next.inj h).symm⟩
  · exact .inr ⟨‹_›, h⟩

/-! ## The range guard -/

theorem within_ok {s : State} {sp : Space} {n : Nat} {e : Result} (h : n ≤ capacity s.params sp) :
    within s sp n e = e := if_pos h

theorem within_next {s t : State} {sp : Space} {n : Nat} {e : Result} (h : within s sp n e = .next t) :
    n ≤ capacity s.params sp ∧ e = .next t := by
  unfold within at h
  split at h
  · exact ⟨‹_›, h⟩
  · cases h

/-! ## The error record (R207) -/

theorem recordError_first {r : Regs} (h : r.errCode = .noError) (op : Byte) (e : ErrCode) (i : Byte) :
    recordError op e i r = { r with errCode := e, errOp := op, errInfo := i } := if_pos h

theorem recordError_further {r : Regs} (h : r.errCode ≠ .noError) (op : Byte) (e : ErrCode) (i : Byte) :
    recordError op e i r = { r with errMore := true } := if_neg h

/-! Raising an error changes no register but ERR (R201). -/

@[simp] theorem recordError_frameW (op : Byte) (e : ErrCode) (i : Byte) (r : Regs) : (recordError op e i r).frameW = r.frameW := by
  unfold recordError; split <;> rfl
@[simp] theorem recordError_frameH (op : Byte) (e : ErrCode) (i : Byte) (r : Regs) : (recordError op e i r).frameH = r.frameH := by
  unfold recordError; split <;> rfl
@[simp] theorem recordError_chanC (op : Byte) (e : ErrCode) (i : Byte) (r : Regs) : (recordError op e i r).chanC = r.chanC := by
  unfold recordError; split <;> rfl
@[simp] theorem recordError_uniform (op : Byte) (e : ErrCode) (i : Byte) (r : Regs) : (recordError op e i r).uniform = r.uniform := by
  unfold recordError; split <;> rfl
@[simp] theorem recordError_ubits (op : Byte) (e : ErrCode) (i : Byte) (r : Regs) : (recordError op e i r).ubits = r.ubits := by
  unfold recordError; split <;> rfl
@[simp] theorem recordError_compEn (op : Byte) (e : ErrCode) (i : Byte) (r : Regs) : (recordError op e i r).compEn = r.compEn := by
  unfold recordError; split <;> rfl
@[simp] theorem recordError_gen (op : Byte) (e : ErrCode) (i : Byte) (r : Regs) : (recordError op e i r).gen = r.gen := by
  unfold recordError; split <;> rfl
@[simp] theorem recordError_metaCount (op : Byte) (e : ErrCode) (i : Byte) (r : Regs) : (recordError op e i r).metaCount = r.metaCount := by
  unfold recordError; split <;> rfl
@[simp] theorem recordError_bw (op : Byte) (e : ErrCode) (i : Byte) (r : Regs) : (recordError op e i r).bw = r.bw := by
  unfold recordError; split <;> rfl
@[simp] theorem recordError_mname (op : Byte) (e : ErrCode) (i : Byte) (r : Regs) : (recordError op e i r).mname = r.mname := by
  unfold recordError; split <;> rfl
@[simp] theorem recordError_configured (op : Byte) (e : ErrCode) (i : Byte) (r : Regs) : (recordError op e i r).configured = r.configured := by
  unfold recordError; split <;> rfl
@[simp] theorem recordError_fstate (op : Byte) (e : ErrCode) (i : Byte) (r : Regs) : (recordError op e i r).fstate = r.fstate := by
  unfold recordError; split <;> rfl
@[simp] theorem recordError_fComp (op : Byte) (e : ErrCode) (i : Byte) (r : Regs) : (recordError op e i r).fComp = r.fComp := by
  unfold recordError; split <;> rfl
@[simp] theorem recordError_mpktValid (op : Byte) (e : ErrCode) (i : Byte) (r : Regs) : (recordError op e i r).mpktValid = r.mpktValid := by
  unfold recordError; split <;> rfl
@[simp] theorem recordError_fSrc (op : Byte) (e : ErrCode) (i : Byte) (r : Regs) : (recordError op e i r).fSrc = r.fSrc := by
  unfold recordError; split <;> rfl
@[simp] theorem recordError_nsamp (op : Byte) (e : ErrCode) (i : Byte) (r : Regs) : (recordError op e i r).nsamp = r.nsamp := by
  unfold recordError; split <;> rfl
@[simp] theorem recordError_sumb (op : Byte) (e : ErrCode) (i : Byte) (r : Regs) : (recordError op e i r).sumb = r.sumb := by
  unfold recordError; split <;> rfl
@[simp] theorem recordError_plenRaw (op : Byte) (e : ErrCode) (i : Byte) (r : Regs) : (recordError op e i r).plenRaw = r.plenRaw := by
  unfold recordError; split <;> rfl
@[simp] theorem recordError_hdrLen (op : Byte) (e : ErrCode) (i : Byte) (r : Regs) : (recordError op e i r).hdrLen = r.hdrLen := by
  unfold recordError; split <;> rfl
@[simp] theorem recordError_ebw (op : Byte) (e : ErrCode) (i : Byte) (r : Regs) : (recordError op e i r).ebw = r.ebw := by
  unfold recordError; split <;> rfl
@[simp] theorem recordError_serAcc (op : Byte) (e : ErrCode) (i : Byte) (r : Regs) : (recordError op e i r).serAcc = r.serAcc := by
  unfold recordError; split <;> rfl
@[simp] theorem recordError_serNb (op : Byte) (e : ErrCode) (i : Byte) (r : Regs) : (recordError op e i r).serNb = r.serNb := by
  unfold recordError; split <;> rfl
@[simp] theorem recordError_serWp (op : Byte) (e : ErrCode) (i : Byte) (r : Regs) : (recordError op e i r).serWp = r.serWp := by
  unfold recordError; split <;> rfl
@[simp] theorem recordError_clen (op : Byte) (e : ErrCode) (i : Byte) (r : Regs) : (recordError op e i r).clen = r.clen := by
  unfold recordError; split <;> rfl
@[simp] theorem recordError_cvalid (op : Byte) (e : ErrCode) (i : Byte) (r : Regs) : (recordError op e i r).cvalid = r.cvalid := by
  unfold recordError; split <;> rfl
@[simp] theorem recordError_mval (op : Byte) (e : ErrCode) (i : Byte) (r : Regs) : (recordError op e i r).mval = r.mval := by
  unfold recordError; split <;> rfl
@[simp] theorem recordError_fTs (op : Byte) (e : ErrCode) (i : Byte) (r : Regs) : (recordError op e i r).fTs = r.fTs := by
  unfold recordError; split <;> rfl
@[simp] theorem recordError_fPlen (op : Byte) (e : ErrCode) (i : Byte) (r : Regs) : (recordError op e i r).fPlen = r.fPlen := by
  unfold recordError; split <;> rfl
@[simp] theorem recordError_pktLen (op : Byte) (e : ErrCode) (i : Byte) (r : Regs) : (recordError op e i r).pktLen = r.pktLen := by
  unfold recordError; split <;> rfl
@[simp] theorem recordError_mTs (op : Byte) (e : ErrCode) (i : Byte) (r : Regs) : (recordError op e i r).mTs = r.mTs := by
  unfold recordError; split <;> rfl
@[simp] theorem recordError_mpktLen (op : Byte) (e : ErrCode) (i : Byte) (r : Regs) : (recordError op e i r).mpktLen = r.mpktLen := by
  unfold recordError; split <;> rfl

/-- Every register but ERR reads as before. -/
theorem recordError_read (op : Byte) (e : ErrCode) (i : Byte) (r : Regs) {g : Reg} (h : g ≠ .err) :
    (recordError op e i r).read g = r.read g := by
  cases g <;> simp_all [Regs.read, Regs.statusWord]

/-! ## Capacities -/

theorem paCap_header (p : Params) : 3345 ≤ capacity p .pa := by
  show 3345 ≤ max (3345 + p.maxSamples) (16 + p.cbCap)
  omega

@[simp] theorem capacity_ifb (p : Params) : capacity p .ifb = p.maxSamples := rfl
@[simp] theorem capacity_qb (p : Params) : capacity p .qb = p.maxSamples := rfl
@[simp] theorem capacity_pb (p : Params) : capacity p .pb = p.maxSamples := rfl
@[simp] theorem capacity_cb (p : Params) : capacity p .cb = p.cbCap := rfl
@[simp] theorem capacity_ma (p : Params) : capacity p .ma = 3080 := rfl

theorem capacity_pa (p : Params) : capacity p .pa = max (3345 + p.maxSamples) (16 + p.cbCap) := rfl

end Sys2Proof.Machine
end

