-- ==== Sys2Proof/Laws/Operands.lean ====
section
/-! SUPPORT. The register map: a register's index names it, its value reads back what was written, and a write leaves
every other register alone. -/

namespace Sys2Proof.Machine

/-! ## Bit vectors as numbers -/

/-- Concatenation on numbers. -/
theorem append_toNat {m n : Nat} (x : BitVec m) (y : BitVec n) : (x ++ y).toNat = x.toNat * 2 ^ n + y.toNat := by
  rw [BitVec.toNat_append, ← Nat.shiftLeft_add_eq_or_of_lt y.isLt, Nat.shiftLeft_eq]

@[simp] theorem flagBit_toNat (b : Bool) : (flagBit b).toNat = b.toNat := by cases b <;> rfl

/-- A word below 2^n has no bit outside a mask that holds the n low bits. -/
theorem and_not_mask_eq_zero {x m : Word} (n : Nat) (h : x.toNat < 2 ^ n) (hm : ∀ i < n, m.getLsbD i = true) :
    x &&& ~~~m = 0 := by
  apply BitVec.eq_of_getLsbD_eq
  intro i hi
  simp only [BitVec.getLsbD_and, BitVec.getLsbD_not]
  by_cases hn : i < n
  · simp [hm i hn]
  · have : x.getLsbD i = false := by
      rw [BitVec.getLsbD, Nat.testBit_lt_two_pow]
      exact lt_of_lt_of_le h (Nat.pow_le_pow_right (by decide) (by omega))
    simp [this]

/-- A word with no bit outside the n low bits is below 2^n. -/
theorem lt_of_and_not_mask {v m : Word} (n : Nat) (hm : m.toNat = 2 ^ n - 1) (h : v &&& ~~~m = 0) :
    v.toNat < 2 ^ n := by
  have h1 : v &&& m = v := by
    apply BitVec.eq_of_getLsbD_eq
    intro i hi
    have h2 : (v &&& ~~~m).getLsbD i = false := by rw [h]; simp
    simp only [BitVec.getLsbD_and, BitVec.getLsbD_not] at h2 ⊢
    cases hv : v.getLsbD i <;> simp_all
  have h2 : v.toNat = v.toNat % 2 ^ n := by
    conv_lhs => rw [← h1]
    rw [BitVec.toNat_and, hm, Nat.and_two_pow_sub_one_eq_mod]
  rw [h2]
  exact Nat.mod_lt _ (by positivity)

/-- A length that fits its register (R12). -/
theorem lengthWord_eq {n : Nat} (h : n < 2 ^ 32) : lengthWord n = BitVec.ofNat 32 n := if_pos h

theorem lengthWord_toNat {n : Nat} (h : n < 2 ^ 32) : (lengthWord n).toNat = n := by
  rw [lengthWord_eq h, BitVec.toNat_ofNat, Nat.mod_eq_of_lt h]

/-! ## The map -/

/-- The index of a register as a number (R42). -/
theorem index_toNat (g : Reg) : g.index.toNat =
    match g with
    | .bw c => 0x100 + c.val
    | .mname k => 0x200 + k.val
    | .mval c => 0x400 + c.val
    | .ebw c => 0x500 + c.val
    | .frameW => 0
    | .frameH => 1
    | .chanC => 2
    | .mode => 3
    | .compEn => 4
    | .gen => 5
    | .metaCount => 6
    | .status => 7
    | .err => 8
    | .nsamp => 9
    | .sumb => 10
    | .plenRaw => 11
    | .hdrLen => 12
    | .ser => 13
    | .serWp => 14
    | .clen => 15
    | .cvalid => 16
    | .fTs => 17
    | .fPlen => 18
    | .pktLen => 19
    | .mTs => 20
    | .mpktLen => 21 := by
  cases g with
  | bw c => have := c.isLt; simp only [Reg.index, BitVec.toNat_ofNat]; omega
  | mname c => have := c.isLt; simp only [Reg.index, BitVec.toNat_ofNat]; omega
  | mval c => have := c.isLt; simp only [Reg.index, BitVec.toNat_ofNat]; omega
  | ebw c => have := c.isLt; simp only [Reg.index, BitVec.toNat_ofNat]; omega
  | _ => rfl

/-! ## Reading what was written -/

/-- A flag is the lowest bit of what was written to it. -/
theorem getLsbD_zero_toNat (v : Word) (h : v.toNat < 2) : (v.getLsbD 0).toNat = v.toNat := by
  have h1 : v.getLsbD 0 = decide (v.toNat % 2 = 1) := by simp [BitVec.getLsbD, Nat.testBit_zero]
  have h2 : v.toNat = 0 ∨ v.toNat = 1 := by omega
  rcases h2 with h2 | h2 <;> rw [h1, h2] <;> rfl

/-- MODE keeps every bit it has a field for. -/
theorem mode_read_write (v : Word) (h : v &&& ~~~Reg.mode.fieldMask = 0) :
    0#24 ++ v.extractLsb' 4 4 ++ 0#3 ++ flagBit (v.getLsbD 0) = v := by
  have hbit : ∀ i < 32, Reg.mode.fieldMask.getLsbD i = false → v.getLsbD i = false := by
    intro i hi hm
    have h2 : (v &&& ~~~Reg.mode.fieldMask).getLsbD i = false := by rw [h]; simp
    simp only [BitVec.getLsbD_and, BitVec.getLsbD_not, hm, hi, decide_true, Bool.not_false, Bool.and_true] at h2
    exact h2
  have hf : ∀ j, (flagBit (v.getLsbD 0)).getLsbD j = (decide (j = 0) && v.getLsbD 0) := by
    intro j
    cases v.getLsbD 0 <;> cases j <;> simp [flagBit]
  apply BitVec.eq_of_getLsbD_eq
  intro i hi
  simp only [BitVec.getLsbD_append, hf]
  by_cases h0 : i = 0
  · subst h0; simp
  · by_cases h4 : i < 4
    · rw [hbit i hi (by interval_cases i <;> first | rfl | omega)]
      simp [show ¬ i < 1 by omega, show i - 1 < 3 by omega]
    · by_cases h8 : i < 8
      · simp [show ¬ i < 1 by omega, show ¬ i - 1 < 3 by omega, show i - 1 - 3 < 4 by omega,
          show 4 + (i - 1 - 3) = i by omega]
      · rw [hbit i hi (by
          have : ∀ k < 32, 8 ≤ k → Reg.mode.fieldMask.getLsbD k = false := by decide
          exact this i hi (by omega))]
        simp [show ¬ i < 1 by omega, show ¬ i - 1 < 3 by omega, show ¬ i - 1 - 3 < 4 by omega]

/-- A writable register reads back a value whose reserved bits are 0 (R101, R102). -/
theorem read_write_same (r : Regs) (g : Reg) (v : Word) (hro : g.cls ≠ .ro) (hm : v &&& ~~~g.fieldMask = 0) :
    (r.write g v).read g = v := by
  cases g with
  | mode => exact mode_read_write v hm
  | chanC =>
    have := lt_of_and_not_mask (m := 0xFF) 8 rfl hm
    apply BitVec.eq_of_toNat_eq
    simp [Regs.read, Regs.write]
    omega
  | compEn =>
    have h1 := lt_of_and_not_mask (m := 1) 1 rfl hm
    have h2 := getLsbD_zero_toNat v (by omega)
    apply BitVec.eq_of_toNat_eq
    simp only [Regs.read, Regs.write, BitVec.toNat_setWidth, flagBit_toNat]
    omega
  | cvalid =>
    have h1 := lt_of_and_not_mask (m := 1) 1 rfl hm
    have h2 := getLsbD_zero_toNat v (by omega)
    apply BitVec.eq_of_toNat_eq
    simp only [Regs.read, Regs.write, BitVec.toNat_setWidth, flagBit_toNat]
    omega
  | gen =>
    have := lt_of_and_not_mask (m := 3) 2 rfl hm
    apply BitVec.eq_of_toNat_eq
    simp [Regs.read, Regs.write]
    omega
  | metaCount =>
    have := lt_of_and_not_mask (m := 0x1FF) 9 rfl hm
    apply BitVec.eq_of_toNat_eq
    simp [Regs.read, Regs.write]
    omega
  | bw c =>
    have := lt_of_and_not_mask (m := 0xF) 4 rfl hm
    apply BitVec.eq_of_toNat_eq
    simp [Regs.read, Regs.write]
    omega
  | mname k => simp [Regs.read, Regs.write]
  | mval k => simp [Regs.read, Regs.write]
  | frameW => rfl
  | frameH => rfl
  | clen => rfl
  | _ => simp [Reg.cls] at hro

/-- Writing a register changes no other (R101). -/
theorem read_write_other (r : Regs) {g g' : Reg} (v : Word) (h : g' ≠ g) : (r.write g v).read g' = r.read g' := by
  cases g with
  | bw c =>
    cases g' with
    | bw c' =>
      have : c.val ≠ c'.val := fun hh => h (by rw [Fin.ext hh])
      simp only [Regs.read, Regs.write, Fin.getElem_fin]
      rw [Vector.getElem_set_ne _ _ this]
    | _ => rfl
  | mname c =>
    cases g' with
    | mname c' =>
      have : c.val ≠ c'.val := fun hh => h (by rw [Fin.ext hh])
      simp only [Regs.read, Regs.write, Fin.getElem_fin]
      rw [Vector.getElem_set_ne _ _ this]
    | _ => rfl
  | mval c =>
    cases g' with
    | mval c' =>
      have : c.val ≠ c'.val := fun hh => h (by rw [Fin.ext hh])
      simp only [Regs.read, Regs.write, Fin.getElem_fin]
      rw [Vector.getElem_set_ne _ _ this]
    | _ => rfl
  | _ => cases g' <;> first | rfl | exact absurd rfl h

end Sys2Proof.Machine
end

