-- ==== Sys2Proof/Laws/Arena.lean ====
section
/-! SUPPORT. The writes of the two arenas: what the constant fields of SETUP (40_control.md R107), the header of FHDR
(43_framer.md R157) and the values of MPKT (R169) leave in PA and MA, and that they change nothing else. -/

namespace Sys2Proof.Machine

/-! ## Little-endian words -/

@[simp] theorem le32_length (v : Word) : (le32 v).length = 4 := rfl
@[simp] theorem le32Nat_length (n : Nat) : (le32Nat n).length = 4 := rfl
@[simp] theorem nameBytes_length (r : Regs) (k : Nat) : (r.nameBytes k).length = 8 := rfl
@[simp] theorem hdr_length (r : Regs) : (hdr r).length = 9 + r.channels := by simp [hdr]; omega
@[simp] theorem entry_length (r : Regs) (k : Nat) : (entry r k).length = 12 := by simp [entry]

/-- One 12-byte entry a slot. -/
theorem flatMap_length_12 {f : Nat → List Byte} (h : ∀ k, (f k).length = 12) (n : Nat) :
    ((List.range n).flatMap f).length = 12 * n := by
  induction n with
  | zero => rfl
  | succ n ih =>
    rw [List.range_succ, List.flatMap_append, List.length_append, ih]
    simp only [List.flatMap_cons, List.flatMap_nil, List.append_nil, h]
    omega

@[simp] theorem slot_length (r : Regs) (k : Nat) : (slot r k).length = 12 := by
  unfold slot
  split <;> simp

/-- The legacy metadata table is 3072 bytes (R153). -/
@[simp] theorem metaTable_length (r : Regs) : (metaTable r).length = 3072 := flatMap_length_12 (slot_length r) 256

/-- A byte of one entry among 12-byte entries. -/
theorem flatMap_getD_12 {f : Nat → List Byte} (h : ∀ k, (f k).length = 12) (n : Nat) {k j : Nat} (hk : k < n)
    (hj : j < 12) : ((List.range n).flatMap f).getD (12 * k + j) 0 = (f k).getD j 0 := by
  induction n with
  | zero => omega
  | succ n ih =>
    have hl := flatMap_length_12 h n
    simp only [List.getD_eq_getElem?_getD] at ih ⊢
    rw [List.range_succ, List.flatMap_append]
    by_cases hkn : k = n
    · subst hkn
      rw [List.getElem?_append_right (by omega), hl]
      simp
    · rw [List.getElem?_append_left (by omega)]
      exact ih (by omega)

/-- Byte j of a little-endian word, as a number (00_scope.md R13). -/
theorem le32_getD (v : Word) {j : Nat} (h : j < 4) : ((le32 v).getD j 0).toNat = v.toNat / 2 ^ (8 * j) % 256 := by
  interval_cases j <;> simp [le32, Nat.shiftRight_eq_div_pow]

/-! ## Writes of one size, one in each 12-byte slot -/

section Slots

variable (sp : Space) (base : Nat) (bytes : Nat → List Byte)

/-- The writes of the slots 0 .. n − 1. -/
def writeSlots (n : Nat) (s : State) : State :=
  (List.range n).foldl (fun t k => t.writeBytes sp (base + 12 * k) (bytes k)) s

theorem writeSlots_zero (s : State) : writeSlots sp base bytes 0 s = s := rfl

theorem writeSlots_succ (n : Nat) (s : State) :
    writeSlots sp base bytes (n + 1) s
      = (writeSlots sp base bytes n s).writeBytes sp (base + 12 * n) (bytes n) := by
  simp [writeSlots, List.range_succ]

@[simp] theorem writeSlots_regs (n : Nat) (s : State) : (writeSlots sp base bytes n s).regs = s.regs := by
  induction n with
  | zero => rfl
  | succ n ih => rw [writeSlots_succ, writeBytes_regs, ih]

@[simp] theorem writeSlots_params (n : Nat) (s : State) : (writeSlots sp base bytes n s).params = s.params := by
  induction n with
  | zero => rfl
  | succ n ih => rw [writeSlots_succ, writeBytes_params, ih]

@[simp] theorem writeSlots_port (n : Nat) (s : State) : (writeSlots sp base bytes n s).port = s.port := by
  induction n with
  | zero => rfl
  | succ n ih => rw [writeSlots_succ, writeBytes_port, ih]

/-- A byte that lies in no slot's range is unchanged. -/
theorem readByte_writeSlots_outside (n : Nat) (s : State) (sp' : Space) (x : Nat)
    (h : sp' = sp → ∀ k < n, x < base + 12 * k ∨ base + 12 * k + (bytes k).length ≤ x) :
    (writeSlots sp base bytes n s).readByte sp' x = s.readByte sp' x := by
  induction n with
  | zero => rfl
  | succ n ih =>
    have h' : (writeSlots sp base bytes n s).readByte sp' x = s.readByte sp' x :=
      ih fun hs k hk => h hs k (by omega)
    rw [writeSlots_succ, readByte_writeBytes, if_neg, h']
    rintro ⟨rfl, h1, h2⟩
    have := h rfl n (by omega)
    omega

/-- A byte of a slot's range is the one written there. -/
theorem readByte_writeSlots_inside (hb : ∀ k, (bytes k).length ≤ 12) (n : Nat) (s : State) {k j : Nat} (hk : k < n)
    (hj : j < (bytes k).length) :
    (writeSlots sp base bytes n s).readByte sp (base + 12 * k + j) = (bytes k).getD j 0 := by
  induction n with
  | zero => omega
  | succ n ih =>
    rw [writeSlots_succ, readByte_writeBytes]
    have hn := hb n
    have hkk := hb k
    by_cases h : k = n
    · subst h
      rw [if_pos ⟨rfl, by omega, by omega⟩]
      congr 1
      omega
    · rw [if_neg (by omega)]
      exact ih (by omega)

/-- The slots stay inside the space. -/
theorem writeSlots_memOk {p : Params} (hb : ∀ k, (bytes k).length ≤ 12) (n : Nat) (s : State)
    (hs : MemOk p sp (s.mem sp)) (hn : base + 12 * n ≤ capacity p sp) :
    MemOk p sp ((writeSlots sp base bytes n s).mem sp) := by
  induction n with
  | zero => exact hs
  | succ n ih =>
    rw [writeSlots_succ, writeBytes_mem_same]
    have := hb n
    exact (ih (by omega)).put (by omega)

theorem writeSlots_mem_other (n : Nat) (s : State) {sp' : Space} (h : sp' ≠ sp) :
    (writeSlots sp base bytes n s).mem sp' = s.mem sp' := by
  induction n with
  | zero => rfl
  | succ n ih => rw [writeSlots_succ, writeBytes_mem_other _ _ _ h, ih]

end Slots

theorem writeNames_eq (s : State) : writeNames s = writeSlots .ma 8 s.regs.nameBytes s.regs.readings s := rfl

theorem writeValues_eq (s : State) :
    writeValues s = writeSlots .ma 16 (fun k => le32 (s.regs.mvalAt k)) s.regs.readings s := by
  unfold writeValues writeSlots
  congr 1
  funext t k
  congr 1
  omega

/-! ## What each write of the arenas leaves -/

@[simp] theorem writeConstants_regs (s : State) : (writeConstants s).regs = s.regs := by
  unfold writeConstants
  split
  · simp
  · split <;> simp [writeNames_eq]

@[simp] theorem writeConstants_params (s : State) : (writeConstants s).params = s.params := by
  unfold writeConstants
  split
  · simp
  · split <;> simp [writeNames_eq]

@[simp] theorem writeConstants_port (s : State) : (writeConstants s).port = s.port := by
  unfold writeConstants
  split
  · simp
  · split <;> simp [writeNames_eq]

/-- SETUP writes no memory but the arenas (R107). -/
theorem writeConstants_mem_other (s : State) {sp : Space} (h1 : sp ≠ .pa) (h2 : sp ≠ .ma) :
    (writeConstants s).mem sp = s.mem sp := by
  unfold writeConstants
  split
  · simp [h1]
  · split
    · rw [writeNames_eq, writeSlots_mem_other _ _ _ _ _ h2]
      simp [h1, h2]
    · rfl

@[simp] theorem writeHeader_regs (t : Word) (f : Bool) (p : Word) (s : State) :
    (writeHeader t f p s).regs = s.regs := by
  unfold writeHeader
  dsimp only
  repeat' split
  all_goals simp

@[simp] theorem writeHeader_params (t : Word) (f : Bool) (p : Word) (s : State) :
    (writeHeader t f p s).params = s.params := by
  unfold writeHeader
  dsimp only
  repeat' split
  all_goals simp

@[simp] theorem writeHeader_port (t : Word) (f : Bool) (p : Word) (s : State) :
    (writeHeader t f p s).port = s.port := by
  unfold writeHeader
  dsimp only
  repeat' split
  all_goals simp

/-- FHDR writes no memory but PA (R157). -/
theorem writeHeader_mem_other (t : Word) (f : Bool) (p : Word) (s : State) {sp : Space} (h : sp ≠ .pa) :
    (writeHeader t f p s).mem sp = s.mem sp := by
  unfold writeHeader
  dsimp only
  repeat' split
  all_goals simp [h]

@[simp] theorem writeValues_regs (s : State) : (writeValues s).regs = s.regs := by simp [writeValues_eq]
@[simp] theorem writeValues_params (s : State) : (writeValues s).params = s.params := by simp [writeValues_eq]
@[simp] theorem writeValues_port (s : State) : (writeValues s).port = s.port := by simp [writeValues_eq]

/-- MPKT writes no memory but MA (R169). -/
theorem writeValues_mem_other (s : State) {sp : Space} (h : sp ≠ .ma) : (writeValues s).mem sp = s.mem sp := by
  rw [writeValues_eq, writeSlots_mem_other _ _ _ _ _ h]

/-- Equal memories read alike. -/
theorem readByte_of_mem {s t : State} {sp : Space} (h : t.mem sp = s.mem sp) (a : Nat) :
    t.readByte sp a = s.readByte sp a := by
  unfold State.readByte
  rw [h]

end Sys2Proof.Machine
end

