-- ==== Sys2Proof/Laws/Codec.lean ====
section
/-! SUPPORT. The codec's pure functions: Quant on numbers, the bits of a packed stream, the length of a frame's stream,
and the sample Unpack reads from it. -/

namespace Sys2Proof.Machine

/-! ## Quant -/

theorem legalWidth_iff {b : Nat} : legalWidth b = true ↔ 1 ≤ b ∧ b ≤ 8 := by simp [legalWidth]

/-- Quant on numbers (41_quantizer.md R120). -/
theorem quant_toNat {b : Nat} (h1 : 1 ≤ b) (h2 : b ≤ 8) (x : Byte) : (quant x b).toNat = x.toNat / 2 ^ (8 - b) := by
  rw [quant, if_pos (legalWidth_iff.2 ⟨h1, h2⟩), BitVec.toNat_ushiftRight, Nat.shiftRight_eq_div_pow]

/-- A quantized sample fits its width (R121). -/
theorem quant_lt {b : Nat} (h1 : 1 ≤ b) (h2 : b ≤ 8) (x : Byte) : (quant x b).toNat < 2 ^ b := by
  rw [quant_toNat h1 h2, Nat.div_lt_iff_lt_mul (by positivity), ← pow_add, show b + (8 - b) = 8 by omega]
  exact x.isLt

@[simp] theorem quantFrame_length (w : Nat → Nat) (c : Nat) (f : List Byte) : (quantFrame w c f).length = f.length := by
  simp [quantFrame]

theorem quantFrame_getElem (w : Nat → Nat) (c : Nat) (f : List Byte) (i : Nat) (h : i < (quantFrame w c f).length) :
    (quantFrame w c f)[i] = quant (f[i]'(by simpa using h)) (w (i % c)) := by
  simp [quantFrame]

/-! ## Bits, most significant first -/

@[simp] theorem msbBits_length (n v : Nat) : (msbBits n v).length = n := by simp [msbBits]

@[simp] theorem msbBits_zero (v : Nat) : msbBits 0 v = [] := rfl

theorem msbBits_succ (n v : Nat) : msbBits (n + 1) v = v.testBit n :: msbBits n v := by
  simp only [msbBits, List.range_succ_eq_map, List.map_cons, List.map_map, Nat.add_sub_cancel, Nat.sub_zero]
  congr 1
  apply List.map_congr_left
  intro j _
  simp only [Function.comp]
  congr 1
  omega

/-- The high bits of a value, then the low ones. -/
theorem msbBits_add (m n v : Nat) : msbBits (m + n) v = msbBits m (v / 2 ^ n) ++ msbBits n v := by
  induction m with
  | zero => simp
  | succ m ih =>
    rw [show m + 1 + n = m + n + 1 by omega, msbBits_succ, msbBits_succ, ih]
    simp [Nat.testBit_div_two_pow, Nat.add_comm]

/-- One more bit of a value modulo a power of two. -/
theorem mod_two_pow_succ (v n : Nat) : v % 2 ^ (n + 1) = v % 2 ^ n + if v.testBit n then 2 ^ n else 0 := by
  rw [pow_succ, Nat.mod_mul]
  congr 1
  have h : v.testBit n = decide (v / 2 ^ n % 2 = 1) := by
    rw [Nat.testBit_eq_decide_div_mod_eq]
  rcases Nat.mod_two_eq_zero_or_one (v / 2 ^ n) with h0 | h0 <;> simp [h, h0]

/-- Reading n bits back gives the value modulo 2^n. -/
theorem sum_bits (n v : Nat) :
    ((List.range n).map fun j => if v.testBit (n - 1 - j) then 2 ^ (n - 1 - j) else 0).sum = v % 2 ^ n := by
  induction n with
  | zero => simp [Nat.mod_one]
  | succ n ih =>
    rw [mod_two_pow_succ, ← ih, List.range_succ_eq_map]
    simp only [List.map_cons, List.map_map, List.sum_cons, Nat.add_sub_cancel, Nat.sub_zero]
    have h : (List.range n).map ((fun j => if v.testBit (n - j) then 2 ^ (n - j) else 0) ∘ Nat.succ)
        = (List.range n).map fun j => if v.testBit (n - 1 - j) then 2 ^ (n - 1 - j) else 0 := by
      apply List.map_congr_left
      intro j _
      simp only [Function.comp, Nat.succ_eq_add_one, show n - (j + 1) = n - 1 - j by omega]
    rw [h, Nat.add_comm]

/-! ## Packing bits into bytes -/

@[simp] theorem packBits_length (bits : List Bool) : (packBits bits).length = ceilDiv8 bits.length := by
  simp [packBits]

theorem packBits_getD (bits : List Bool) {k : Nat} (h : k < ceilDiv8 bits.length) :
    (packBits bits).getD k 0 = streamByte bits k := by
  simp [packBits, h]

/-- A byte made of eight bits has them in its bit positions 7 down to 0 (20_memory.md R68). -/
theorem byte_of_bits : ∀ b0 b1 b2 b3 b4 b5 b6 b7 : Bool, ∀ j < 8,
    (BitVec.ofNat 8 ((if b0 then 2 ^ (7 - 0) else 0) + ((if b1 then 2 ^ (7 - 1) else 0) + ((if b2 then 2 ^ (7 - 2) else 0)
      + ((if b3 then 2 ^ (7 - 3) else 0) + ((if b4 then 2 ^ (7 - 4) else 0) + ((if b5 then 2 ^ (7 - 5) else 0)
      + ((if b6 then 2 ^ (7 - 6) else 0) + ((if b7 then 2 ^ (7 - 7) else 0) + 0))))))))).getLsbD (7 - j)
      = [b0, b1, b2, b3, b4, b5, b6, b7].getD j false := by
  decide +kernel

theorem streamByte_getLsbD (bits : List Bool) (k : Nat) {j : Nat} (h : j < 8) :
    (streamByte bits k).getLsbD (7 - j) = bits.getD (8 * k + j) false := by
  have := byte_of_bits (bits.getD (8 * k + 0) false) (bits.getD (8 * k + 1) false) (bits.getD (8 * k + 2) false)
    (bits.getD (8 * k + 3) false) (bits.getD (8 * k + 4) false) (bits.getD (8 * k + 5) false)
    (bits.getD (8 * k + 6) false) (bits.getD (8 * k + 7) false) j h
  unfold streamByte
  rw [show List.range 8 = [0, 1, 2, 3, 4, 5, 6, 7] from rfl]
  simp only [List.map_cons, List.map_nil, List.sum_cons, List.sum_nil]
  rw [this]
  interval_cases j <;> rfl

/-- Bit t of the packed bytes is bit t of the stream, zero past its end (42_packer.md R130, R138). -/
theorem packBits_bit (bits : List Bool) {t : Nat} (h : t < 8 * ceilDiv8 bits.length) :
    ((packBits bits).getD (t / 8) 0).getLsbD (7 - t % 8) = bits.getD t false := by
  rw [packBits_getD _ (by omega), streamByte_getLsbD _ _ (by omega), Nat.div_add_mod]

/-! ## The bits of a frame -/

/-- The stream of the samples k, k + 1, ... -/
def frameBitsFrom (w : Nat → Nat) (c k : Nat) (q : List Byte) : List Bool :=
  (q.mapIdx fun i x => msbBits (w ((k + i) % c)) x.toNat).flatten

theorem frameBits_eq (w : Nat → Nat) (c : Nat) (q : List Byte) : frameBits w c q = frameBitsFrom w c 0 q := by
  simp [frameBits, frameBitsFrom]

@[simp] theorem frameBitsFrom_nil (w : Nat → Nat) (c k : Nat) : frameBitsFrom w c k [] = [] := rfl

theorem frameBitsFrom_cons (w : Nat → Nat) (c k : Nat) (x : Byte) (q : List Byte) :
    frameBitsFrom w c k (x :: q) = msbBits (w (k % c)) x.toNat ++ frameBitsFrom w c (k + 1) q := by
  simp only [frameBitsFrom, List.mapIdx_cons, List.flatten_cons, Nat.add_zero]
  congr 2
  simp only [Nat.add_assoc, Nat.add_comm 1]

theorem frameBitsFrom_length (w : Nat → Nat) (c k : Nat) (q : List Byte) :
    (frameBitsFrom w c k q).length = ((List.range q.length).map fun i => w ((k + i) % c)).sum := by
  induction q generalizing k with
  | nil => rfl
  | cons x q ih =>
    rw [frameBitsFrom_cons, List.length_append, ih, msbBits_length, List.length_cons, List.range_succ_eq_map]
    simp only [List.map_cons, List.map_map, List.sum_cons, Nat.add_zero]
    congr 3
    funext i
    simp only [Function.comp, Nat.succ_eq_add_one]
    congr 2
    omega

/-- A sum over m rounds of c channels. -/
theorem sum_periodic (f : Nat → Nat) (m c : Nat) :
    ((List.range (m * c)).map fun i => f (i % c)).sum = m * ((List.range c).map f).sum := by
  induction m with
  | zero => simp
  | succ m ih =>
    rw [Nat.succ_mul, List.range_add, List.map_append, List.sum_append, ih, Nat.succ_mul, List.map_map]
    congr 2
    apply List.map_congr_left
    intro i hi
    simp only [Function.comp, Nat.mul_add_mod_self_right, Nat.mod_eq_of_lt (List.mem_range.1 hi)]

/-- The stream of a frame of m pixels has m times the width sum bits (R130). -/
theorem frameBits_length (w : Nat → Nat) (c m : Nat) (q : List Byte) (h : q.length = m * c) :
    (frameBits w c q).length = m * widthSum w c := by
  rw [frameBits_eq, frameBitsFrom_length, h, widthSum, ← sum_periodic]
  simp

theorem pack_length (w : Nat → Nat) (c m : Nat) (q : List Byte) (h : q.length = m * c) :
    (pack w c q).length = ceilDiv8 (m * widthSum w c) := by
  rw [pack, packBits_length, frameBits_length w c m q h]

/-! ## Reading a frame back -/

/-- The sample at a position where the stream holds the n bits of v. -/
theorem streamSample_eq {bytes : List Byte} {bits : List Bool} {pos n v : Nat} (hv : v < 2 ^ n)
    (hb : ∀ j < n, streamBit bytes (pos + j) = bits.getD (pos + j) false)
    (hm : ∀ j < n, bits.getD (pos + j) false = v.testBit (n - 1 - j)) : streamSample bytes pos n = v := by
  refine Eq.trans ?_ ((sum_bits n v).trans (Nat.mod_eq_of_lt hv))
  unfold streamSample
  congr 1
  apply List.map_congr_left
  intro j hj
  rw [hb j (List.mem_range.1 hj), hm j (List.mem_range.1 hj)]

/-- Bit j of n bits of a value inside a longer stream. -/
theorem getD_msbBits (pre post : List Bool) {n v j : Nat} (h : j < n) :
    (pre ++ (msbBits n v ++ post)).getD (pre.length + j) false = v.testBit (n - 1 - j) := by
  simp only [List.getD_eq_getElem?_getD]
  rw [List.getElem?_append_right (by omega), List.getElem?_append_left (by simp; omega)]
  simp [msbBits, h]

/-- Unpack's loop reads the samples back from the stream they were packed into (46_reference_functions.md R183). -/
theorem unpackFrom_eq {w : Nat → Nat} {c : Nat} {bytes : List Byte} {bits : List Bool} (q : List Byte) (k : Nat)
    (pre : List Bool) (hbits : bits = pre ++ frameBitsFrom w c k q)
    (hread : ∀ t < bits.length, streamBit bytes t = bits.getD t false)
    (hq : ∀ i (h : i < q.length), q[i].toNat < 2 ^ w ((k + i) % c)) :
    unpackFrom w c bytes k pre.length q.length = q.map BitVec.toNat := by
  induction q generalizing k pre with
  | nil => rfl
  | cons x q ih =>
    rw [frameBitsFrom_cons] at hbits
    rw [List.length_cons, unpackFrom, List.map_cons]
    have hx : x.toNat < 2 ^ w (k % c) := hq 0 (by simp)
    have hlen : bits.length = pre.length + (w (k % c) + (frameBitsFrom w c (k + 1) q).length) := by
      rw [hbits]; simp
    congr 1
    · refine streamSample_eq (bits := bits) hx (fun j hj => hread _ (by omega)) fun j hj => ?_
      rw [hbits]
      exact getD_msbBits _ _ hj
    · have h2 := ih (k + 1) (pre ++ msbBits (w (k % c)) x.toNat) (by rw [hbits, List.append_assoc])
        (fun i hi => by
          have := hq (i + 1) (by simpa using hi)
          simpa [Nat.add_assoc, Nat.add_comm 1 i] using this)
      rw [List.length_append, msbBits_length] at h2
      exact h2

/-- Unpack's loop depends on the stream bits only (R180). -/
theorem unpackFrom_congr {w : Nat → Nat} {c : Nat} {bytes other : List Byte} (n k pos : Nat)
    (h : ∀ t, pos ≤ t → t < pos + ((List.range n).map fun i => w ((k + i) % c)).sum →
      streamBit bytes t = streamBit other t) :
    unpackFrom w c bytes k pos n = unpackFrom w c other k pos n := by
  induction n generalizing k pos with
  | zero => rfl
  | succ n ih =>
    have hs : ((List.range (n + 1)).map fun i => w ((k + i) % c)).sum
        = w (k % c) + ((List.range n).map fun i => w ((k + 1 + i) % c)).sum := by
      rw [List.range_succ_eq_map]
      simp only [List.map_cons, List.map_map, List.sum_cons, Nat.add_zero]
      congr 3
      funext i
      simp only [Function.comp, Nat.succ_eq_add_one]
      congr 2
      omega
    rw [hs] at h
    rw [unpackFrom, unpackFrom]
    congr 1
    · unfold streamSample
      congr 1
      apply List.map_congr_left
      intro j hj
      have := List.mem_range.1 hj
      rw [h (pos + j) (by omega) (by omega)]
    · exact ih (k + 1) _ fun t h1 h2 => h t (by omega) (by omega)

end Sys2Proof.Machine
end

