-- ==== Sys2Proof/Laws/Decode.lean ====
section
/-! SUPPORT. The fields of CMD as numbers: OP = CMD mod 256, SEL = CMD div 256 mod 16, and the word made from them. -/

namespace Sys2Proof

@[simp] theorem cmdOp_toNat (w : Word) : (cmdOp w).toNat = w.toNat % 256 := by
  simp [cmdOp]

@[simp] theorem cmdSel_toNat (w : Word) : (cmdSel w).toNat = w.toNat / 256 % 16 := by
  simp [cmdSel, Nat.shiftRight_eq_div_pow]

@[simp] theorem cmdReserved_toNat (w : Word) : (cmdReserved w).toNat = w.toNat / 4096 := by
  simp only [cmdReserved, BitVec.extractLsb'_toNat, Nat.shiftRight_eq_div_pow]
  have := w.isLt
  omega

theorem cmdReserved_eq_zero (w : Word) : cmdReserved w = 0 ↔ w.toNat / 4096 = 0 := by
  rw [← cmdReserved_toNat]
  exact ⟨fun h => by simp [h], fun h => BitVec.eq_of_toNat_eq (by simpa using h)⟩

@[simp] theorem cmdWord_toNat (op : Byte) (sel : BitVec 4) :
    (cmdWord op sel).toNat = sel.toNat * 256 + op.toNat := by
  have h1 := op.isLt
  have h2 := sel.isLt
  simp only [cmdWord, BitVec.toNat_append]
  rw [← Nat.shiftLeft_add_eq_or_of_lt h1, Nat.shiftLeft_eq]
  have : (0#20).toNat <<< 4 ||| sel.toNat = sel.toNat := by simp
  rw [this]

@[simp] theorem cmdOp_cmdWord (op : Byte) (sel : BitVec 4) : cmdOp (cmdWord op sel) = op := by
  apply BitVec.eq_of_toNat_eq
  have := op.isLt
  simp only [cmdOp_toNat, cmdWord_toNat]
  omega

@[simp] theorem cmdSel_cmdWord (op : Byte) (sel : BitVec 4) : cmdSel (cmdWord op sel) = sel := by
  apply BitVec.eq_of_toNat_eq
  have := op.isLt
  have := sel.isLt
  simp only [cmdSel_toNat, cmdWord_toNat]
  omega

@[simp] theorem cmdReserved_cmdWord (op : Byte) (sel : BitVec 4) : cmdReserved (cmdWord op sel) = 0 := by
  rw [cmdReserved_eq_zero]
  have := op.isLt
  have := sel.isLt
  simp only [cmdWord_toNat]
  omega

/-- A word is made of its fields when its reserved bits are 0. -/
theorem cmdWord_of_fields {w : Word} (h : cmdReserved w = 0) : cmdWord (cmdOp w) (cmdSel w) = w := by
  apply BitVec.eq_of_toNat_eq
  rw [cmdReserved_eq_zero] at h
  simp only [cmdWord_toNat, cmdOp_toNat, cmdSel_toNat]
  omega

/-- SEL selects the space that has it as its number. -/
theorem spaceOfSel_sel (sp : Space) : spaceOfSel sp.sel = some sp := by cases sp <;> rfl

theorem sel_of_spaceOfSel {sel : BitVec 4} {sp : Space} (h : spaceOfSel sel = some sp) : sp.sel = sel := by
  revert sp
  revert sel
  decide

theorem spaceOfSel_none {sel : BitVec 4} : spaceOfSel sel = none ↔ 6 ≤ sel.toNat := by
  revert sel
  decide

/-- A command without SEL decodes when SEL is 0. -/
theorem withoutSel_ok {sel : BitVec 4} {i j : Instr} (h : withoutSel sel i = .ok j) : sel = 0 ∧ i = j := by
  unfold withoutSel at h
  split at h
  · exact ⟨‹_›, Except.ok.inj h⟩
  · cases h

/-- A memory access decodes when SEL selects a space. -/
theorem withSpace_ok {sel : BitVec 4} {i : Space → Instr} {j : Instr} (h : withSpace sel i = .ok j) :
    ∃ sp, sp.sel = sel ∧ i sp = j := by
  unfold withSpace at h
  split at h
  · exact ⟨_, sel_of_spaceOfSel ‹_›, Except.ok.inj h⟩
  · cases h

/-- It is refused when SEL is not 0. -/
theorem withoutSel_error {sel : BitVec 4} {i : Instr} :
    (∃ e, withoutSel sel i = .error e) ↔ sel.toNat ≠ 0 := by
  have hz : sel = 0 ↔ sel.toNat = 0 := ⟨fun h => by simp [h], fun h => BitVec.eq_of_toNat_eq (by simpa using h)⟩
  unfold withoutSel
  split
  · simp [hz.1 ‹_›]
  · exact ⟨fun _ h => absurd (hz.2 h) ‹_›, fun _ => ⟨_, rfl⟩⟩

/-- It is refused when SEL selects no space. -/
theorem withSpace_error {sel : BitVec 4} {i : Space → Instr} :
    (∃ e, withSpace sel i = .error e) ↔ 6 ≤ sel.toNat := by
  rw [← spaceOfSel_none]
  unfold withSpace
  split <;> simp_all

end Sys2Proof
end

