-- ==== Sys2Proof/Laws/Exec.lean ====
section
/-! SUPPORT. What a command can do, said once: it raises one of the errors its rule lists, or it has its effect. Every
rule over all commands follows from `exec_next` by cases. -/

namespace Sys2Proof.Machine

/-- The errors a command may raise (60_exceptions.md R200). -/
def errorsOf : Instr → List ErrCode
  | .nop => []
  | .wrreg _ _ => [.rangeError, .sequenceError, .valueError]
  | .rdreg _ => [.rangeError]
  | .wrmem _ _ _ => [.rangeError, .valueError]
  | .rdmem _ _ => [.rangeError]
  | .setup => [.sequenceError, .configError]
  | .clrerr => []
  | .sreset => []
  | .qsample _ _ => [.sequenceError, .rangeError, .valueError]
  | .quant => [.sequenceError]
  | .pack => [.sequenceError, .valueError]
  | .qpack => [.sequenceError]
  | .srst => []
  | .spush _ _ => [.valueError, .rangeError]
  | .sflush => [.rangeError]
  | .fhdr _ _ => [.sequenceError]
  | .fpay => [.sequenceError]
  | .fmeta => [.sequenceError]
  | .fdone => [.sequenceError]
  | .mpkt _ _ => [.sequenceError]

/-- The command raised one of its errors and did nothing else. -/
def RaisedBy (i : Instr) (s t : State) : Prop :=
  ∃ e info, e ∈ errorsOf i ∧ (e = .configError → 1 ≤ info.toNat ∧ info.toNat ≤ 10) ∧ (e ≠ .configError → info = 0)
    ∧ t = s.raise i.opcode e info

/-- The command had its effect: what it checked, and the state it leaves. -/
def EffectOf (i : Instr) (s t : State) : Prop :=
  match i with
  | .nop => t = s.respond 0
  | .wrreg r v => ∃ g, regOf r = some g ∧ g.cls ≠ .ro ∧ (g.cls = .cfg → s.regs.configured = false)
      ∧ v &&& ~~~g.fieldMask = 0 ∧ (g = .clen → v.toNat ≤ s.params.cbCap)
      ∧ t = (s.updRegs fun x => x.write g v).respond 0
  | .rdreg r => ∃ g, regOf r = some g ∧ t = s.respond (s.regs.read g)
  | .wrmem sp a v => hostMayWrite sp = true ∧ a.toNat < capacity s.params sp ∧ v.toNat ≤ 255
      ∧ t = (s.writeBytes sp a.toNat [v.extractLsb' 0 8]).respond 0
  | .rdmem sp a => a.toNat < capacity s.params sp ∧ t = s.respond ((s.readByte sp a.toNat).setWidth 32)
  | .setup => firstFailing (setupChecks s) = none ∧ t = (writeConstants (s.updRegs configure)).respond 0
  | .clrerr => t = (s.updRegs clearError).respond 0
  | .sreset => t = (s.updRegs fun _ => Regs.reset).respond 0
  | .qsample c v => s.regs.configured = true ∧ c.toNat < s.regs.channels ∧ v.toNat ≤ 255
      ∧ t = s.respond ((quant (v.extractLsb' 0 8) (s.regs.ebwAt c.toNat)).setWidth 32)
  | .quant => s.regs.configured = true ∧ s.regs.nsamp.toNat ≤ s.params.maxSamples
      ∧ t = (s.writeBytes .qb 0 (quantizedInput s)).respond 0
  | .pack => s.regs.configured = true ∧ sampleTooWide s = false ∧ (packedFrame s).length ≤ s.params.maxSamples
      ∧ t = (leaveBitstream s (packedFrame s)).respond 0
  | .qpack => s.regs.configured = true ∧ (fusedFrame s).length ≤ s.params.maxSamples
      ∧ t = (leaveBitstream s (fusedFrame s)).respond 0
  | .srst => t = (s.updRegs fun r => { r with serAcc := 0, serNb := 0, serWp := 0, cvalid := false }).respond 0
  | .spush n v => 1 ≤ n ∧ n ≤ 8 ∧ v.toNat < 2 ^ n
      ∧ (8 ≤ s.regs.serNb.toNat + n → s.regs.serWp.toNat < s.params.maxSamples)
      ∧ t = (pushBits (msbBits n v.toNat) s).respond 0
  | .sflush => (0 < s.regs.serNb.toNat → s.regs.serWp.toNat < s.params.maxSamples) ∧ t = (flush s).respond 0
  | .fhdr _ ts => s.regs.configured = true ∧ ∃ src f p, select s.regs = some (src, f, p)
      ∧ t = ((writeHeader ts f p s).updRegs (beginPacket ts src f p)).respond 0
  | .fpay => s.regs.fstate = .headerWritten
      ∧ s.regs.fPlen.toNat ≤ capacity s.params s.regs.fSrc.space
      ∧ s.regs.hdrLen.toNat + s.regs.fPlen.toNat ≤ capacity s.params .pa
      ∧ t = ((s.writeBytes .pa s.regs.hdrLen.toNat (s.readBytes s.regs.fSrc.space 0 s.regs.fPlen.toNat)).updRegs
          fun r => { r with fstate := .payloadWritten }).respond 0
  | .fmeta => s.regs.fstate = .payloadWritten
      ∧ ((s.regs.gen = 0 ∨ s.regs.gen = 1)
            ∧ s.regs.hdrLen.toNat + s.regs.fPlen.toNat + metaTableLen ≤ capacity s.params .pa
            ∧ t = ((s.writeBytes .pa (s.regs.hdrLen.toNat + s.regs.fPlen.toNat) (metaTable s.regs)).updRegs
                fun r => { r with fstate := .metadataWritten }).respond 0
          ∨ ¬ (s.regs.gen = 0 ∨ s.regs.gen = 1)
            ∧ t = (s.updRegs fun r => { r with fstate := .metadataWritten }).respond 0)
  | .fdone => s.regs.fstate = .metadataWritten
      ∧ t = (s.updRegs fun r =>
          { r with
            pktLen := lengthWord (r.hdrLen.toNat + r.fPlen.toNat + tableLen r)
            fstate := .complete
            cvalid := false }).respond 0
  | .mpkt _ ts => s.regs.configured = true ∧ s.regs.gen = 2 ∧ 8 + 12 * s.regs.readings ≤ capacity s.params .ma
      ∧ t = ((writeValues (s.writeBytes .ma 0 (le32 ts))).updRegs fun r =>
          { r with mTs := ts, mpktLen := lengthWord (8 + 12 * r.readings), mpktValid := true }).respond 0

/-- A plain check that failed raised its error. -/
theorem RaisedBy.plain {i : Instr} {s t : State} {cs : List Check} {c : Check}
    (hcs : ∀ c ∈ cs, c.code ∈ errorsOf i ∧ c.code ≠ .configError ∧ c.info = 0)
    (hc : firstFailing cs = some c) (ht : t = s.raise i.opcode c.code c.info) : RaisedBy i s t := by
  obtain ⟨h1, h2, h3⟩ := hcs c (firstFailing_some hc).1
  exact ⟨c.code, c.info, h1, fun h => absurd h h2, fun _ => h3, ht⟩

theorem execWrreg_next {r v : Word} {s t : State} (h : execWrreg r v s = .next t) :
    RaisedBy (.wrreg r v) s t ∨ EffectOf (.wrreg r v) s t := by
  rcases checked_next h with ⟨c, hc, ht⟩ | ⟨hc, ht⟩
  · refine .inl (RaisedBy.plain ?_ hc ht)
    unfold wrregChecks
    split <;> simp [errorsOf]
  · refine .inr ?_
    unfold wrregChecks at hc
    unfold writeReg at ht
    cases hr : regOf r with
    | none => simp [hr] at hc
    | some g =>
      simp only [hr] at hc ht
      rw [firstFailing_none] at hc
      simp only [List.forall_mem_cons, plain_fails, List.not_mem_nil, false_implies, implies_true, and_true,
        decide_eq_false_iff_not, Bool.and_eq_false_iff] at hc
      refine ⟨g, hr, hc.1, fun hg => ?_, not_not.1 hc.2.2.1, fun hg => ?_, (Host.Outcome.next.inj ht).symm⟩
      · rcases hc.2.1 with h | h
        · exact absurd hg h
        · exact h
      · rcases hc.2.2.2 with h | h
        · exact absurd hg h
        · omega

theorem execRdreg_next {r : Word} {s t : State} (h : execRdreg r s = .next t) :
    RaisedBy (.rdreg r) s t ∨ EffectOf (.rdreg r) s t := by
  unfold execRdreg at h
  split at h
  · exact .inl ⟨.rangeError, 0, by simp [errorsOf], by simp, by simp, (Host.Outcome.next.inj h).symm⟩
  · exact .inr ⟨_, ‹_›, (Host.Outcome.next.inj h).symm⟩

theorem execWrmem_next {sp : Space} {a v : Word} {s t : State} (h : execWrmem sp a v s = .next t) :
    RaisedBy (.wrmem sp a v) s t ∨ EffectOf (.wrmem sp a v) s t := by
  rcases checked_next h with ⟨c, hc, ht⟩ | ⟨hc, ht⟩
  · exact .inl (RaisedBy.plain (by simp [errorsOf]) hc ht)
  · rw [firstFailing_none] at hc
    simp only [List.forall_mem_cons, plain_fails, List.not_mem_nil, false_implies, implies_true, and_true,
      decide_eq_false_iff_not, Bool.not_eq_false'] at hc
    exact .inr ⟨hc.1, by omega, by omega, (Host.Outcome.next.inj ht).symm⟩

theorem execRdmem_next {sp : Space} {a : Word} {s t : State} (h : execRdmem sp a s = .next t) :
    RaisedBy (.rdmem sp a) s t ∨ EffectOf (.rdmem sp a) s t := by
  rcases checked_next h with ⟨c, hc, ht⟩ | ⟨hc, ht⟩
  · exact .inl (RaisedBy.plain (by simp [errorsOf]) hc ht)
  · simp only [firstFailing_none, List.forall_mem_cons, plain_fails, List.not_mem_nil, false_implies, implies_true,
      and_true, decide_eq_false_iff_not] at hc
    exact .inr ⟨by omega, (Host.Outcome.next.inj ht).symm⟩

theorem execSetup_next {s t : State} (h : execSetup s = .next t) : RaisedBy .setup s t ∨ EffectOf .setup s t := by
  rcases checked_next h with ⟨c, hc, ht⟩ | ⟨hc, ht⟩
  · refine .inl ⟨c.code, c.info, ?_⟩
    have hm := (firstFailing_some hc).1
    simp only [setupChecks, List.mem_cons, List.not_mem_nil, or_false] at hm
    rcases hm with rfl | rfl | rfl | rfl | rfl | rfl | rfl | rfl | rfl | rfl | rfl <;>
      exact ⟨by simp [errorsOf], by simp, by simp, ht⟩
  · exact .inr ⟨hc, (Host.Outcome.next.inj ht).symm⟩

theorem execQsample_next {c v : Word} {s t : State} (h : execQsample c v s = .next t) :
    RaisedBy (.qsample c v) s t ∨ EffectOf (.qsample c v) s t := by
  rcases checked_next h with ⟨k, hc, ht⟩ | ⟨hc, ht⟩
  · exact .inl (RaisedBy.plain (by simp [errorsOf, needsSetup]) hc ht)
  · simp only [firstFailing_none, needsSetup, List.forall_mem_cons, plain_fails, List.not_mem_nil, false_implies,
      implies_true, and_true, decide_eq_false_iff_not, Bool.not_eq_false'] at hc
    exact .inr ⟨hc.1, by omega, by omega, (Host.Outcome.next.inj ht).symm⟩

/-- The check CONFIGURED = 1 alone. -/
theorem needsSetup_none {s : State} (h : firstFailing [needsSetup s] = none) : s.regs.configured = true := by
  simpa [needsSetup] using h

theorem execQuant_next {s t : State} (h : execQuant s = .next t) : RaisedBy .quant s t ∨ EffectOf .quant s t := by
  rcases checked_next h with ⟨c, hc, ht⟩ | ⟨hc, ht⟩
  · exact .inl (RaisedBy.plain (by simp [errorsOf, needsSetup]) hc ht)
  · obtain ⟨h1, ht⟩ := within_next ht
    obtain ⟨-, ht⟩ := within_next ht
    exact .inr ⟨needsSetup_none hc, h1, (Host.Outcome.next.inj ht).symm⟩

theorem execPack_next {s t : State} (h : execPack s = .next t) : RaisedBy .pack s t ∨ EffectOf .pack s t := by
  rcases checked_next h with ⟨c, hc, ht⟩ | ⟨hc, ht⟩
  · exact .inl (RaisedBy.plain (by simp [errorsOf, needsSetup]) hc ht)
  · obtain ⟨-, ht⟩ := within_next ht
    rcases checked_next ht with ⟨c, hc', ht⟩ | ⟨hc', ht⟩
    · exact .inl (RaisedBy.plain (by simp [errorsOf]) hc' ht)
    · obtain ⟨h2, ht⟩ := within_next ht
      exact .inr ⟨needsSetup_none hc, firstFailing_none.1 hc' _ (List.mem_cons_self ..), h2, (Host.Outcome.next.inj ht).symm⟩

theorem execQpack_next {s t : State} (h : execQpack s = .next t) : RaisedBy .qpack s t ∨ EffectOf .qpack s t := by
  rcases checked_next h with ⟨c, hc, ht⟩ | ⟨hc, ht⟩
  · exact .inl (RaisedBy.plain (by simp [errorsOf, needsSetup]) hc ht)
  · obtain ⟨-, ht⟩ := within_next ht
    obtain ⟨h2, ht⟩ := within_next ht
    exact .inr ⟨needsSetup_none hc, h2, (Host.Outcome.next.inj ht).symm⟩

theorem execSpush_next {n : Nat} {v : Word} {s t : State} (h : execSpush n v s = .next t) :
    RaisedBy (.spush n v) s t ∨ EffectOf (.spush n v) s t := by
  rcases checked_next h with ⟨c, hc, ht⟩ | ⟨hc, ht⟩
  · exact .inl (RaisedBy.plain (by simp [errorsOf]) hc ht)
  · simp only [firstFailing_none, List.forall_mem_cons, plain_fails, List.not_mem_nil, false_implies, implies_true,
      and_true, decide_eq_false_iff_not, Bool.or_eq_false_iff, Bool.and_eq_false_iff] at hc
    exact .inr ⟨by omega, by omega, by omega, fun _ => by omega, (Host.Outcome.next.inj ht).symm⟩

theorem execSflush_next {s t : State} (h : execSflush s = .next t) : RaisedBy .sflush s t ∨ EffectOf .sflush s t := by
  rcases checked_next h with ⟨c, hc, ht⟩ | ⟨hc, ht⟩
  · exact .inl (RaisedBy.plain (by simp [errorsOf]) hc ht)
  · simp only [firstFailing_none, List.forall_mem_cons, plain_fails, List.not_mem_nil, false_implies, implies_true,
      and_true, decide_eq_false_iff_not, Bool.and_eq_false_iff] at hc
    exact .inr ⟨fun _ => by omega, (Host.Outcome.next.inj ht).symm⟩

theorem execFhdr_next {hi ts : Word} {s t : State} (h : execFhdr hi ts s = .next t) :
    RaisedBy (.fhdr hi ts) s t ∨ EffectOf (.fhdr hi ts) s t := by
  rcases checked_next h with ⟨c, hc, ht⟩ | ⟨hc, ht⟩
  · exact .inl (RaisedBy.plain (by simp [errorsOf, needsSetup]) hc ht)
  · split at ht
    · exact .inl ⟨.sequenceError, 0, by simp [errorsOf], by simp, by simp, (Host.Outcome.next.inj ht).symm⟩
    · exact .inr ⟨needsSetup_none hc, _, _, _, ‹_›, (Host.Outcome.next.inj ht).symm⟩

/-- The framer is in the state a stage needs. -/
theorem inState_none {s : State} {st : FState} (h : firstFailing [inState s st] = none) : s.regs.fstate = st := by
  simpa [inState] using h

theorem execFpay_next {s t : State} (h : execFpay s = .next t) : RaisedBy .fpay s t ∨ EffectOf .fpay s t := by
  rcases checked_next h with ⟨c, hc, ht⟩ | ⟨hc, ht⟩
  · exact .inl (RaisedBy.plain (by simp [errorsOf, inState]) hc ht)
  · obtain ⟨h1, ht⟩ := within_next ht
    obtain ⟨h2, ht⟩ := within_next ht
    exact .inr ⟨inState_none hc, h1, h2, (Host.Outcome.next.inj ht).symm⟩

theorem execFmeta_next {s t : State} (h : execFmeta s = .next t) : RaisedBy .fmeta s t ∨ EffectOf .fmeta s t := by
  rcases checked_next h with ⟨c, hc, ht⟩ | ⟨hc, ht⟩
  · exact .inl (RaisedBy.plain (by simp [errorsOf, inState]) hc ht)
  · refine .inr ⟨inState_none hc, ?_⟩
    split at ht
    · obtain ⟨h1, ht⟩ := within_next ht
      exact .inl ⟨‹_›, h1, (Host.Outcome.next.inj ht).symm⟩
    · exact .inr ⟨‹_›, (Host.Outcome.next.inj ht).symm⟩

theorem execFdone_next {s t : State} (h : execFdone s = .next t) : RaisedBy .fdone s t ∨ EffectOf .fdone s t := by
  rcases checked_next h with ⟨c, hc, ht⟩ | ⟨hc, ht⟩
  · exact .inl (RaisedBy.plain (by simp [errorsOf, inState]) hc ht)
  · exact .inr ⟨inState_none hc, (Host.Outcome.next.inj ht).symm⟩

theorem execMpkt_next {hi ts : Word} {s t : State} (h : execMpkt hi ts s = .next t) :
    RaisedBy (.mpkt hi ts) s t ∨ EffectOf (.mpkt hi ts) s t := by
  rcases checked_next h with ⟨c, hc, ht⟩ | ⟨hc, ht⟩
  · exact .inl (RaisedBy.plain (by simp [errorsOf, needsSetup]) hc ht)
  · obtain ⟨h1, ht⟩ := within_next ht
    simp only [firstFailing_none, needsSetup, List.forall_mem_cons, plain_fails, List.not_mem_nil, false_implies,
      implies_true, and_true, decide_eq_false_iff_not, not_not, Bool.not_eq_false'] at hc
    exact .inr ⟨hc.1, hc.2, h1, (Host.Outcome.next.inj ht).symm⟩

/-- What any command can do when it answers a next state. -/
theorem exec_next {i : Instr} {s t : State} (h : exec i s = .next t) : RaisedBy i s t ∨ EffectOf i s t := by
  cases i with
  | nop => exact .inr (Host.Outcome.next.inj h).symm
  | wrreg r v => exact execWrreg_next h
  | rdreg r => exact execRdreg_next h
  | wrmem sp a v => exact execWrmem_next h
  | rdmem sp a => exact execRdmem_next h
  | setup => exact execSetup_next h
  | clrerr => exact .inr (Host.Outcome.next.inj h).symm
  | sreset => exact .inr (Host.Outcome.next.inj h).symm
  | qsample c v => exact execQsample_next h
  | quant => exact execQuant_next h
  | pack => exact execPack_next h
  | qpack => exact execQpack_next h
  | srst => exact .inr (Host.Outcome.next.inj h).symm
  | spush n v => exact execSpush_next h
  | sflush => exact execSflush_next h
  | fhdr hi ts => exact execFhdr_next h
  | fpay => exact execFpay_next h
  | fmeta => exact execFmeta_next h
  | fdone => exact execFdone_next h
  | mpkt hi ts => exact execMpkt_next h

/-- What a step can do: nothing where no command waits, ILLEGAL_COMMAND where it does not decode, or the command. -/
theorem step_next {s t : State} (h : step s = .next t) :
    (s.port = [] ∧ t = s)
      ∨ ∃ c rest, s.port = c :: rest
        ∧ ((∃ e, decode c = .error e ∧ t = ({ s with port := rest } : State).rejectCommand c)
            ∨ ∃ i, decode c = .ok i ∧ exec i { s with port := rest } = .next t) := by
  unfold step State.nextCommand at h
  cases hp : s.port with
  | nil =>
    simp only [hp] at h
    exact .inl ⟨rfl, (Host.Outcome.next.inj h).symm⟩
  | cons c rest =>
    simp only [hp] at h
    refine .inr ⟨c, rest, rfl, ?_⟩
    cases hd : decode c with
    | error e =>
      simp only [hd] at h
      exact .inl ⟨e, rfl, (Host.Outcome.next.inj h).symm⟩
    | ok i =>
      simp only [hd] at h
      exact .inr ⟨i, rfl, h⟩

end Sys2Proof.Machine
end

