-- ==== Sys2Proof/Laws/PerInstr.lean ====
section
/-! SUPPORT. One lemma a command: the CMD word its encoding has (30_encoding.md R81, R84, R87). -/

namespace Sys2Proof.Laws.EncodedWord

/-- The reserved bits of CMD are 0, OP is the command's opcode, and SEL is 0 but for WRMEM, RDMEM and SPUSH. -/
def Statement (i : Instr) : Prop :=
  cmdReserved (encode i).cmd = 0 ∧ cmdOp (encode i).cmd = i.opcode
    ∧ (cmdSel (encode i).cmd ≠ 0 → i.opcode = 0x03 ∨ i.opcode = 0x04 ∨ i.opcode = 0x0D)

/-- A command whose SEL is 0. -/
theorem of_sel_zero {i : Instr} (h : i.sel = 0) : Statement i :=
  ⟨cmdReserved_cmdWord .., cmdOp_cmdWord .., fun hs => absurd ((cmdSel_cmdWord ..).trans h) hs⟩

theorem nop : Statement .nop := of_sel_zero rfl
theorem wrreg (r v : Word) : Statement (.wrreg r v) := of_sel_zero rfl
theorem rdreg (r : Word) : Statement (.rdreg r) := of_sel_zero rfl
theorem wrmem (sp : Space) (a v : Word) : Statement (.wrmem sp a v) :=
  ⟨cmdReserved_cmdWord .., cmdOp_cmdWord .., fun _ => .inl rfl⟩
theorem rdmem (sp : Space) (a : Word) : Statement (.rdmem sp a) :=
  ⟨cmdReserved_cmdWord .., cmdOp_cmdWord .., fun _ => .inr (.inl rfl)⟩
theorem setup : Statement .setup := of_sel_zero rfl
theorem clrerr : Statement .clrerr := of_sel_zero rfl
theorem sreset : Statement .sreset := of_sel_zero rfl
theorem qsample (c v : Word) : Statement (.qsample c v) := of_sel_zero rfl
theorem quant : Statement .quant := of_sel_zero rfl
theorem pack : Statement .pack := of_sel_zero rfl
theorem qpack : Statement .qpack := of_sel_zero rfl
theorem srst : Statement .srst := of_sel_zero rfl
theorem spush (n : Nat) (v : Word) : Statement (.spush n v) :=
  ⟨cmdReserved_cmdWord .., cmdOp_cmdWord .., fun _ => .inr (.inr rfl)⟩
theorem sflush : Statement .sflush := of_sel_zero rfl
theorem fhdr (tsHi ts : Word) : Statement (.fhdr tsHi ts) := of_sel_zero rfl
theorem fpay : Statement .fpay := of_sel_zero rfl
theorem fmeta : Statement .fmeta := of_sel_zero rfl
theorem fdone : Statement .fdone := of_sel_zero rfl
theorem mpkt (tsHi ts : Word) : Statement (.mpkt tsHi ts) := of_sel_zero rfl

end Sys2Proof.Laws.EncodedWord
end

