-- ==== Sys2Proof/Laws/Serializer.lean ====
section
/-! SUPPORT. The serializer: a push or a flush changes nothing but PB and the three cursor registers. -/

namespace Sys2Proof.Machine

/-- A turn of SPUSH's loop touches only the cursor (42_packer.md R132). -/
theorem pushBit_regs (s : State) (b : Bool) :
    (pushBit s b).regs =
      { s.regs with
        serAcc := (pushBit s b).regs.serAcc, serNb := (pushBit s b).regs.serNb, serWp := (pushBit s b).regs.serWp } := by
  unfold pushBit
  dsimp only
  split <;> simp

@[simp] theorem pushBit_params (s : State) (b : Bool) : (pushBit s b).params = s.params := by
  unfold pushBit
  dsimp only
  split <;> simp

@[simp] theorem pushBit_port (s : State) (b : Bool) : (pushBit s b).port = s.port := by
  unfold pushBit
  dsimp only
  split <;> simp

theorem pushBit_mem_other (s : State) (b : Bool) {sp : Space} (h : sp ≠ .pb) : (pushBit s b).mem sp = s.mem sp := by
  unfold pushBit
  dsimp only
  split <;> simp [h]

@[simp] theorem pushBits_nil (s : State) : pushBits [] s = s := rfl

@[simp] theorem pushBits_cons (b : Bool) (bs : List Bool) (s : State) :
    pushBits (b :: bs) s = pushBits bs (pushBit s b) := rfl

theorem pushBits_append (bs cs : List Bool) (s : State) : pushBits (bs ++ cs) s = pushBits cs (pushBits bs s) := by
  simp [pushBits]

theorem pushBits_regs (bs : List Bool) (s : State) :
    (pushBits bs s).regs =
      { s.regs with
        serAcc := (pushBits bs s).regs.serAcc, serNb := (pushBits bs s).regs.serNb
        serWp := (pushBits bs s).regs.serWp } := by
  induction bs generalizing s with
  | nil => rfl
  | cons b bs ih =>
    rw [pushBits_cons, ih (pushBit s b), pushBit_regs]

@[simp] theorem pushBits_params (bs : List Bool) (s : State) : (pushBits bs s).params = s.params := by
  induction bs generalizing s with
  | nil => rfl
  | cons b bs ih => rw [pushBits_cons, ih, pushBit_params]

@[simp] theorem pushBits_port (bs : List Bool) (s : State) : (pushBits bs s).port = s.port := by
  induction bs generalizing s with
  | nil => rfl
  | cons b bs ih => rw [pushBits_cons, ih, pushBit_port]

theorem pushBits_mem_other (bs : List Bool) (s : State) {sp : Space} (h : sp ≠ .pb) :
    (pushBits bs s).mem sp = s.mem sp := by
  induction bs generalizing s with
  | nil => rfl
  | cons b bs ih => rw [pushBits_cons, ih, pushBit_mem_other _ _ h]

/-- A bit that does not complete its byte (R132). -/
theorem pushBit_short {s : State} (b : Bool) (h : s.regs.serNb.toNat < 7) :
    pushBit s b = s.updRegs fun r =>
      { r with
        serAcc := r.serAcc + (if b then BitVec.ofNat 8 (2 ^ (7 - r.serNb.toNat)) else 0), serNb := r.serNb + 1 } := by
  unfold pushBit
  dsimp only
  rw [if_neg (by omega)]
  rfl

/-- The bit that completes a byte (R132). -/
theorem pushBit_full {s : State} (b : Bool) (h : s.regs.serNb.toNat = 7) :
    pushBit s b =
      (s.writeBytes .pb s.regs.serWp.toNat [s.regs.serAcc + if b then 1 else 0]).updRegs
        fun r => { r with serAcc := 0, serNb := 0, serWp := r.serWp + 1 } := by
  unfold pushBit
  dsimp only
  rw [if_pos (by omega), h]
  rfl

/-- The bits of a value that stay inside the byte being filled (R132): they join SER_ACC below the SER_NB bits there. -/
theorem pushBits_short {s : State} {n : Nat} (v : Nat) (h : s.regs.serNb.toNat + n < 8) :
    pushBits (msbBits n v) s = s.updRegs fun r =>
      { r with
        serAcc := r.serAcc + BitVec.ofNat 8 (v % 2 ^ n * 2 ^ (8 - (r.serNb.toNat + n)))
        serNb := BitVec.ofNat 3 (r.serNb.toNat + n) } := by
  induction n generalizing s with
  | zero =>
    refine state_eq rfl ?_ (fun sp => by simp) rfl rfl
    simp [Nat.mod_one]
  | succ n ih =>
    rw [msbBits_succ, pushBits_cons, pushBit_short _ (by omega)]
    have hnb : (s.regs.serNb + 1).toNat = s.regs.serNb.toNat + 1 := by
      rw [BitVec.toNat_add]
      exact Nat.mod_eq_of_lt (by simp; omega)
    rw [ih (by simp only [updRegs_regs, hnb]; omega)]
    refine state_eq rfl ?_ (fun sp => by simp) rfl rfl
    simp only [updRegs_regs, hnb]
    have hw : v % 2 ^ (n + 1) * 2 ^ (8 - (s.regs.serNb.toNat + (n + 1)))
        = (if v.testBit n then 2 ^ (7 - s.regs.serNb.toNat) else 0)
          + v % 2 ^ n * 2 ^ (8 - (s.regs.serNb.toNat + 1 + n)) := by
      rw [mod_two_pow_succ, Nat.add_mul, Nat.add_comm, show s.regs.serNb.toNat + (n + 1) = s.regs.serNb.toNat + 1 + n by omega]
      congr 1
      split
      · rw [← pow_add]
        congr 1
        omega
      · simp
    have ha : s.regs.serAcc + (if v.testBit n then BitVec.ofNat 8 (2 ^ (7 - s.regs.serNb.toNat)) else 0)
          + BitVec.ofNat 8 (v % 2 ^ n * 2 ^ (8 - (s.regs.serNb.toNat + 1 + n)))
        = s.regs.serAcc + BitVec.ofNat 8 (v % 2 ^ (n + 1) * 2 ^ (8 - (s.regs.serNb.toNat + (n + 1)))) := by
      rw [hw, BitVec.ofNat_add, ← BitVec.add_assoc]
      congr 2
      split <;> rfl
    have hb : BitVec.ofNat 3 (s.regs.serNb.toNat + 1 + n) = BitVec.ofNat 3 (s.regs.serNb.toNat + (n + 1)) := by
      congr 1
      omega
    exact congrArg₂ (fun a b => { s.regs with serAcc := a, serNb := b }) ha hb

/-- The bits of a value that fill the byte exactly: the byte goes to PB[SER_WP] (R132). -/
theorem pushBits_full {s : State} {n : Nat} (v : Nat) (h : s.regs.serNb.toNat + n = 8) (hn : 1 ≤ n) :
    pushBits (msbBits n v) s =
      (s.writeBytes .pb s.regs.serWp.toNat [s.regs.serAcc + BitVec.ofNat 8 (v % 2 ^ n)]).updRegs
        fun r => { r with serAcc := 0, serNb := 0, serWp := r.serWp + 1 } := by
  obtain ⟨m, rfl⟩ : ∃ m, n = m + 1 := ⟨n - 1, by omega⟩
  rw [msbBits_add m 1, pushBits_append, pushBits_short (n := m) _ (by omega), msbBits_succ, msbBits_zero, pushBits_cons,
    pushBits_nil, pushBit_full _ (by simp only [updRegs_regs, BitVec.toNat_ofNat]; omega)]
  have hb : s.regs.serAcc + BitVec.ofNat 8 (v / 2 ^ 1 % 2 ^ m * 2 ^ (8 - (s.regs.serNb.toNat + m)))
      + (if v.testBit 0 then 1 else 0) = s.regs.serAcc + BitVec.ofNat 8 (v % 2 ^ (m + 1)) := by
    rw [BitVec.add_assoc]
    congr 1
    have h1 : v % 2 ^ (m + 1) = v / 2 ^ 1 % 2 ^ m * 2 ^ (8 - (s.regs.serNb.toNat + m)) + v % 2 := by
      rw [show 8 - (s.regs.serNb.toNat + m) = 1 by omega, show 2 ^ (m + 1) = 2 * 2 ^ m by rw [pow_succ, Nat.mul_comm],
        Nat.mod_mul, pow_one]
      omega
    rw [h1, BitVec.ofNat_add]
    congr 1
    rw [Nat.testBit_zero]
    rcases Nat.mod_two_eq_zero_or_one v with h0 | h0 <;> simp [h0]
  refine state_eq (by simp) ?_ (fun sp => ?_) (by simp) (by simp [State.updRegs])
  · simp
  · simp only [updRegs_mem, updRegs_regs, writeBytes_mem]
    rw [hb]

/-- SFLUSH touches only the cursor (R133). -/
theorem flush_regs (s : State) :
    (flush s).regs =
      { s.regs with
        serAcc := (flush s).regs.serAcc, serNb := (flush s).regs.serNb, serWp := (flush s).regs.serWp } := by
  unfold flush
  split <;> simp

@[simp] theorem flush_params (s : State) : (flush s).params = s.params := by
  unfold flush
  split <;> simp

@[simp] theorem flush_port (s : State) : (flush s).port = s.port := by
  unfold flush
  split <;> simp

theorem flush_mem_other (s : State) {sp : Space} (h : sp ≠ .pb) : (flush s).mem sp = s.mem sp := by
  unfold flush
  split <;> simp [h]

/-- PACK and QPACK leave the cursor closed behind the bitstream and CVALID 0 (R135, R136). -/
@[simp] theorem leaveBitstream_regs (s : State) (bs : List Byte) :
    (leaveBitstream s bs).regs = { s.regs with serAcc := 0, serNb := 0, serWp := s.regs.plenRaw, cvalid := false } := by
  simp [leaveBitstream]

@[simp] theorem leaveBitstream_params (s : State) (bs : List Byte) : (leaveBitstream s bs).params = s.params := by
  simp [leaveBitstream]

@[simp] theorem leaveBitstream_port (s : State) (bs : List Byte) : (leaveBitstream s bs).port = s.port := by
  simp [leaveBitstream]

theorem leaveBitstream_mem_other (s : State) (bs : List Byte) {sp : Space} (h : sp ≠ .pb) :
    (leaveBitstream s bs).mem sp = s.mem sp := by
  simp [leaveBitstream, h]

end Sys2Proof.Machine
end

