-- ==== Sys2Proof/Laws/Setup.lean ====
section
/-! SUPPORT. SETUP: what a valid name is, and that no derived register wraps (40_control.md R105, R106). -/

namespace Sys2Proof.Machine

/-! ## Names -/

/-- Null padding fails exactly where a byte is 0 and a later one is not (R105 check 9). -/
theorem nullPadded_eq_false (bs : List Byte) :
    nullPadded bs = false ↔ ∃ i j, i < j ∧ j < bs.length ∧ bs.getD i 0 = 0 ∧ bs.getD j 0 ≠ 0 := by
  induction bs with
  | nil => simp [nullPadded]
  | cons b bs ih =>
    unfold nullPadded
    by_cases hb : b = 0
    · rw [if_pos hb, List.all_eq_false]
      constructor
      · rintro ⟨x, hx, hne⟩
        obtain ⟨j, hj, rfl⟩ := List.getElem_of_mem hx
        exact ⟨0, j + 1, by omega, by simpa using hj, by simpa using hb, by simpa [hj] using hne⟩
      · rintro ⟨i, j, hij, hj, -, hne⟩
        obtain ⟨j, rfl⟩ : ∃ j', j = j' + 1 := ⟨j - 1, by omega⟩
        have hj' : j < bs.length := by simpa using hj
        exact ⟨bs[j], List.getElem_mem hj', by simpa [hj'] using hne⟩
    · rw [if_neg hb, ih]
      constructor
      · rintro ⟨i, j, hij, hj, h0, hne⟩
        exact ⟨i + 1, j + 1, by omega, by simpa using hj, by simpa using h0, by simpa using hne⟩
      · rintro ⟨i, j, hij, hj, h0, hne⟩
        obtain ⟨j, rfl⟩ : ∃ j', j = j' + 1 := ⟨j - 1, by omega⟩
        cases i with
        | zero => exact absurd (by simpa using h0) hb
        | succ i => exact ⟨i, j, by omega, by simpa using hj, by simpa using h0, by simpa using hne⟩

/-- A name is invalid exactly where a byte is not ASCII or the padding fails. -/
theorem validName_eq_false (bs : List Byte) :
    validName bs = false ↔
      (∃ j, j < bs.length ∧ 0x80 ≤ (bs.getD j 0).toNat)
        ∨ ∃ i j, i < j ∧ j < bs.length ∧ bs.getD i 0 = 0 ∧ bs.getD j 0 ≠ 0 := by
  rw [validName, Bool.and_eq_false_iff, nullPadded_eq_false, List.all_eq_false]
  refine or_congr ⟨?_, ?_⟩ Iff.rfl
  · rintro ⟨x, hx, hne⟩
    obtain ⟨j, hj, rfl⟩ := List.getElem_of_mem hx
    exact ⟨j, hj, by simpa [hj] using hne⟩
  · rintro ⟨j, hj, hne⟩
    exact ⟨bs[j], List.getElem_mem hj, by simpa [hj] using hne⟩

/-- Byte j of a name as a number: byte 4h + k is bits [8k+7 : 8k] of half h (10_state.md R31). -/
theorem nameBytes_getD (r : Regs) (k : Nat) {j : Nat} (h : j < 8) :
    ((r.nameBytes k).getD j 0).toNat = (r.mname.getD (2 * k + j / 4) 0).toNat / 2 ^ (8 * (j % 4)) % 256 := by
  interval_cases j <;> simp [Regs.nameBytes, le32, Nat.shiftRight_eq_div_pow]

/-! ## Derived registers -/

/-- The bits per pixel of a legal configuration. -/
theorem widthSum_le {w : Nat → Nat} {c : Nat} (h : ∀ k < c, w k ≤ 8) : widthSum w c ≤ 8 * c := by
  unfold widthSum
  induction c with
  | zero => simp
  | succ c ih =>
    rw [List.range_succ, List.map_append, List.sum_append]
    have h1 := ih fun k hk => h k (by omega)
    have h2 := h c (by omega)
    simp only [List.map_cons, List.map_nil, List.sum_cons, List.sum_nil]
    omega

/-- The packed frame is no longer than the frame (40_control.md R106). -/
theorem packed_le {w : Nat → Nat} {c : Nat} (m : Nat) (h : ∀ k < c, w k ≤ 8) :
    ceilDiv8 (m * widthSum w c) ≤ m * c := by
  have h1 := Nat.mul_le_mul_left m (widthSum_le h)
  have h2 : m * (8 * c) = 8 * (m * c) := by rw [← Nat.mul_assoc, Nat.mul_comm m 8, Nat.mul_assoc]
  unfold ceilDiv8
  omega

/-- EBW as SETUP writes it (R106). -/
theorem effectiveWidths_getD (r : Regs) {c : Nat} (h : c < 256) :
    ((effectiveWidths r).getD c 0).toNat =
      if c < r.channels then (if r.uniform then r.ubits.toNat else r.bwAt c) else 0 := by
  have h1 : (effectiveWidths r).getD c 0
      = if c < r.channels then (if r.uniform then r.ubits else r.bw[c]) else 0 := by
    simp [Vector.getD, effectiveWidths, h]
  have h2 : r.bwAt c = (r.bw[c]).toNat := by simp [Regs.bwAt, Vector.getD, h]
  rw [h1, h2]
  split
  · split <;> rfl
  · rfl

/-- C is at most 255 (10_state.md R26). -/
theorem channels_lt (r : Regs) : r.channels < 256 := r.chanC.isLt

end Sys2Proof.Machine
end

