-- ==== Sys2Proof/Laws/Stream.lean ====
section
/-! SUPPORT. The serializer and the stream: after the pushes of m bits the completed bytes stand in PB and SER_ACC holds
the next m mod 8 bits (42_packer.md R134). -/

namespace Sys2Proof.Machine

/-! ## One more bit of a stream -/

/-- The bytes a stream has completed do not change when a bit is appended. -/
theorem streamByte_append_of_lt (bits : List Bool) (b : Bool) {k : Nat} (h : 8 * k + 8 ≤ bits.length) :
    streamByte (bits ++ [b]) k = streamByte bits k := by
  unfold streamByte
  congr 2
  apply List.map_congr_left
  intro j hj
  have := List.mem_range.1 hj
  rw [List.getD_eq_getElem?_getD, List.getElem?_append_left (by omega), ← List.getD_eq_getElem?_getD]

/-- Past the end of a stream its bytes are zero. -/
theorem streamByte_of_le (bits : List Bool) {k : Nat} (h : bits.length ≤ 8 * k) : streamByte bits k = 0 := by
  unfold streamByte
  have : (List.range 8).map (fun j => if bits.getD (8 * k + j) false then 2 ^ (7 - j) else 0)
      = (List.range 8).map fun _ => 0 := by
    apply List.map_congr_left
    intro j _
    rw [List.getD_eq_default _ _ (by omega)]
    rfl
  rw [this]
  rfl

/-- The byte being filled gains the bit at its highest free position. -/
theorem streamByte_append (bits : List Bool) (b : Bool) :
    streamByte (bits ++ [b]) (bits.length / 8)
      = streamByte bits (bits.length / 8) + if b then BitVec.ofNat 8 (2 ^ (7 - bits.length % 8)) else 0 := by
  have hget : ∀ j, (bits ++ [b]).getD (8 * (bits.length / 8) + j) false
      = if j = bits.length % 8 then b else bits.getD (8 * (bits.length / 8) + j) false := by
    intro j
    have hd := Nat.div_add_mod bits.length 8
    split
    · subst j
      rw [hd]
      simp
    · by_cases hlt : 8 * (bits.length / 8) + j < bits.length
      · rw [List.getD_eq_getElem?_getD, List.getElem?_append_left hlt, ← List.getD_eq_getElem?_getD]
      · rw [List.getD_eq_default _ _ (by simp; omega), List.getD_eq_default _ _ (by omega)]
  have hend : bits.getD (8 * (bits.length / 8) + bits.length % 8) false = false :=
    List.getD_eq_default _ _ (by omega)
  have hlt : bits.length % 8 < 8 := Nat.mod_lt _ (by decide)
  unfold streamByte
  simp only [hget]
  generalize bits.length % 8 = r at *
  rw [show List.range 8 = [0, 1, 2, 3, 4, 5, 6, 7] from rfl]
  have hsum : ∀ x y : Nat, BitVec.ofNat 8 (x + y) = BitVec.ofNat 8 x + BitVec.ofNat 8 y := fun x y => BitVec.ofNat_add x y
  cases b
  · interval_cases r <;> simp_all
  · rw [if_pos rfl, ← hsum]
    congr 1
    interval_cases r <;> simp_all <;> omega

/-! ## The serializer holds the stream -/

/-- After the pushes of `bits` from a cleared serializer in state `s0`. -/
structure Holds (s0 : State) (bits : List Bool) (s : State) : Prop where
  params : s.params = s0.params
  port : s.port = s0.port
  regs : s.regs = { s0.regs with
    serAcc := streamByte bits (bits.length / 8), serNb := BitVec.ofNat 3 bits.length
    serWp := BitVec.ofNat 32 (bits.length / 8) }
  done : ∀ k < bits.length / 8, s.readByte .pb k = streamByte bits k
  kept : ∀ sp a, ¬ (sp = .pb ∧ a < bits.length / 8) → s.readByte sp a = s0.readByte sp a

/-- The cleared serializer holds the empty stream. -/
theorem Holds.nil {s0 s : State} (hp : s.params = s0.params) (hq : s.port = s0.port)
    (hr : s.regs = { s0.regs with serAcc := 0, serNb := 0, serWp := 0 })
    (hm : ∀ sp a, s.readByte sp a = s0.readByte sp a) : Holds s0 [] s :=
  ⟨hp, hq, by rw [hr, List.length_nil, Nat.zero_div, streamByte_of_le _ (by simp)]; rfl, by simp, fun sp a _ => hm sp a⟩

/-- One push. -/
theorem Holds.push {s0 s : State} {bits : List Bool} (h : Holds s0 bits s) (b : Bool)
    (hlen : bits.length / 8 < 2 ^ 32) : Holds s0 (bits ++ [b]) (pushBit s b) := by
  have hnb : s.regs.serNb.toNat = bits.length % 8 := by rw [h.regs]; simp
  have hacc : s.regs.serAcc = streamByte bits (bits.length / 8) := by rw [h.regs]
  have hwp : s.regs.serWp.toNat = bits.length / 8 := by
    rw [h.regs]
    simp only [BitVec.toNat_ofNat]
    exact Nat.mod_eq_of_lt hlen
  have hl : (bits ++ [b]).length = bits.length + 1 := by simp
  by_cases h7 : bits.length % 8 = 7
  · have h1 : (bits.length + 1) / 8 = bits.length / 8 + 1 := by omega
    have hbyte := streamByte_append bits b
    rw [h7, Nat.sub_self, pow_zero, ← hacc] at hbyte
    rw [pushBit_full b (by omega), hwp]
    refine ⟨by simp [h.params], by simp [h.port], ?_, fun k hk => ?_, fun sp a ha => ?_⟩
    · rw [hl, h1, streamByte_of_le _ (by rw [hl]; omega)]
      simp only [updRegs_regs, writeBytes_regs, h.regs]
      have e1 : (0 : BitVec 3) = BitVec.ofNat 3 (bits.length + 1) := BitVec.eq_of_toNat_eq (by simp; omega)
      have e2 : BitVec.ofNat 32 (bits.length / 8) + 1 = BitVec.ofNat 32 (bits.length / 8 + 1) :=
        (BitVec.ofNat_add ..).symm
      exact congrArg₂ (fun a b => { s0.regs with serAcc := 0, serNb := a, serWp := b }) e1 e2
    · rw [hl, h1] at hk
      rw [updRegs_readByte, readByte_writeBytes]
      by_cases hkk : k = bits.length / 8
      · subst hkk
        rw [if_pos (by simp), hbyte]
        cases b <;> simp
      · rw [if_neg (by simp; omega), h.done k (by omega), streamByte_append_of_lt _ _ (by omega)]
    · rw [hl, h1] at ha
      rw [updRegs_readByte, readByte_writeBytes, if_neg, h.kept sp a (fun hh => ha ⟨hh.1, by omega⟩)]
      rintro ⟨rfl, h2, h3⟩
      simp only [List.length_cons, List.length_nil] at h3
      exact ha ⟨rfl, by omega⟩
  · have h1 : (bits.length + 1) / 8 = bits.length / 8 := by omega
    rw [pushBit_short b (by omega)]
    refine ⟨by simp [h.params], by simp [h.port], ?_, fun k hk => ?_, fun sp a ha => ?_⟩
    · rw [hl, h1, streamByte_append]
      simp only [updRegs_regs]
      rw [hacc, hnb]
      have e1 : s.regs.serNb + 1 = BitVec.ofNat 3 (bits.length + 1) := by
        rw [h.regs]
        exact (BitVec.ofNat_add ..).symm
      rw [e1, h.regs]
    · rw [hl, h1] at hk
      rw [updRegs_readByte, h.done k hk, streamByte_append_of_lt _ _ (by omega)]
    · rw [hl, h1] at ha
      rw [updRegs_readByte, h.kept sp a ha]

/-- A sequence of pushes. -/
theorem Holds.pushBits {s0 s : State} {bits : List Bool} (h : Holds s0 bits s) (bs : List Bool)
    (hlen : (bits.length + bs.length) / 8 < 2 ^ 32) : Holds s0 (bits ++ bs) (pushBits bs s) := by
  induction bs generalizing bits s with
  | nil => simpa using h
  | cons b bs ih =>
    have h1 := ih (h.push b (by simp only [List.length_cons] at hlen; omega))
      (by simp only [List.length_append, List.length_cons, List.length_nil] at hlen ⊢; omega)
    rw [pushBits_cons]
    simpa using h1

end Sys2Proof.Machine
end

