-- ==== Sys2Proof/Tests/Slice0.lean ====
section
/-! SUPPORT. Tests of the model against values that spec/95_test_vectors.md gives (worked out there, not by this model),
the smoke test of WellFormed, and for every statement with hypotheses a witness that meets them: one conjunct a clause,
at the boundary of its range. -/

namespace Sys2Proof.Tests

set_option Elab.async false

open Sys2Proof.Machine Sys2Proof.Spec

/-! ## Small states, their registers written out from the programs P3, P4 and P5 of 95_test_vectors.md -/

/-- MAX_SAMPLES = 64, CB_CAP = 16: the least the programs of 95_test_vectors.md ask for. -/
def small : Params := { maxSamples := 64, cbCap := 16 }

/-- A small block after power-on. -/
def blank : State := .powerOn small

/-- The given widths for channels 0 to 2, 0 for the others. -/
def threeWidths (a b c : BitVec 4) : Vector (BitVec 4) 256 := (((Vector.replicate 256 0).set 0 a).set 1 b).set 2 c

/-- P3 before its SETUP: a frame of one pixel, the name "exp". -/
def config0 : Regs :=
  { Regs.reset with
    frameW := 1, frameH := 1, chanC := 3, bw := threeWidths 5 8 6, metaCount := 1
    mname := (Vector.replicate 512 0).set 0 0x00707865 }

/-- P3 after its SETUP. -/
def ready0 : Regs :=
  { config0 with configured := true, ebw := threeWidths 5 8 6, nsamp := 3, sumb := 19, plenRaw := 3, hdrLen := 20 }

/-- P4 before its SETUP, but with P3's name. -/
def config1 : Regs := { config0 with gen := 1, compEn := true }

/-- P4 after its SETUP. -/
def ready1 : Regs :=
  { config1 with configured := true, ebw := threeWidths 5 8 6, nsamp := 3, sumb := 19, plenRaw := 3, hdrLen := 21 }

/-- P5 before its SETUP. -/
def config2 : Regs :=
  { Regs.reset with
    frameW := 2, frameH := 1, chanC := 3, uniform := true, ubits := 8, gen := 2, metaCount := 2
    mname := ((Vector.replicate 512 0).set 0 0x6E696167).set 2 0x00707865 }

/-- P5 after its SETUP. -/
def ready2 : Regs :=
  { config2 with configured := true, ebw := threeWidths 8 8 8, nsamp := 6, sumb := 24, plenRaw := 6, hdrLen := 16 }

/-- A packet at a stage of the framer's chain. -/
def staged (src : FSrc) (f : Bool) (p len : Word) (st : FState) (r : Regs) : Regs :=
  { r with fSrc := src, fComp := f, fPlen := p, pktLen := if st = .complete then len else 0, fstate := st }

/-- Generation 0 (P3) at a stage of its packet, the frame of P-e in its three buffers. -/
def gen0 (st : FState) : State :=
  { blank with
    regs := { staged .raw false 3 3095 st ready0 with
              serWp := 3, mval := (Vector.replicate 256 0).set 0 0x3F800000 }
    ifb := cells 0 [0xC8, 0x64, 0x32], qb := cells 0 [0x19, 0x64, 0x0C], pb := cells 0 [0xCB, 0x21, 0x80]
    pa := cells 4 [0x01, 0x00, 0x00, 0x00, 0x01, 0x00, 0x00, 0x00, 0x03, 0x05, 0x08, 0x06] }

/-- Generation 1 (P4) at a stage of its first packet, the payload AA BB in CB. -/
def gen1 (st : FState) : State :=
  { blank with
    regs := { staged .comp true 2 3095 st ready1 with serWp := 3, clen := 2, cvalid := true }
    pb := cells 0 [0xCB, 0x21, 0x80], cb := cells 0 [0xAA, 0xBB]
    pa := cells 4 [0x01, 0x00, 0x00, 0x00, 0x01, 0x00, 0x00, 0x00, 0x03, 0x05, 0x08, 0x06] }

/-- Generation 2 (P5) at a stage of its packet, the payload FF D8 FF in CB, the values 2.0 and 1.0 in MVAL. -/
def gen2 (st : FState) : State :=
  { blank with
    regs := { staged .ext false 3 19 st ready2 with
              clen := 3, cvalid := true
              mval := ((Vector.replicate 256 0).set 0 0x40000000).set 1 0x3F800000 }
    cb := cells 0 [0xFF, 0xD8, 0xFF]
    pa := cells 4 [0x02, 0x00, 0x00, 0x00, 0x01, 0x00, 0x00, 0x00]
    ma := cells 4 [0x02, 0x00, 0x00, 0x00, 0x67, 0x61, 0x69, 0x6E, 0x00, 0x00, 0x00, 0x00]
            ++ cells 20 [0x65, 0x78, 0x70, 0x00, 0x00, 0x00, 0x00, 0x00] }

/-- The state with other registers. -/
def withRegs (s : State) (f : Regs → Regs) : State := s.updRegs f

/-- The state an outcome goes on in. -/
def nextOf : Result → Option State
  | .next t => some t
  | .fault _ => none
  | .refused _ => none

/-- The state after a command. -/
def after (i : Instr) (s : State) : Option State := nextOf (exec i s)

/-- The state after a step with the three words on the port. -/
def afterWords (cmd addr data : Word) (s : State) : Option State :=
  nextOf (step { s with port := [⟨cmd, addr, data⟩] })

/-- ERR as RDREG shows it, after a command. -/
def errAfter (i : Instr) (s : State) : Option Word := (after i s).map fun t => t.regs.read .err

/-- The conjuncts of the invariant, so that a concrete state can be decided. -/
abbrev InvParts (s : State) : Prop :=
  s.params.wf = true
    ∧ (∀ sp ∈ [Space.ifb, .qb, .pb, .cb, .pa, .ma],
        (s.mem sp).wf ∧ ∀ c ∈ s.mem sp, c.1 < capacity s.params sp)
    ∧ s.regs.serAcc.toNat % 2 ^ (8 - s.regs.serNb.toNat) = 0
    ∧ s.regs.serWp.toNat ≤ s.params.maxSamples ∧ s.regs.clen.toNat ≤ s.params.cbCap
    ∧ (s.regs.configured = true →
        s.regs.frameW ≠ 0 ∧ s.regs.frameH ≠ 0 ∧ s.regs.chanC ≠ 0
          ∧ (s.regs.uniform = true → 1 ≤ s.regs.ubits.toNat ∧ s.regs.ubits.toNat ≤ 8)
          ∧ (s.regs.uniform = false → ∀ c < s.regs.channels, 1 ≤ s.regs.bwAt c ∧ s.regs.bwAt c ≤ 8)
          ∧ s.regs.gen ≠ 3 ∧ (s.regs.compEn = true → s.regs.gen = 1) ∧ s.regs.readings ≤ 256
          ∧ (∀ k < s.regs.readings, validName (s.regs.nameBytes k) = true)
          ∧ s.regs.frameW.toNat * s.regs.frameH.toNat * s.regs.channels ≤ s.params.maxSamples)
    ∧ (s.regs.configured = true →
        s.regs.nsamp.toNat = s.regs.frameW.toNat * s.regs.frameH.toNat * s.regs.channels
          ∧ s.regs.sumb.toNat = widthSum s.regs.widths s.regs.channels
          ∧ s.regs.plenRaw.toNat = ceilDiv8 (s.regs.frameW.toNat * s.regs.frameH.toNat * s.regs.sumb.toNat)
          ∧ s.regs.hdrLen.toNat = headerLen s.regs)
    ∧ (s.regs.configured = false → s.regs.fstate = .new ∧ s.regs.mpktValid = false)
    ∧ (s.regs.fstate ≠ .new →
        (s.regs.gen = 2 ↔ s.regs.fSrc = .ext) ∧ (s.regs.fSrc = .raw → s.regs.fPlen = s.regs.plenRaw)
          ∧ (s.regs.fSrc = .comp → s.regs.fPlen.toNat ≤ s.regs.plenRaw.toNat)
          ∧ (s.regs.fSrc ≠ .raw → s.regs.fPlen.toNat ≤ s.params.cbCap)
          ∧ (s.regs.fComp = true ↔ s.regs.fSrc = .comp))
    ∧ (s.regs.pktLen =
        if s.regs.fstate = .complete then lengthWord (s.regs.hdrLen.toNat + s.regs.fPlen.toNat + tableLen s.regs) else 0)
    ∧ (s.regs.mpktValid = true → s.regs.gen = 2 ∧ s.regs.mpktLen.toNat = 8 + 12 * s.regs.readings)
    ∧ (s.regs.errCode = .noError → s.regs.errOp = 0 ∧ s.regs.errInfo = 0 ∧ s.regs.errMore = false)
    ∧ (s.regs.errCode ≠ .configError → s.regs.errInfo = 0)

theorem inv_of_parts {s : State} (hw : s.regs.ebw = effectiveWidths s.regs) (h : InvParts s) : s.Inv := by
  obtain ⟨hp, hm, h1, h2, h3, hl, hd, hu, hk, h4, h5, h6, h7⟩ := h
  have mem : ∀ sp, MemOk s.params sp (s.mem sp) := fun sp =>
    ⟨(hm sp (by cases sp <;> decide)).1, (hm sp (by cases sp <;> decide)).2⟩
  exact
    { params := hp, ifb := mem .ifb, qb := mem .qb, pb := mem .pb, cb := mem .cb, pa := mem .pa, ma := mem .ma
      serLow := h1, serWp := h2, clen := h3, unconfigured := hu, packetLength := h4, metaPacket := h5
      noRecord := h6, info := h7
      legal := fun c => by
        obtain ⟨a1, a2, a3, a4, a5, a6, a7, a8, a9, a10⟩ := hl c
        exact ⟨a1, a2, a3, a4, a5, a6, a7, a8, a9, a10⟩
      derived := fun c => by
        obtain ⟨a2, a3, a4, a5⟩ := hd c
        exact ⟨hw, a2, a3, a4, a5⟩
      latched := fun c => by
        obtain ⟨a1, a2, a3, a4, a5⟩ := hk c
        exact ⟨a1, a2, a3, a4, a5⟩ }

theorem effectiveWidths_none {r : Regs} (hr : r = Regs.reset) : r.ebw = effectiveWidths r := by
  subst hr
  apply Vector.ext
  intro i hi
  simp [effectiveWidths, Regs.reset, Regs.channels]

theorem threeWidths_getElem (a b c : BitVec 4) (i : Nat) (hi : i < 256) :
    (threeWidths a b c)[i] = if i = 0 then a else if i = 1 then b else if i = 2 then c else 0 := by
  match i with
  | 0 | 1 | 2 => rfl
  | n + 3 => simp [threeWidths]

theorem effectiveWidths_three {r : Regs} {a b c : BitVec 4} (hc : r.channels = 3)
    (hw : if r.uniform then r.ubits = a ∧ r.ubits = b ∧ r.ubits = c else r.bw = threeWidths a b c) :
    threeWidths a b c = effectiveWidths r := by
  apply Vector.ext
  intro i hi
  have three : (effectiveWidths r)[i] = if i < 3 then (if r.uniform then r.ubits else r.bw[i]) else 0 := by
    simp [effectiveWidths, hc]
  rw [three, threeWidths_getElem]
  split at hw
  · rename_i hu
    rw [if_pos hu]
    obtain ⟨ha, hb, hc'⟩ := hw
    split <;> rename_i h0
    · rw [if_pos (by omega), ha]
    split <;> rename_i h1
    · rw [if_pos (by omega), hb]
    split <;> rename_i h2
    · rw [if_pos (by omega), hc']
    rw [if_neg (by omega)]
  · rename_i hu
    simp only [if_neg hu, hw, threeWidths_getElem]
    by_cases h : i < 3
    · rw [if_pos h]
    · rw [if_neg h, if_neg (by omega), if_neg (by omega), if_neg (by omega)]

theorem blank_inv : blank.Inv := by
  refine inv_of_parts (effectiveWidths_none rfl) ⟨?_, ?_, ?_, ?_, ?_, ?_, ?_, ?_, ?_, ?_, ?_, ?_, ?_⟩ <;> decide +kernel

theorem gen0_inv (st : FState) : (gen0 st).Inv := by
  have hw : ∀ st, (gen0 st).regs.ebw = effectiveWidths (gen0 st).regs := fun _ => effectiveWidths_three rfl rfl
  cases st <;> refine inv_of_parts (hw _) ⟨?_, ?_, ?_, ?_, ?_, ?_, ?_, ?_, ?_, ?_, ?_, ?_, ?_⟩ <;> decide +kernel

theorem gen1_inv (st : FState) : (gen1 st).Inv := by
  have hw : ∀ st, (gen1 st).regs.ebw = effectiveWidths (gen1 st).regs := fun _ => effectiveWidths_three rfl rfl
  cases st <;> refine inv_of_parts (hw _) ⟨?_, ?_, ?_, ?_, ?_, ?_, ?_, ?_, ?_, ?_, ?_, ?_, ?_⟩ <;> decide +kernel

theorem gen2_inv (st : FState) : (gen2 st).Inv := by
  have hw : ∀ st, (gen2 st).regs.ebw = effectiveWidths (gen2 st).regs :=
    fun _ => effectiveWidths_three rfl ⟨rfl, rfl, rfl⟩
  cases st <;> refine inv_of_parts (hw _) ⟨?_, ?_, ?_, ?_, ?_, ?_, ?_, ?_, ?_, ?_, ?_, ?_, ?_⟩ <;> decide +kernel

theorem constant_headers :
    (gen0 .new).ConstantHeader ∧ (gen1 .new).ConstantHeader ∧ (gen2 .new).ConstantHeader := by
  unfold State.ConstantHeader
  decide +kernel

/-! ## WellFormed (30_encoding.md R81, R82): the one check refuses a bit count SEL cannot carry -/

theorem test_wf_refuses_bit_count_16 : (Instr.spush 16 0).wf = false := by decide

theorem test_wf_admits_bit_count_15 : (Instr.spush 15 0).wf = true := by decide

/-! ## Decoding: words written out from R81 (OP [7:0], SEL [11:8], 0 above), R84 and R85 -/

/-- Control family: the words of programs P1, P3, P6 and of the table 2.3. -/
theorem test_decode_control :
    decode ⟨0x00000000, 0xFFFFFFFF, 0xFFFFFFFF⟩ = .ok .nop
      ∧ decode ⟨0x00000001, 0x00000407, 0x7FC00001⟩ = .ok (.wrreg 0x407 0x7FC00001)
      ∧ decode ⟨0x00000002, 0x0000000B, 0⟩ = .ok (.rdreg 0xB)
      ∧ decode ⟨0x00000303, 1, 0x000000BB⟩ = .ok (.wrmem .cb 1 0xBB)
      ∧ decode ⟨0x00000204, 2, 0⟩ = .ok (.rdmem .pb 2)
      ∧ decode ⟨0x00000005, 0, 0⟩ = .ok .setup ∧ decode ⟨0x00000006, 0, 0⟩ = .ok .clrerr
      ∧ decode ⟨0x00000007, 0, 0⟩ = .ok .sreset := by decide

/-- The six SEL numbers (20_memory.md R60). -/
theorem test_decode_spaces :
    decode ⟨0x00000003, 0, 0⟩ = .ok (.wrmem .ifb 0 0) ∧ decode ⟨0x00000104, 0, 0⟩ = .ok (.rdmem .qb 0)
      ∧ decode ⟨0x00000203, 0, 0⟩ = .ok (.wrmem .pb 0 0) ∧ decode ⟨0x00000304, 0, 0⟩ = .ok (.rdmem .cb 0)
      ∧ decode ⟨0x00000403, 0, 0⟩ = .ok (.wrmem .pa 0 0) ∧ decode ⟨0x00000504, 0, 0⟩ = .ok (.rdmem .ma 0)
      ∧ decode ⟨0x00000604, 0, 0⟩ = .error .noSuchSpace ∧ decode ⟨0x00000F03, 0, 0⟩ = .error .noSuchSpace := by decide

/-- Quantizer and packer families: the words of table 2.1, programs P1, P2 and P7. -/
theorem test_decode_codec :
    decode ⟨0x00000008, 0, 0xC8⟩ = .ok (.qsample 0 0xC8) ∧ decode ⟨0x00000009, 0, 0⟩ = .ok .quant
      ∧ decode ⟨0x0000000A, 0, 0⟩ = .ok .pack ∧ decode ⟨0x0000000B, 0, 0⟩ = .ok .qpack
      ∧ decode ⟨0x0000000C, 0, 0⟩ = .ok .srst ∧ decode ⟨0x0000030D, 0, 5⟩ = .ok (.spush 3 5)
      ∧ decode ⟨0x0000000D, 0, 0⟩ = .ok (.spush 0 0) ∧ decode ⟨0x00000F0D, 0, 0⟩ = .ok (.spush 15 0)
      ∧ decode ⟨0x0000000E, 0, 0⟩ = .ok .sflush := by decide

/-- Framer family: the words of programs P3 and P5 and of vector F-p. -/
theorem test_decode_framer :
    decode ⟨0x00000010, 1, 2⟩ = .ok (.fhdr 1 2) ∧ decode ⟨0x00000011, 0, 0⟩ = .ok .fpay
      ∧ decode ⟨0x00000012, 0, 0⟩ = .ok .fmeta ∧ decode ⟨0x00000013, 0, 0⟩ = .ok .fdone
      ∧ decode ⟨0x00000014, 0, 0x3E8⟩ = .ok (.mpkt 0 0x3E8) := by decide

/-- Illegal words (R82, R86), the vectors C-m to C-p and the last opcode. -/
theorem test_decode_rejects :
    decode ⟨0x00000603, 0, 0⟩ = .error .noSuchSpace ∧ decode ⟨0x0000000F, 0, 0⟩ = .error .unassignedOpcode
      ∧ decode ⟨0x00000015, 0, 0⟩ = .error .unassignedOpcode ∧ decode ⟨0x000000FF, 0, 0⟩ = .error .unassignedOpcode
      ∧ decode ⟨0x00001000, 0, 0⟩ = .error .reservedBits ∧ decode ⟨0x80000000, 0, 0⟩ = .error .reservedBits
      ∧ decode ⟨0x00000105, 0, 0⟩ = .error .selNotZero := by decide

/-- The encoder writes the words of P3, P4, P5 and P7. -/
theorem test_encode :
    encode (.wrreg 0x200 0x00707865) = ⟨0x00000001, 0x00000200, 0x00707865⟩
      ∧ encode (.wrmem .cb 2 0xFF) = ⟨0x00000303, 2, 0xFF⟩ ∧ encode (.spush 8 0x5A) = ⟨0x0000080D, 0, 0x5A⟩
      ∧ encode (.fhdr 0 0x12345678) = ⟨0x00000010, 0, 0x12345678⟩ := by decide

/-- The opcode table's numbering: CMD in bits 31..0, ADDR in bits 63..32, DATA in bits 95..64, absent words 0. -/
theorem test_table_word :
    decodeTableWord 32 0x0000030D = some (.spush 3 0)
      ∧ decodeTableWord 96 0x0000000500000001_0000030D = some (.spush 3 5)
      ∧ decodeTableWord 96 0x0000014000000002_00000001 = some (.wrreg 2 320)
      ∧ decodeTableWord 32 0x0000000F = none := by decide

/-- The word laid on the port is the one the next step performs: RDREG GEN from reset answers 0. -/
theorem test_fetch_word :
    (nextOf (step (State.reset.withFetchWord 96 0x0000000000000005_00000002))).bind State.resp = some 0 := by
  decide +kernel

/-- The space commands, whose check of the address reads the parameters, run as the first command whatever these are:
WRMEM IFB, 0, 0 answers 0 without an error, RDMEM CB, 0 without an error. -/
theorem test_first_space_commands :
    (nextOf (step (State.reset.withFetchWord 32 0x00000003))).map (fun t => (t.resp, t.regs.read .err))
        = some (some 0, 0)
      ∧ (nextOf (step (State.reset.withFetchWord 32 0x00000304))).map (fun t => t.regs.read .err) = some 0 := by
  decide +kernel

/-! ## Control commands -/

/-- C-q. -/
theorem test_nop_ignores_operands :
    (afterWords 0x00000000 0xFFFFFFFF 0xFFFFFFFF blank).map (fun t => (t.resp, t.regs.read .err)) = some (some 0, 0) := by
  decide +kernel

/-- C-h: MVAL[7] takes a pattern that is no number, in a configured block. -/
theorem test_wrreg_frame_register_while_configured :
    (afterWords 0x00000001 0x00000407 0x7FC00001 (gen0 .new)).map
      (fun t => (t.regs.read (.mval 7), t.regs.read .err)) = some (0x7FC00001, 0) := by decide +kernel

/-- C-g: a CFG register is locked; C-b: a reserved bit; C-e, C-f: undefined index, RO class. -/
theorem test_wrreg_errors :
    errAfter (.wrreg 0x000 5) (gen0 .new) = some 0x00000103 ∧ errAfter (.wrreg 0x002 0x100) blank = some 0x00000105
      ∧ errAfter (.wrreg 0x016 0) blank = some 0x00000104 ∧ errAfter (.wrreg 0x007 1) blank = some 0x00000104
      ∧ errAfter (.wrreg 0x00F 17) blank = some 0x00000105 := by decide +kernel

/-- STATUS at the end of P3 (0x41) and of P5: by R35, F_SRC 2 in [11:10], MPKT_VALID in [9], FSTATE 4 in [6:4], CONFIGURED. -/
theorem test_rdreg_status :
    (after (.rdreg 0x007) (gen0 .complete)).bind State.resp = some 0x00000041
      ∧ (after (.rdreg 0x007) (withRegs (gen2 .complete) fun r => { r with mpktValid := true })).bind State.resp
          = some 0x00000A41 := by decide +kernel

/-- P7: RDREG SER after SPUSH 3, 5. -/
theorem test_rdreg_ser :
    (after (.rdreg 0x00D) (withRegs blank fun r => { r with serAcc := 0xA0, serNb := 3 })).bind State.resp
      = some 0x000003A0 := by decide +kernel

/-- P1: WRMEM IFB, 0, 200. -/
theorem test_wrmem_stores_one_byte :
    (after (.wrmem .ifb 0 200) (gen1 .new)).map (fun t => (t.ifb, t.pb)) = some ([(0, 0xC8)], (gen1 .new).pb) := by
  decide +kernel

/-- C-j, C-k, C-l. -/
theorem test_wrmem_errors :
    errAfter (.wrmem .pa 0 0) blank = some 0x00000304 ∧ errAfter (.wrmem .ifb 64 0) blank = some 0x00000304
      ∧ errAfter (.wrmem .ifb 0 0x100) blank = some 0x00000305 := by decide +kernel

/-- P1: RDMEM PB, 1. -/
theorem test_rdmem_answers_the_byte :
    (after (.rdmem .pb 1) (gen0 .new)).bind State.resp = some 0x21
      ∧ errAfter (.rdmem .pb 64) (gen0 .new) = some 0x00000404 := by decide +kernel

/-- P3: the derived registers, and the constant header bytes 4 to 15 of its packet. -/
theorem test_setup_generation_0 :
    (after .setup { blank with regs := config0 }).map (fun t =>
        ([t.regs.nsamp, t.regs.sumb, t.regs.plenRaw, t.regs.hdrLen, t.regs.read (.ebw 1), t.regs.read .status],
          t.readBytes .pa 4 12))
      = some ([3, 19, 3, 20, 8, 1], [0x01, 0x00, 0x00, 0x00, 0x01, 0x00, 0x00, 0x00, 0x03, 0x05, 0x08, 0x06]) := by
  decide +kernel

/-- P5: HDR_LEN, the widths of uniform mode, and the bytes of PA and MA that SETUP writes. -/
theorem test_setup_generation_2 :
    (after .setup { blank with regs := config2 }).map (fun t =>
        ([t.regs.nsamp, t.regs.sumb, t.regs.plenRaw, t.regs.hdrLen, t.regs.read (.ebw 2), t.regs.read (.ebw 3)],
          t.readBytes .pa 4 8, t.readBytes .ma 4 12, t.readBytes .ma 20 8))
      = some ([6, 24, 6, 16, 8, 0], [0x02, 0x00, 0x00, 0x00, 0x01, 0x00, 0x00, 0x00],
          [0x02, 0x00, 0x00, 0x00, 0x67, 0x61, 0x69, 0x6E, 0x00, 0x00, 0x00, 0x00],
          [0x65, 0x78, 0x70, 0x00, 0x00, 0x00, 0x00, 0x00]) := by decide +kernel

/-- P6: the record CONFIG_ERROR check 5 and then a further error, cleared. -/
theorem test_clrerr_clears_the_record :
    (after .clrerr (withRegs blank fun r =>
        { r with errCode := .configError, errOp := 5, errInfo := 5, errMore := true })).map (fun t => t.regs.read .err)
      = some 0 := by decide +kernel

/-- R109: registers reset, memory kept. -/
theorem test_sreset_keeps_memory :
    (after .sreset (gen0 .complete)).map (fun t =>
        ([t.regs.read .status, t.regs.frameW, t.regs.read (.ebw 0), t.regs.read (.mname 0)], t.readBytes .pb 0 3))
      = some ([0, 0, 0, 0], [0xCB, 0x21, 0x80]) := by decide +kernel

/-- C-r, P6: the first error is kept, a further one sets ERR_MORE. -/
theorem test_second_error_is_counted :
    errAfter .quant (withRegs blank fun r => { r with errCode := .configError, errOp := 5, errInfo := 5 })
      = some 0x80050502 := by decide +kernel

/-- P6: an unassigned opcode. -/
theorem test_illegal_command_is_recorded :
    (afterWords 0x0000000F 0 0 blank).map (fun t => (t.resp, t.regs.read .err)) = some (some 0, 0x00000F01) := by
  decide +kernel

/-! ## Quantizer -/

/-- The table of 2.1, the rows 0x7F, 0x80, 0xC8 and 0xFF. -/
theorem test_quant_table :
    (List.range 8).map (fun k => quant 0x7F (k + 1)) = [0, 1, 3, 7, 15, 31, 63, 127]
      ∧ (List.range 8).map (fun k => quant 0x80 (k + 1)) = [1, 2, 4, 8, 16, 32, 64, 128]
      ∧ (List.range 8).map (fun k => quant 0xC8 (k + 1)) = [1, 3, 6, 12, 25, 50, 100, 200]
      ∧ (List.range 8).map (fun k => quant 0xFF (k + 1)) = [1, 3, 7, 15, 31, 63, 127, 255] := by decide +kernel

/-- QSAMPLE's vectors of 2.1. -/
theorem test_qsample :
    (after (.qsample 0 200) (gen0 .new)).bind State.resp = some 0x19
      ∧ (after (.qsample 2 50) (gen0 .new)).bind State.resp = some 0x0C
      ∧ errAfter (.qsample 3 0) (gen0 .new) = some 0x00000804 ∧ errAfter (.qsample 0 256) (gen0 .new) = some 0x00000805
      ∧ errAfter (.qsample 0 0) blank = some 0x00000803 := by decide +kernel

/-- The frame of P-f: 2 x 1 pixels, widths 5, 8, 6. -/
def twoPixels : State :=
  { withRegs (gen0 .new) (fun r => { r with frameW := 2, nsamp := 6, plenRaw := 5 }) with
    ifb := cells 0 [0xC8, 0x64, 0x32, 0xFF, 0xFF, 0xFF]
    qb := cells 0 [0xAA, 0xAA, 0xAA] }

/-- QUANT's vector of 2.1. -/
theorem test_quant : (after .quant twoPixels).map (fun t => t.readBytes .qb 0 6)
    = some [0x19, 0x64, 0x0C, 0x1F, 0xFF, 0x3F] := by decide +kernel

/-! ## Packer -/

/-- Vectors P-a, P-c and P-d of 2.2, from the quantized samples. -/
theorem test_pack_vectors :
    pack (fun _ => 1) 3 [1, 0, 1, 0, 1, 0, 1, 1, 1] = [0xAB, 0x80]
      ∧ pack (fun _ => 7) 1 (List.replicate 8 0x7F) = List.replicate 7 0xFF
      ∧ pack (fun c => if c = 0 then 3 else 5) 2 [7, 1, 1, 31] = [0xE1, 0x3F] := by decide +kernel

/-- Vector P-e, with CVALID cleared. -/
theorem test_pack :
    (after .pack (withRegs (gen0 .new) fun r => { r with cvalid := true, serWp := 0 })).map (fun t =>
        (t.readBytes .pb 0 3, t.regs.cvalid, t.regs.serWp)) = some ([0xCB, 0x21, 0x80], false, 3) := by decide +kernel

/-- The corner case of 2.2: QB[0] = 0x20 does not fit 5 bits; PB, SER and CVALID are unchanged. -/
theorem test_pack_value_error :
    (after .pack { gen1 .new with qb := cells 0 [0x20, 0x64, 0x0C] }).map (fun t =>
        (t.regs.read .err, t.pb, t.regs.serWp, t.regs.cvalid))
      = some (0x00000A05, (gen1 .new).pb, 3, true) := by decide +kernel

/-- Vector P-f; QB keeps its bytes. -/
theorem test_qpack :
    (after .qpack twoPixels).map (fun t => (t.readBytes .pb 0 5, t.readBytes .qb 0 3, t.regs.serWp))
      = some ([0xCB, 0x21, 0x9F, 0xFF, 0xFC], [0xAA, 0xAA, 0xAA], 5) := by decide +kernel

/-- R131: the cursor and CVALID, not PB. -/
theorem test_srst :
    (after .srst (gen1 .new)).map (fun t => (t.regs.read .ser, t.regs.serWp, t.regs.cvalid, t.readByte .pb 0))
      = some (0, 0, false, 0xCB) := by decide +kernel

/-- Step 3 of the serializer table of 2.2. -/
theorem test_spush_completes_a_byte :
    (after (.spush 8 0xFF) (withRegs blank fun r => { r with serAcc := 0xA0, serNb := 3 })).map (fun t =>
        (t.regs.read .ser, t.regs.serWp, t.readByte .pb 0)) = some (0x000003E0, 1, 0xBF) := by decide +kernel

/-- Steps 7 to 9, and SER_WP = MAX_SAMPLES: an error only where a byte completes. -/
theorem test_spush_errors :
    errAfter (.spush 3 8) blank = some 0x00000D05 ∧ errAfter (.spush 0 0) blank = some 0x00000D05
      ∧ errAfter (.spush 9 0) blank = some 0x00000D05
      ∧ errAfter (.spush 1 1) (withRegs blank fun r => { r with serNb := 7, serWp := 64 }) = some 0x00000D04
      ∧ errAfter (.spush 1 1) (withRegs blank fun r => { r with serNb := 6, serWp := 64 }) = some 0 := by decide +kernel

/-- Steps 4 and 5: a partial byte, then none. -/
theorem test_sflush :
    (after .sflush (withRegs blank fun r => { r with serAcc := 0xE0, serNb := 3, serWp := 1 })).map (fun t =>
        (t.regs.read .ser, t.regs.serWp, t.pb)) = some (0, 2, [(1, 0xE0)])
      ∧ (after .sflush (withRegs blank fun r => { r with serWp := 2 })).map (fun t => (t.regs.serWp, t.pb))
          = some (2, []) := by decide +kernel

/-! ## Framer -/

/-- P3: the variable header fields in PA. -/
theorem test_fhdr_generation_0 :
    (after (.fhdr 0 0x12345678) (gen0 .new)).map (fun t =>
        (t.readBytes .pa 0 4, t.readBytes .pa 16 4, t.regs.read .status, t.regs.fPlen))
      = some ([0x78, 0x56, 0x34, 0x12], [3, 0, 0, 0], 0x00000011, 3) := by decide +kernel

/-- P4: compressed with CLEN = 2 and flag 1, raw with CLEN = 4 and flag 0. -/
theorem test_fhdr_generation_1 :
    (after (.fhdr 0 7) (gen1 .new)).map (fun t => (t.readBytes .pa 16 5, t.regs.fSrc))
        = some ([1, 2, 0, 0, 0], .comp)
      ∧ (after (.fhdr 0 8) (withRegs (gen1 .new) fun r => { r with clen := 4 })).map (fun t =>
          (t.readBytes .pa 16 5, t.regs.fSrc)) = some ([0, 3, 0, 0, 0], .raw) := by decide +kernel

/-- P3: the payload from PB behind the header; F-c: not before FHDR. -/
theorem test_fpay :
    (after .fpay (gen0 .headerWritten)).map (fun t => t.readBytes .pa 20 3) = some [0xCB, 0x21, 0x80]
      ∧ (after .fpay (gen2 .headerWritten)).map (fun t => t.readBytes .pa 16 3) = some [0xFF, 0xD8, 0xFF]
      ∧ errAfter .fpay (gen0 .new) = some 0x00001103 := by decide +kernel

/-- P3: slot 0 at 23, unused slots zero up to 3094; F-d. -/
theorem test_fmeta :
    (after .fmeta (gen0 .payloadWritten)).map (fun t => (t.readBytes .pa 23 12, t.readByte .pa 35, t.readByte .pa 3094))
        = some ([0x65, 0x78, 0x70, 0x00, 0x00, 0x00, 0x00, 0x00, 0x00, 0x00, 0x80, 0x3F], 0x00, 0x00)
      ∧ errAfter .fmeta (gen0 .headerWritten) = some 0x00001203 := by decide +kernel

/-- PKT_LEN of P3, P4 and P5, CVALID cleared; F-e. -/
theorem test_fdone :
    (after .fdone (gen0 .metadataWritten)).map (fun t => (t.regs.pktLen, t.regs.read .status)) = some (3095, 0x00000041)
      ∧ (after .fdone (gen1 .metadataWritten)).map (fun t => (t.regs.pktLen, t.regs.cvalid)) = some (3095, false)
      ∧ (after .fdone (gen2 .metadataWritten)).map (fun t => (t.regs.pktLen, t.regs.cvalid)) = some (19, false)
      ∧ errAfter .fdone (gen0 .payloadWritten) = some 0x00001303 := by decide +kernel

/-- P5: MA[0 : 32]; F-n: not in generation 0. -/
theorem test_mpkt :
    (after (.mpkt 0 1000) (gen2 .new)).bind State.metaPacket
        = some [0xE8, 0x03, 0x00, 0x00, 0x02, 0x00, 0x00, 0x00, 0x67, 0x61, 0x69, 0x6E, 0x00, 0x00, 0x00, 0x00,
                0x00, 0x00, 0x00, 0x40, 0x65, 0x78, 0x70, 0x00, 0x00, 0x00, 0x00, 0x00, 0x00, 0x00, 0x80, 0x3F]
      ∧ errAfter (.mpkt 0 5) (gen0 .new) = some 0x00001403 := by decide +kernel

/-! ## Reference functions and pseudo-commands -/

/-- The vectors of 2.5. -/
theorem test_unpack :
    unpack [0xAB, 0x81, 0xFF] (fun _ => 1) 1 3 3 = .samples [1, 0, 1, 0, 1, 0, 1, 1, 1]
      ∧ unpack [0xAB] (fun _ => 1) 1 3 3 = .truncatedInput ∧ unpack [] (fun _ => 1) 1 1 1 = .truncatedInput
      ∧ unpack [0xCB, 0x21, 0x80] (fun c => [5, 8, 6].getD c 0) 1 1 3 = .samples [25, 100, 12]
      ∧ dequant 31 5 = 248 ∧ dequant 12 6 = 48 := by decide +kernel

/-- R89: WRNAME 0, "exp" and WRUNIFORM 8 as P3 and P5 write them. -/
theorem test_pseudo_commands :
    pseudoWrname 0 [0x65, 0x78, 0x70] = [.wrreg 0x200 0x00707865, .wrreg 0x201 0]
      ∧ pseudoWruniform 8 = [.wrreg 0x003 0x81] ∧ pseudoFrame (2 ^ 32 + 2) = [.fhdr 1 2, .fpay, .fmeta, .fdone] := by
  decide +kernel

/-- R223 part (1): the CFG writes of P1 (per-channel widths), in P1's words. -/
theorem test_boot_per_channel :
    ((configurationWrites ⟨1, 1, .perChannel [5, 8, 6], 0, 0, []⟩).take 7).map encode
      = [⟨1, 0x000, 1⟩, ⟨1, 0x001, 1⟩, ⟨1, 0x002, 3⟩, ⟨1, 0x003, 0⟩, ⟨1, 0x100, 5⟩, ⟨1, 0x101, 8⟩, ⟨1, 0x102, 6⟩] := by
  decide +kernel

/-- R223 parts (1) and (2): P5 from its first word to SETUP (uniform widths), with the write of COMP_EN it leaves out. -/
theorem test_boot_uniform :
    ((bootCommands ⟨2, 1, .uniform 3 8, 2, 0, [[0x67, 0x61, 0x69, 0x6E], [0x65, 0x78, 0x70]]⟩).map encode)
      = [ ⟨1, 0x000, 2⟩, ⟨1, 0x001, 1⟩, ⟨1, 0x002, 3⟩, ⟨1, 0x003, 0x81⟩, ⟨1, 0x005, 2⟩, ⟨1, 0x004, 0⟩, ⟨1, 0x006, 2⟩
        , ⟨1, 0x200, 0x6E696167⟩, ⟨1, 0x201, 0⟩, ⟨1, 0x202, 0x00707865⟩, ⟨1, 0x203, 0⟩, ⟨5, 0, 0⟩ ] := by decide +kernel

/-- R223, the per-frame sequence: P3 from its first WRMEM. -/
theorem test_frame_sequence :
    (frameCommands 16 ready0 ⟨[0xC8, 0x64, 0x32], .fused, none, [(0, 0x3F800000)], 0x12345678⟩).map encode
      = [ ⟨3, 0, 0xC8⟩, ⟨3, 1, 0x64⟩, ⟨3, 2, 0x32⟩, ⟨0xB, 0, 0⟩, ⟨1, 0x400, 0x3F800000⟩
        , ⟨0x10, 0, 0x12345678⟩, ⟨0x11, 0, 0⟩, ⟨0x12, 0, 0⟩, ⟨0x13, 0, 0⟩ ] := by decide +kernel

/-- R223, the payload in generations 1 and 2: P4's four words behind the reads of PB, P5's five words. -/
theorem test_payload_sequence :
    (payloadCommands 16 ready1 ⟨[], .fused, some [0xAA, 0xBB], [], 7⟩).map encode
        = [⟨0x204, 0, 0⟩, ⟨0x204, 1, 0⟩, ⟨0x204, 2, 0⟩]
          ++ [⟨0x303, 0, 0xAA⟩, ⟨0x303, 1, 0xBB⟩, ⟨1, 0x00F, 2⟩, ⟨1, 0x010, 1⟩]
      ∧ (payloadCommands 3 ready2 ⟨[], .fused, some [0xFF, 0xD8, 0xFF], [], 1000⟩).map encode
        = [⟨0x303, 0, 0xFF⟩, ⟨0x303, 1, 0xD8⟩, ⟨0x303, 2, 0xFF⟩, ⟨1, 0x00F, 3⟩, ⟨1, 0x010, 1⟩] := by decide +kernel

/-- R230, "on failure leave CVALID = 0": a payload one byte longer than CB is not supplied. -/
theorem test_payload_too_long : payloadCommands 2 ready2 ⟨[], .fused, some [0xFF, 0xD8, 0xFF], [], 1000⟩ = [] := by decide

/-! ## Witnesses: for every statement with hypotheses, states and operands that meet them -/

/-- A state that differs from one that meets the invariant only in the port meets it. -/
theorem inv_with_port {s : State} (h : s.Inv) (port : List Command) : { s with port := port }.Inv :=
  ⟨h.params, h.ifb, h.qb, h.pb, h.cb, h.pa, h.ma, h.serLow, h.serWp, h.clen, h.legal, h.derived, h.unconfigured,
    h.latched, h.packetLength, h.metaPacket, h.noRecord, h.info⟩

theorem goes_on {r : Result} (p : State → Bool) (h : (nextOf r).any p = true) : ∃ t, r = .next t ∧ p t = true := by
  cases r with
  | next t => exact ⟨t, rfl, h⟩
  | fault f => exact absurd h (by simp [nextOf])
  | refused f => exact absurd h (by simp [nextOf])

/-- The command runs to a state with the property. -/
theorem runs_to {i : Instr} {s : State} (p : State → Bool) (h : (after i s).any p = true) :
    ∃ t, exec i s = .next t ∧ p t = true := goes_on p h

theorem witness_DecodeOfEncode : (Instr.spush 15 0xFFFFFFFF).wf = true ∧ (Instr.spush 0 0).wf = true := by decide

/-- Every clause: an opcode of both operand lists, one of the first only, one of the second only. -/
theorem witness_EncodeOfDecode :
    decode ⟨0x00000303, 5, 6⟩ = .ok (.wrmem .cb 5 6) ∧ decode ⟨0x00000504, 5, 6⟩ = .ok (.rdmem .ma 5)
      ∧ decode ⟨0x00000F0D, 5, 6⟩ = .ok (.spush 15 6) := by decide

/-- Each clause of R82 at its boundary, and legal words next to them. -/
theorem witness_IllegalCommandsAreRecorded :
    (IllegalWord 0x0F ∧ IllegalWord 0x15 ∧ IllegalWord 0x1000 ∧ IllegalWord 0x105 ∧ IllegalWord 0x603)
      ∧ (¬ IllegalWord 0x0E ∧ ¬ IllegalWord 0x10 ∧ ¬ IllegalWord 0x14 ∧ ¬ IllegalWord 0x503 ∧ ¬ IllegalWord 0xF0D)
      ∧ { blank with port := [⟨0x0F, 0, 0⟩] }.port = ⟨0x0F, 0, 0⟩ :: [] := by
  unfold IllegalWord
  refine ⟨by decide, by decide, rfl⟩

theorem witness_UnusedOperandsHaveNoEffect :
    (0x00000012#32).toNat % 256 ∈ [0x00, 0x05, 0x06, 0x07, 0x09, 0x0A, 0x0B, 0x0C, 0x0E, 0x11, 0x12, 0x13]
      ∧ (0x00000204#32).toNat % 256 ∈ [0x02, 0x04] ∧ (0x00000014#32).toNat % 256 ∈ [0x0D, 0x10, 0x14] := by decide

theorem witness_StepPerformsTheNextCommand :
    { blank with port := [⟨0x00000007, 0, 0⟩] }.port = ⟨0x00000007, 0, 0⟩ :: []
      ∧ decode ⟨0x00000007, 0, 0⟩ = .ok .sreset := by
  refine ⟨rfl, by decide⟩

theorem witness_NothingHappensWithoutACommand : State.reset.port = [] := rfl

/-- The smallest and the largest block. -/
theorem witness_ResetMeetsTheInvariant :
    (⟨1, 1⟩ : Params).wf = true ∧ (⟨2 ^ 32 - 3345, 2 ^ 32 - 16⟩ : Params).wf = true := by decide

/-- FPAY waits on the port of a block that has a header. -/
def beforeFpay (s : State) : State := { s with port := [⟨0x00000011, 0, 0⟩] }

theorem witness_StepKeepsTheInvariant :
    (beforeFpay (gen0 .headerWritten)).Inv ∧ ∃ t, step (beforeFpay (gen0 .headerWritten)) = .next t
      ∧ decide (t.regs.fstate = .payloadWritten) = true :=
  ⟨inv_with_port (gen0_inv _) _, goes_on _ (by decide +kernel)⟩

theorem witness_TheBlockNeverStops : blank.Inv ∧ (gen0 .complete).Inv := ⟨blank_inv, gen0_inv _⟩

/-- In generations 0 and 2, a command that is not SETUP, with the first and last addresses of the three ranges. -/
theorem witness_OnlySetupWritesTheConstantHeader :
    ((beforeFpay (gen0 .headerWritten)).Inv ∧ (beforeFpay (gen2 .headerWritten)).Inv)
      ∧ decode ⟨0x00000011, 0, 0⟩ ≠ .ok .setup
      ∧ (∃ t, step (beforeFpay (gen0 .headerWritten)) = .next t ∧ decide (t.readByte .pa 15 = 0x06) = true)
      ∧ (∃ t, step (beforeFpay (gen2 .headerWritten)) = .next t
          ∧ (decide (t.readByte .pa 11 = 0x00) && decide (t.readByte .ma 7 = 0x00)
              && decide (t.readByte .ma 20 = 0x65)) = true) :=
  ⟨⟨inv_with_port (gen0_inv _) _, inv_with_port (gen2_inv _) _⟩, by decide, goes_on _ (by decide +kernel),
    goes_on _ (by decide +kernel)⟩

theorem witness_StepKeepsTheConstantHeader :
    (beforeFpay (gen0 .headerWritten)).Inv ∧ (beforeFpay (gen0 .headerWritten)).ConstantHeader
      ∧ ∃ t, step (beforeFpay (gen0 .headerWritten)) = .next t ∧ decide (t.regs.configured = true) = true := by
  refine ⟨inv_with_port (gen0_inv _) _, ?_, goes_on _ (by decide +kernel)⟩
  unfold State.ConstantHeader
  decide +kernel

/-- FHDR writes F_TS; a register its column of R42 names. -/
theorem witness_RegistersChangeOnlyByTheirWriters :
    Reg.fTs ≠ .err ∧ ∃ t, exec (.fhdr 0 5) (gen0 .new) = .next t
      ∧ decide (t.regs.read .fTs ≠ (gen0 .new).regs.read .fTs) = true :=
  ⟨by decide, runs_to _ (by decide +kernel)⟩

theorem witness_MemoriesChangeOnlyByTheirWriters :
    ∃ t, exec (.wrmem .ifb 0 5) (gen0 .new) = .next t
      ∧ decide (t.readByte .ifb 0 ≠ (gen0 .new).readByte .ifb 0) = true :=
  runs_to _ (by decide +kernel)

/-- A state with two errors on record (P6: CONFIG_ERROR check 5, then a further one). -/
def twoErrors (s : State) : State :=
  withRegs s fun r => { r with errCode := .configError, errOp := 5, errInfo := 5, errMore := true }

/-- One command that raises an error, one that does not, each with an empty record and with two errors on record, where a
further error leaves the four fields of ERR as they are. -/
theorem witness_AnErrorChangesNothingButErr :
    (Instr.fpay ≠ .clrerr ∧ Instr.fpay ≠ .sreset)
      ∧ (∃ t, exec .fpay (gen0 .new) = .next t ∧ decide (t.regs.errCode = .sequenceError) = true)
      ∧ (∃ t, exec .fpay (gen0 .headerWritten) = .next t ∧ decide (t.regs.errCode = .noError) = true)
      ∧ (∃ t, exec .fpay (twoErrors (gen0 .new)) = .next t ∧ decide (t.regs.read .err = 0x80050502) = true)
      ∧ (∃ u, exec .fpay (withoutRecord (twoErrors (gen0 .new))) = .next u
          ∧ decide (u.regs.errCode = .sequenceError) = true)
      ∧ (∃ u, exec .fpay (withoutRecord (twoErrors (gen0 .headerWritten))) = .next u
          ∧ decide (u.regs.errCode = .noError) = true)
      ∧ { blank with port := [⟨0x0F, 0, 0⟩] }.port = ⟨0x0F, 0, 0⟩ :: []
      ∧ decide (decode ⟨0x0F, 0, 0⟩ = .error .unassignedOpcode) = true :=
  ⟨by decide, runs_to _ (by decide +kernel), runs_to _ (by decide +kernel), runs_to _ (by decide +kernel),
    runs_to _ (by decide +kernel), runs_to _ (by decide +kernel), rfl, by decide⟩

theorem witness_ErrorsComeFromTheirCommands :
    blank.regs.errCode = .noError
      ∧ (∃ t, exec .setup blank = .next t
          ∧ (decide (t.regs.errCode = .configError) && decide (t.regs.errInfo = 1)) = true)
      ∧ ∃ t, exec .quant blank = .next t ∧ decide (t.regs.errCode = .sequenceError) = true :=
  ⟨rfl, runs_to _ (by decide +kernel), runs_to _ (by decide +kernel)⟩

theorem witness_ConfigurationIsLockedUntilSreset :
    (gen0 .new).regs.configured = true ∧ Instr.wrreg 0 5 ≠ .sreset ∧ Reg.frameW.cls = .cfg
      ∧ ∃ t, exec (.wrreg 0 5) (gen0 .new) = .next t ∧ decide (t.regs.frameW = 1) = true :=
  ⟨by decide +kernel, by decide, rfl, runs_to _ (by decide +kernel)⟩

theorem witness_CodecAndFramerWaitForSetup : blank.Inv ∧ blank.regs.configured = false := ⟨blank_inv, rfl⟩

/-- A block with a finished metadata packet. -/
def withMetaPacket : State := withRegs (gen2 .complete) fun r => { r with mpktValid := true, mpktLen := 32, mTs := 1000 }

theorem withMetaPacket_inv : withMetaPacket.Inv := by
  have hw : withMetaPacket.regs.ebw = effectiveWidths withMetaPacket.regs := effectiveWidths_three rfl ⟨rfl, rfl, rfl⟩
  refine inv_of_parts hw ⟨?_, ?_, ?_, ?_, ?_, ?_, ?_, ?_, ?_, ?_, ?_, ?_, ?_⟩ <;> decide +kernel

/-- Every row of the table of R230, at the last byte or register it gives, the first slot past it, and the wrong
generation. -/
theorem witness_CollaboratorsTouchOnlyTheirPart :
    ((gen0 .new).Inv ∧ (gen1 .new).Inv ∧ (gen2 .new).Inv ∧ (gen0 .complete).Inv ∧ withMetaPacket.Inv)
      ∧ Collaborator.captureSource.may (gen0 .new) (.wrmem .ifb 2 0xFF) = true
      ∧ Collaborator.compressor.may (gen1 .new) (.rdmem .pb 2) = true
      ∧ Collaborator.compressor.may (gen1 .new) (.wrreg 0x00F 2) = true
      ∧ Collaborator.compressor.may (gen1 .new) (.wrreg 0x010 1) = true
      ∧ Collaborator.compressor.may (gen2 .new) (.wrreg 0x010 1) = false
      ∧ Collaborator.jpegEncoder.may (gen2 .new) (.wrmem .cb 15 0xFF) = true
      ∧ Collaborator.jpegEncoder.may (gen1 .new) (.wrmem .cb 15 0xFF) = false
      ∧ Collaborator.metadataCache.may (gen0 .new) (.wrreg 0x400 7) = true
      ∧ Collaborator.metadataCache.may (gen0 .new) (.wrreg 0x401 7) = false
      ∧ Collaborator.transportSender.may (gen0 .complete) (.rdmem .pa 3094) = true
      ∧ Collaborator.transportSender.may withMetaPacket (.rdmem .ma 31) = true
      ∧ Collaborator.configurationLoader.may (gen0 .new) (.wrreg 0x2FF 0) = true
      ∧ Collaborator.configurationLoader.may (gen0 .new) .setup = true
      ∧ Collaborator.configurationLoader.may (gen0 .new) .sreset = true :=
  ⟨⟨gen0_inv _, gen1_inv _, gen2_inv _, gen0_inv _, withMetaPacket_inv⟩, by decide +kernel⟩

/-- Both ends of every range of R42, and the rows of its last scalar register and of the last registers of its files. -/
theorem witness_RegisterMapHasOneRegisterAnIndex :
    (regOf 0x000 = some .frameW ∧ regOf 0x015 = some .mpktLen ∧ regOf 0x100 = some (.bw 0) ∧ regOf 0x1FF = some (.bw 255)
        ∧ regOf 0x200 = some (.mname 0) ∧ regOf 0x3FF = some (.mname 511) ∧ regOf 0x400 = some (.mval 0)
        ∧ regOf 0x4FF = some (.mval 255) ∧ regOf 0x500 = some (.ebw 0) ∧ regOf 0x5FF = some (.ebw 255))
      ∧ regOf 0x016 = none ∧ regOf 0x0FF = none ∧ regOf 0x600 = none ∧ regOf 0xFFFFFFFF = none
      ∧ (scalarRows.map fun x => x.index) = List.range 22
      ∧ (fileRow (.mname 511)).map Row.index = some 0x3FF ∧ (fileRow (.ebw 255)).map Row.index = some 0x5FF := by
  decide +kernel

theorem witness_WrregWritesOneRegister :
    regOf 0x016 = none
      ∧ (regOf 0x5FF = some (.ebw 255) ∧ (Reg.ebw 255).cls = .ro)
      ∧ (regOf 0x000 = some .frameW ∧ Reg.frameW.cls = .cfg ∧ (gen0 .new).regs.configured = true)
      ∧ (regOf 0x100 = some (.bw 0) ∧ (Reg.bw 0).cls ≠ .ro ∧ blank.regs.configured = false
          ∧ (16#32 &&& ~~~(Reg.bw 0).fieldMask) ≠ 0 ∧ (15#32 &&& ~~~(Reg.bw 0).fieldMask) = 0)
      ∧ (regOf 0x00F = some .clen ∧ Reg.clen.cls = .frame ∧ (17#32 &&& ~~~Reg.clen.fieldMask) = 0
          ∧ blank.params.cbCap < (17#32).toNat ∧ (16#32).toNat ≤ blank.params.cbCap) := by decide +kernel

theorem witness_RdregAnswersTheRegister : regOf 0x600 = none ∧ regOf 0x5FF = some (.ebw 255) := by decide +kernel

theorem witness_WrmemWritesOneByte :
    capacity blank.params .ifb ≤ (64#32).toNat ∧ (63#32).toNat < capacity blank.params .ifb
      ∧ 255 < (256#32).toNat ∧ (255#32).toNat ≤ 255 := by decide +kernel

theorem witness_RdmemAnswersTheByte :
    capacity blank.params .ma ≤ (3080#32).toNat ∧ (3079#32).toNat < capacity blank.params .ma := by decide +kernel

theorem witness_CapacitiesOfTheSpaces : small.wf = true ∧ (⟨2 ^ 32 - 3345, 2 ^ 32 - 16⟩ : Params).wf = true := by decide +kernel

/-! ### SETUP: the table of 2.3, each check failing first -/

/-- W = H = 4, C = 3, widths 5, 8, 6, GEN = 0, M = 0: every check passes. -/
def legalBefore : Regs :=
  { Regs.reset with frameW := 4, frameH := 4, chanC := 3, bw := threeWidths 5 8 6 }

/-- That configuration with a change, before SETUP. -/
def changed (f : Regs → Regs) : State := { blank with regs := f legalBefore }

/-- Check 9 passes where every used name is ASCII and null-padded. -/
theorem names_pass (s : State)
    (h : ∀ k < s.regs.metaCount.toNat, (∀ j < 8, nameByte s.regs k j < 0x80)
      ∧ ∀ i < 8, ∀ j < 8, i < j → nameByte s.regs k i = 0 → nameByte s.regs k j = 0) : ¬ SetupFails s 9 := by
  rintro ⟨k, hk, ⟨j, hj, hb⟩ | ⟨i, j, hij, hj, h0, hne⟩⟩
  · exact absurd ((h k hk).1 j hj) (by omega)
  · exact hne ((h k hk).2 i (by omega) j hj hij h0)

/-- Check n is the first that fails. -/
def FailsFirst (s : State) (n : Nat) : Prop := SetupFails s n ∧ ∀ m < n, ¬ SetupFails s m

theorem witness_SetupReportsTheFirstFailingCheck_early :
    FailsFirst (changed fun r => { r with configured := true }) 0
      ∧ FailsFirst (changed fun r => { r with frameW := 0, frameH := 0 }) 1
      ∧ FailsFirst (changed fun r => { r with frameH := 0 }) 2
      ∧ FailsFirst (changed fun r => { r with chanC := 0 }) 3
      ∧ FailsFirst (changed fun r => { r with uniform := true, ubits := 9 }) 4
      ∧ FailsFirst (changed fun r => { r with bw := threeWidths 5 8 0 }) 5
      ∧ FailsFirst (changed fun r => { r with gen := 3 }) 6
      ∧ FailsFirst (changed fun r => { r with compEn := true }) 7 := by
  refine ⟨?_, ?_, ?_, ?_, ?_, ?_, ?_, ?_⟩ <;>
    refine ⟨by simp only [SetupFails]; decide +kernel, fun m hm => ?_⟩ <;>
    interval_cases m <;> simp only [SetupFails] <;> decide +kernel

theorem witness_SetupReportsTheFirstFailingCheck_late :
    FailsFirst (changed fun r => { r with metaCount := 257 }) 8
      ∧ FailsFirst (changed fun r => { r with metaCount := 1, mname := (Vector.replicate 512 0).set 0 0x63006261 }) 9
      ∧ FailsFirst (changed fun r => { r with frameW := 65, frameH := 1, chanC := 1 }) 10 := by
  refine ⟨?_, ?_, ?_⟩
  · refine ⟨by simp only [SetupFails]; decide +kernel, fun m hm => ?_⟩
    interval_cases m <;> simp only [SetupFails] <;> decide +kernel
  · refine ⟨⟨0, by decide +kernel, .inr ⟨2, 3, by decide, by decide, by decide +kernel, by decide +kernel⟩⟩, fun m hm => ?_⟩
    interval_cases m <;> simp only [SetupFails] <;> decide +kernel
  · refine ⟨by simp only [SetupFails]; decide +kernel, fun m hm => ?_⟩
    rcases Nat.lt_or_ge m 9 with h | h
    · interval_cases m <;> simp only [SetupFails] <;> decide +kernel
    · obtain rfl : m = 9 := by omega
      exact names_pass _ (by decide +kernel)

theorem witness_SetupDerivesRegistersAndConstants_gen0 :
    { blank with regs := config0 }.params.wf = true ∧ ∀ n ≤ 10, ¬ SetupFails { blank with regs := config0 } n := by
  refine ⟨by decide +kernel, fun n hn => ?_⟩
  by_cases h : n = 9
  · subst h
    exact names_pass _ (by decide +kernel)
  · interval_cases n <;> first | exact absurd rfl h | (simp only [SetupFails]; decide +kernel)

theorem witness_SetupDerivesRegistersAndConstants_gen1 :
    { blank with regs := config1 }.params.wf = true ∧ ∀ n ≤ 10, ¬ SetupFails { blank with regs := config1 } n := by
  refine ⟨by decide +kernel, fun n hn => ?_⟩
  by_cases h : n = 9
  · subst h
    exact names_pass _ (by decide +kernel)
  · interval_cases n <;> first | exact absurd rfl h | (simp only [SetupFails]; decide +kernel)

theorem witness_SetupDerivesRegistersAndConstants_gen2 :
    { blank with regs := config2 }.params.wf = true ∧ ∀ n ≤ 10, ¬ SetupFails { blank with regs := config2 } n := by
  refine ⟨by decide +kernel, fun n hn => ?_⟩
  by_cases h : n = 9
  · subst h
    exact names_pass _ (by decide +kernel)
  · interval_cases n <;> first | exact absurd rfl h | (simp only [SetupFails]; decide +kernel)

/-! ### Codec -/

theorem witness_QuantTruncates : 1 ≤ 1 ∧ 1 ≤ 8 ∧ 8 ≤ 8 := by decide

theorem witness_QuantErrorIsBounded : 1 ≤ 1 ∧ 1 ≤ 8 ∧ 8 ≤ 8 := by decide

theorem witness_QsampleAnswersOneSample :
    (blank.Inv ∧ blank.regs.configured = false) ∧ (gen0 .new).Inv ∧ (gen0 .new).regs.configured = true
      ∧ (gen0 .new).regs.chanC.toNat ≤ (3#32).toNat ∧ (2#32).toNat < (gen0 .new).regs.chanC.toNat
      ∧ 255 < (256#32).toNat ∧ (255#32).toNat ≤ 255 :=
  ⟨⟨blank_inv, rfl⟩, gen0_inv _, by decide +kernel⟩

theorem witness_QuantWritesTheQuantizedFrame :
    (blank.Inv ∧ blank.regs.configured = false) ∧ (gen0 .new).Inv ∧ (gen0 .new).regs.configured = true
      ∧ 2 < (gen0 .new).regs.nsamp.toNat :=
  ⟨⟨blank_inv, rfl⟩, gen0_inv _, by decide +kernel⟩

theorem witness_QuantizedFrameIsInRange :
    (gen0 .new).Inv ∧ (gen0 .new).regs.configured = true
      ∧ ∃ t, exec .quant (gen0 .new) = .next t ∧ decide (t.readByte .qb 2 = 0x0C) = true :=
  ⟨gen0_inv _, by decide +kernel, runs_to _ (by decide +kernel)⟩

/-- A serializer with `nb` filled zero bits at byte `wp` of PB, before any SETUP. -/
def serializerAt (nb : BitVec 3) (wp : Word) : State := withRegs blank fun r => { r with serNb := nb, serWp := wp }

theorem serializerAt_inv (nb : BitVec 3) (wp : Word) (h : wp.toNat ≤ 64) : (serializerAt nb wp).Inv :=
  { blank_inv with
    ifb := blank_inv.ifb, serLow := Nat.zero_mod _, serWp := h
    legal := fun c => Bool.noConfusion c, derived := fun c => Bool.noConfusion c
    latched := fun c => absurd rfl c }

/-- Every clause: the bit counts 0 and 9, a value one too large for 1 and for 8 bits, PB full where a byte completes, no
byte completed, a byte completed in PB's last place with none and with seven bits left over. -/
theorem witness_SpushAppendsBits :
    ((serializerAt 7 64).Inv ∧ (serializerAt 6 64).Inv ∧ (serializerAt 7 63).Inv)
      ∧ 8 < 9 ∧ 2 ^ 1 ≤ (2#32).toNat ∧ (1#32).toNat < 2 ^ 1 ∧ 2 ^ 8 ≤ (256#32).toNat ∧ (255#32).toNat < 2 ^ 8
      ∧ (8 ≤ (serializerAt 7 64).regs.serNb.toNat + 1
          ∧ (serializerAt 7 64).params.maxSamples ≤ (serializerAt 7 64).regs.serWp.toNat)
      ∧ (serializerAt 6 64).regs.serNb.toNat + 1 < 8
      ∧ (8 ≤ (serializerAt 7 63).regs.serNb.toNat + 1 ∧ 8 ≤ (serializerAt 7 63).regs.serNb.toNat + 8
          ∧ (serializerAt 7 63).regs.serWp.toNat < (serializerAt 7 63).params.maxSamples) :=
  ⟨⟨serializerAt_inv _ _ (by decide), serializerAt_inv _ _ (by decide), serializerAt_inv _ _ (by decide)⟩,
    by decide +kernel⟩

theorem witness_SflushClosesTheStream :
    (serializerAt 0 64).regs.serNb.toNat = 0
      ∧ (0 < (serializerAt 1 64).regs.serNb.toNat
          ∧ (serializerAt 1 64).params.maxSamples ≤ (serializerAt 1 64).regs.serWp.toNat)
      ∧ 0 < (serializerAt 7 63).regs.serNb.toNat
      ∧ (serializerAt 7 63).regs.serWp.toNat < (serializerAt 7 63).params.maxSamples := by decide +kernel

/-- P3 with a sample of 2^5 in a channel of 5 bits. -/
def wideSample : State := { gen0 .new with qb := cells 0 [0x20, 0x64, 0x0C] }

theorem wideSample_inv : wideSample.Inv := by
  have hw : wideSample.regs.ebw = effectiveWidths wideSample.regs := effectiveWidths_three rfl rfl
  refine inv_of_parts hw ⟨?_, ?_, ?_, ?_, ?_, ?_, ?_, ?_, ?_, ?_, ?_, ?_, ?_⟩ <;> decide +kernel

theorem witness_PackWritesTheBitstream :
    (blank.Inv ∧ blank.regs.configured = false)
      ∧ (wideSample.Inv ∧ wideSample.regs.configured = true
          ∧ ∃ i < wideSample.regs.nsamp.toNat,
            2 ^ wideSample.regs.ebwAt (i % wideSample.regs.chanC.toNat) ≤ (wideSample.readByte .qb i).toNat)
      ∧ (gen0 .new).Inv ∧ (gen0 .new).regs.configured = true
      ∧ ∀ i < (gen0 .new).regs.nsamp.toNat,
          ((gen0 .new).readByte .qb i).toNat < 2 ^ (gen0 .new).regs.ebwAt (i % (gen0 .new).regs.chanC.toNat) :=
  ⟨⟨blank_inv, rfl⟩, ⟨wideSample_inv, by decide +kernel, 0, by decide +kernel⟩, gen0_inv _, by decide +kernel⟩

theorem witness_QpackWritesTheBitstream :
    (blank.Inv ∧ blank.regs.configured = false) ∧ (gen0 .new).Inv ∧ (gen0 .new).regs.configured = true :=
  ⟨⟨blank_inv, rfl⟩, gen0_inv _, by decide +kernel⟩

theorem witness_FusedPathEqualsTwoStages : (gen0 .new).Inv ∧ (gen0 .new).regs.configured = true :=
  ⟨gen0_inv _, by decide +kernel⟩

/-- The largest samples the widths 5, 8, 6 admit. -/
theorem witness_SerializerBuildsThePackedFrame :
    (gen0 .new).Inv ∧ (gen0 .new).regs.configured = true
      ∧ [31#8, 255#8, 63#8].length = (gen0 .new).regs.nsamp.toNat
      ∧ ∀ i < [31#8, 255#8, 63#8].length, ([31#8, 255#8, 63#8].getD i 0).toNat
          < 2 ^ (gen0 .new).regs.ebwAt (i % (gen0 .new).regs.chanC.toNat) :=
  ⟨gen0_inv _, by decide +kernel⟩

/-- One pixel of three channels, with widths all 8 and all 1. -/
theorem witness_PackedLengthIsExact :
    [1#8, 2#8, 3#8].length = 1 * 1 * 3 ∧ (∀ k < 3, [8, 8, 8].getD k 0 = 8 ∧ 1 ≤ [8, 8, 8].getD k 0)
      ∧ ∀ k < 3, [1, 1, 1].getD k 0 = 1 ∧ [1, 1, 1].getD k 0 ≤ 8 := by decide

/-- The last stream bit and the first and last slack bits of one byte of one bit. -/
theorem witness_PackedBitsAreTheStream :
    0 < [true].length ∧ ([true].length ≤ 1 ∧ 1 < 8 * (packBits [true]).length)
      ∧ [true].length ≤ 7 ∧ 7 < 8 * (packBits [true]).length := by decide

/-- Widths 5, 8, 6 and the largest samples they admit; any bytes as a frame to quantize. -/
theorem witness_UnpackInvertsPack :
    (∀ k < 3, 1 ≤ [5, 8, 6].getD k 0 ∧ [5, 8, 6].getD k 0 ≤ 8) ∧ [31#8, 255#8, 63#8].length = 1 * 1 * 3
      ∧ ∀ i < [31#8, 255#8, 63#8].length, ([31#8, 255#8, 63#8].getD i 0).toNat < 2 ^ [5, 8, 6].getD (i % 3) 0 := by
  decide

/-- The vectors of 2.5: one byte is too short, [AB, 80] and [AB, 81, FF] carry the same 9 bits. -/
theorem witness_UnpackReadsOnlyTheStream :
    (∀ k < 3, 1 ≤ (fun _ : Nat => 1) k ∧ (fun _ : Nat => 1) k ≤ 8)
      ∧ [0xAB#8].length < (1 * 3 * ((List.range 3).map fun _ => 1).sum + 7) / 8
      ∧ (1 * 3 * ((List.range 3).map fun _ => 1).sum + 7) / 8 ≤ [0xAB#8, 0x80#8].length
      ∧ (1 * 3 * ((List.range 3).map fun _ => 1).sum + 7) / 8 ≤ [0xAB#8, 0x81#8, 0xFF#8].length
      ∧ ∀ t < 1 * 3 * ((List.range 3).map fun _ => 1).sum,
          ([0xAB#8, 0x80#8].getD (t / 8) 0).getLsbD (7 - t % 8)
            = ([0xAB#8, 0x81#8, 0xFF#8].getD (t / 8) 0).getLsbD (7 - t % 8) := by decide

/-! ### Framer -/

/-- F-h: a partial byte is pending. -/
def pendingBits : State := withRegs (gen0 .new) fun r => { r with serNb := 3 }

theorem nothing_chosen : ∀ src f p, ¬ Chooses pendingBits.regs src f p := by
  rintro src f p (⟨-, h, -⟩ | ⟨h, -⟩ | ⟨h, -⟩ | ⟨h, -⟩)
  · exact absurd h.1 (by decide +kernel)
  all_goals exact absurd h (by decide +kernel)

/-- P3's payload. -/
theorem chosen0 : Chooses (gen0 .new).regs .raw false 3 := .inl ⟨by decide +kernel, ⟨by decide +kernel, by decide +kernel⟩, by decide +kernel⟩

/-- P4's first payload. -/
theorem chosen1 : Chooses (gen1 .new).regs .comp true 2 :=
  .inr (.inl ⟨by decide +kernel, ⟨by decide +kernel, by decide +kernel, by decide +kernel⟩, by decide +kernel⟩)

/-- F-i: CLEN = PLEN_RAW is still framed compressed. -/
theorem chosen1_equal : Chooses (withRegs (gen1 .new) fun r => { r with clen := 3 }).regs .comp true 3 :=
  .inr (.inl ⟨by decide +kernel, ⟨by decide +kernel, by decide +kernel, by decide +kernel⟩, by decide +kernel⟩)

/-- F-j: CLEN = PLEN_RAW + 1 falls back to the raw payload. -/
theorem chosen1_fallback : Chooses (withRegs (gen1 .new) fun r => { r with clen := 4 }).regs .raw false 3 := by
  refine .inr (.inr (.inl ⟨by decide +kernel, fun h => ?_, ⟨by decide +kernel, by decide +kernel⟩, by decide +kernel⟩))
  exact absurd h.2.2 (by decide +kernel)

/-- P5's payload. -/
theorem chosen2 : Chooses (gen2 .new).regs .ext false 3 :=
  .inr (.inr (.inr ⟨by decide +kernel, by decide +kernel, by decide +kernel⟩))

theorem witness_FhdrBeginsAPacket :
    blank.regs.configured = false
      ∧ (pendingBits.regs.configured = true ∧ pendingBits.regs.gen.toNat ≠ 3 ∧ ∀ src f p, ¬ Chooses pendingBits.regs src f p)
      ∧ ((gen0 .new).regs.configured = true ∧ Chooses (gen0 .new).regs .raw false 3 ∧ (gen0 .new).regs.gen.toNat = 0)
      ∧ ((gen1 .new).regs.configured = true ∧ Chooses (gen1 .new).regs .comp true 2 ∧ (gen1 .new).regs.gen.toNat = 1)
      ∧ ((gen2 .new).regs.configured = true ∧ Chooses (gen2 .new).regs .ext false 3 ∧ (gen2 .new).regs.gen.toNat = 2) :=
  ⟨rfl, ⟨by decide +kernel, by decide +kernel, nothing_chosen⟩, ⟨by decide +kernel, chosen0, by decide +kernel⟩,
    ⟨by decide +kernel, chosen1, by decide +kernel⟩, by decide +kernel, chosen2, by decide +kernel⟩

/-- Each arrow, each stage out of its state, SETUP before and after. -/
theorem witness_FramerMovesAlongItsChain :
    (∃ t, exec .fpay (gen0 .headerWritten) = .next t
        ∧ decide (t.regs.fstate ≠ (gen0 .headerWritten).regs.fstate) = true)
      ∧ ((gen0 .new).regs.configured = true ∧ Chooses (gen0 .new).regs .raw false 3)
      ∧ ((gen0 .headerWritten).Inv ∧ (gen0 .headerWritten).regs.fstate = .headerWritten)
      ∧ ((gen0 .payloadWritten).Inv ∧ (gen0 .payloadWritten).regs.fstate = .payloadWritten)
      ∧ ((gen0 .metadataWritten).Inv ∧ (gen0 .metadataWritten).regs.fstate = .metadataWritten)
      ∧ ({ blank with regs := config0 }.params.wf = true ∧ ∀ n ≤ 10, ¬ SetupFails { blank with regs := config0 } n)
      ∧ (gen0 .new).regs.fstate ≠ .headerWritten ∧ (gen0 .headerWritten).regs.fstate ≠ .payloadWritten
      ∧ (gen0 .payloadWritten).regs.fstate ≠ .metadataWritten :=
  ⟨runs_to _ (by decide +kernel), ⟨by decide +kernel, chosen0⟩, ⟨gen0_inv _, by decide +kernel⟩,
    ⟨gen0_inv _, by decide +kernel⟩, ⟨gen0_inv _, by decide +kernel⟩, witness_SetupDerivesRegistersAndConstants_gen0,
    by decide +kernel⟩

theorem witness_FpayCopiesThePayload :
    ((gen0 .new).Inv ∧ (gen0 .new).regs.fstate ≠ .headerWritten)
      ∧ ((gen0 .headerWritten).Inv ∧ (gen0 .headerWritten).regs.fstate = .headerWritten
          ∧ (gen0 .headerWritten).regs.fSrc = .raw ∧ 2 < (gen0 .headerWritten).regs.fPlen.toNat)
      ∧ (gen2 .headerWritten).Inv ∧ (gen2 .headerWritten).regs.fstate = .headerWritten
      ∧ (gen2 .headerWritten).regs.fSrc ≠ .raw ∧ 2 < (gen2 .headerWritten).regs.fPlen.toNat :=
  ⟨⟨gen0_inv _, by decide +kernel⟩, ⟨gen0_inv _, by decide +kernel⟩, gen2_inv _, by decide +kernel⟩

/-- Generation 2, and a table with the last used slot 0, the first unused slot 1 and the last slot 255. -/
theorem witness_FmetaWritesTheTable :
    ((gen0 .headerWritten).Inv ∧ (gen0 .headerWritten).regs.fstate ≠ .payloadWritten)
      ∧ ((gen2 .payloadWritten).Inv ∧ (gen2 .payloadWritten).regs.fstate = .payloadWritten
          ∧ (gen2 .payloadWritten).regs.gen.toNat = 2)
      ∧ (gen0 .payloadWritten).Inv ∧ (gen0 .payloadWritten).regs.fstate = .payloadWritten
      ∧ (gen0 .payloadWritten).regs.gen.toNat ≠ 2 ∧ 0 < (gen0 .payloadWritten).regs.metaCount.toNat
      ∧ ¬ 1 < (gen0 .payloadWritten).regs.metaCount.toNat ∧ 255 < 256 :=
  ⟨⟨gen0_inv _, by decide +kernel⟩, ⟨gen2_inv _, by decide +kernel⟩, gen0_inv _, by decide +kernel⟩

/-- Generation 2 with the longest payload whose packet length fits PKT_LEN. -/
def longestPayload : State :=
  withRegs { gen2 .metadataWritten with params := ⟨2 ^ 32 - 3345, 2 ^ 32 - 16⟩ } fun r =>
    { r with fPlen := 0xFFFFFFEF, clen := 0xFFFFFFEF }

theorem longestPayload_inv : longestPayload.Inv := by
  have hw : longestPayload.regs.ebw = effectiveWidths longestPayload.regs := effectiveWidths_three rfl ⟨rfl, rfl, rfl⟩
  refine inv_of_parts hw ⟨?_, ?_, ?_, ?_, ?_, ?_, ?_, ?_, ?_, ?_, ?_, ?_, ?_⟩ <;> decide +kernel

theorem witness_FdoneCompletesThePacket :
    ((gen0 .payloadWritten).Inv ∧ (gen0 .payloadWritten).regs.fstate ≠ .metadataWritten)
      ∧ ((gen0 .metadataWritten).Inv ∧ (gen0 .metadataWritten).regs.fstate = .metadataWritten
          ∧ (gen0 .metadataWritten).regs.gen.toNat ≠ 2)
      ∧ longestPayload.Inv ∧ longestPayload.regs.fstate = .metadataWritten ∧ longestPayload.regs.gen.toNat = 2
      ∧ longestPayload.regs.fPlen.toNat < 2 ^ 32 - 16 ∧ longestPayload.regs.fPlen.toNat + 1 = 2 ^ 32 - 16 :=
  ⟨⟨gen0_inv _, by decide +kernel⟩, ⟨gen0_inv _, by decide +kernel⟩, longestPayload_inv, by decide +kernel⟩

theorem witness_MpktBuildsTheMetadataPacket :
    (blank.Inv ∧ blank.regs.configured = false) ∧ ((gen0 .new).Inv ∧ (gen0 .new).regs.gen.toNat ≠ 2)
      ∧ (gen2 .new).Inv ∧ (gen2 .new).regs.configured = true ∧ (gen2 .new).regs.gen.toNat = 2
      ∧ 1 < (gen2 .new).regs.metaCount.toNat :=
  ⟨⟨blank_inv, rfl⟩, ⟨gen0_inv _, by decide +kernel⟩, gen2_inv _, by decide +kernel⟩

theorem witness_FrameBuildsTheWholePacket :
    ((gen0 .new).Inv ∧ (gen0 .new).ConstantHeader ∧ (gen0 .new).regs.configured = true
        ∧ Chooses (gen0 .new).regs .raw false 3 ∧ (gen0 .new).regs.gen.toNat ≠ 2)
      ∧ ((gen1 .new).Inv ∧ (gen1 .new).ConstantHeader ∧ (gen1 .new).regs.configured = true
        ∧ Chooses (gen1 .new).regs .comp true 2)
      ∧ (gen2 .new).Inv ∧ (gen2 .new).ConstantHeader ∧ (gen2 .new).regs.configured = true
      ∧ Chooses (gen2 .new).regs .ext false 3 ∧ (3#32).toNat < 2 ^ 32 - 16 :=
  ⟨⟨gen0_inv _, constant_headers.1, by decide +kernel, chosen0, by decide +kernel⟩,
    ⟨gen1_inv _, constant_headers.2.1, by decide +kernel, chosen1⟩, gen2_inv _, constant_headers.2.2,
    by decide +kernel, chosen2, by decide⟩

theorem witness_MpktLeavesTheWholeMetadataPacket :
    (gen2 .new).Inv ∧ (gen2 .new).ConstantHeader ∧ (gen2 .new).regs.configured = true
      ∧ (gen2 .new).regs.gen.toNat = 2 :=
  ⟨gen2_inv _, constant_headers.2.2, by decide +kernel⟩

/-- The last slot, the longest and the shortest text. -/
theorem witness_WrnameStoresThePaddedName :
    blank.regs.configured = false ∧ 255 < 256 ∧ (List.replicate 8 0x61#8).length ≤ 8 ∧ ([] : List Byte).length ≤ 8 := by
  decide +kernel

/-- A configuration every check passes and one that check 1 fails, neither with an error on record. -/
theorem witness_BootCheckTellsWhetherSetupSucceeded :
    ({ blank with regs := config0 }.params.wf = true ∧ config0.configured = false ∧ config0.errCode = .noError
        ∧ ∃ t, exec .setup { blank with regs := config0 } = .next t ∧ bootAccepted t = true)
      ∧ blank.params.wf = true ∧ blank.regs.configured = false ∧ blank.regs.errCode = .noError
      ∧ ∃ t, exec .setup blank = .next t ∧ (!bootAccepted t) = true :=
  ⟨⟨by decide +kernel, rfl, rfl, runs_to _ (by decide +kernel)⟩, by decide +kernel, rfl, rfl,
    runs_to _ (by decide +kernel)⟩

/-- The largest values the fields hold, the longest and the shortest list of widths. -/
theorem witness_WidthCommandsSetTheWidths :
    blank.regs.configured = false ∧ 15 < 16
      ∧ (List.replicate 255 (15#32)).length ≤ 255 ∧ (∀ v ∈ List.replicate 255 (15#32), v.toNat < 16)
      ∧ ([] : List Word).length ≤ 255 := by
  refine ⟨rfl, by decide, by decide +kernel, fun v hv => ?_, by decide⟩
  rw [List.eq_of_mem_replicate hv]
  decide

end Sys2Proof.Tests
end

/-! The parameters of the block and the capacities they fix (00_scope.md R10, 20_memory.md R60, R63). -/

namespace Sys2Proof

/-- The constraints of R10 as inequalities. -/
theorem Params.wf_iff (p : Params) :
    p.wf = true ↔ (1 ≤ p.maxSamples ∧ p.maxSamples ≤ 2 ^ 32 - 3345) ∧ 1 ≤ p.cbCap ∧ p.cbCap ≤ 2 ^ 32 - 16 := by
  simp [Params.wf, and_assoc]

end Sys2Proof

namespace Sys2Proof.Machine

/-- R10 bounds MAX_SAMPLES and CB_CAP so that PA, and with it every space, is addressed by 32 bits. -/
theorem capacity_le_of_wf {p : Params} (h : p.wf = true) (sp : Space) : capacity p sp ≤ 2 ^ 32 := by
  obtain ⟨⟨-, hSamples⟩, -, hCb⟩ := p.wf_iff.mp h
  cases sp with
  | ifb => rw [capacity_ifb]; omega
  | qb => rw [capacity_qb]; omega
  | pb => rw [capacity_pb]; omega
  | cb => rw [capacity_cb]; omega
  | pa =>
    rw [capacity_pa]
    exact max_le (by omega) (by omega)
  | ma => rw [capacity_ma]; decide

/-- Settles O28: the model's capacity equations, and the bound R10 puts on the largest space. -/
theorem capacitiesOfTheSpaces : Obligations.CapacitiesOfTheSpaces := by
  intro p
  refine ⟨capacity_ifb p, capacity_qb p, capacity_pb p, capacity_cb p, capacity_ma p, ?_, ?_, ?_, capacity_le_of_wf⟩
  · rw [capacity_pa]
    exact max_choice _ _
  · rw [capacity_pa]
    exact le_max_left _ _
  · rw [capacity_pa]
    exact le_max_right _ _

end Sys2Proof.Machine

/-! The invariant of the block between commands (SPEC.md, `State.Inv`): its parts, and that every operation of the state
keeps them. -/

namespace Sys2Proof.Machine

/-! ## The parts of the invariant that speak of registers -/

/-- SER_ACC is zero below its filled bits and the cursor stays inside PB (10_state.md R38, 42_packer.md R132). -/
structure SerializerOk (p : Params) (acc : Byte) (nb : BitVec 3) (wp : Word) : Prop where
  low : acc.toNat % 2 ^ (8 - nb.toNat) = 0
  cursor : wp.toNat ≤ p.maxSamples

/-- The framer's registers agree with the configuration (43_framer.md R150, R159, R168, R169). -/
structure PacketOk (p : Params) (r : Regs) : Prop where
  unconfigured : r.configured = false → r.fstate = .new ∧ r.mpktValid = false
  latched : r.fstate ≠ .new → LatchedPayload p r
  packetLength : r.pktLen =
    if r.fstate = .complete then lengthWord (r.hdrLen.toNat + r.fPlen.toNat + tableLen r) else 0
  metaPacket : r.mpktValid = true → r.gen = 2 ∧ r.mpktLen.toNat = 8 + 12 * r.readings

/-- The error record is whole (10_state.md R41, 60_exceptions.md R207). -/
structure RecordOk (e : ErrCode) (op info : Byte) (more : Bool) : Prop where
  empty : e = .noError → op = 0 ∧ info = 0 ∧ more = false
  info : e ≠ .configError → info = 0

/-- The register part of `State.Inv`. -/
structure RegsInv (p : Params) (r : Regs) : Prop where
  serializer : SerializerOk p r.serAcc r.serNb r.serWp
  clen : r.clen.toNat ≤ p.cbCap
  legal : r.configured = true → LegalConfig p r
  derived : r.configured = true → DerivedRegs r
  packet : PacketOk p r
  record : RecordOk r.errCode r.errOp r.errInfo r.errMore

theorem State.Inv.regsInv {s : State} (h : s.Inv) : RegsInv s.params s.regs :=
  ⟨⟨h.serLow, h.serWp⟩, h.clen, h.legal, h.derived, ⟨h.unconfigured, h.latched, h.packetLength, h.metaPacket⟩,
    ⟨h.noRecord, h.info⟩⟩

theorem State.Inv.memOk {s : State} (h : s.Inv) : ∀ sp, MemOk s.params sp (s.mem sp)
  | .ifb => h.ifb
  | .qb => h.qb
  | .pb => h.pb
  | .cb => h.cb
  | .pa => h.pa
  | .ma => h.ma

/-- The invariant from its three parts. -/
theorem inv_of_memory_and_regs {s : State} (hp : s.params.wf = true) (hm : ∀ sp, MemOk s.params sp (s.mem sp))
    (hr : RegsInv s.params s.regs) : s.Inv where
  params := hp
  ifb := hm .ifb
  qb := hm .qb
  pb := hm .pb
  cb := hm .cb
  pa := hm .pa
  ma := hm .ma
  serLow := hr.serializer.low
  serWp := hr.serializer.cursor
  clen := hr.clen
  legal := hr.legal
  derived := hr.derived
  unconfigured := hr.packet.unconfigured
  latched := hr.packet.latched
  packetLength := hr.packet.packetLength
  metaPacket := hr.packet.metaPacket
  noRecord := hr.record.empty
  info := hr.record.info

/-! ## Registers a command leaves alone -/

/-- The registers of class CFG read alike (10_state.md R23). -/
def Regs.SameCfg (r r' : Regs) : Prop :=
  r' = { r' with
    frameW := r.frameW, frameH := r.frameH, chanC := r.chanC, uniform := r.uniform, ubits := r.ubits
    compEn := r.compEn, gen := r.gen, metaCount := r.metaCount, bw := r.bw, mname := r.mname }

/-- No register but those of class CFG differs. -/
def Regs.OnlyCfg (r r' : Regs) : Prop :=
  r' = { r with
    frameW := r'.frameW, frameH := r'.frameH, chanC := r'.chanC, uniform := r'.uniform, ubits := r'.ubits
    compEn := r'.compEn, gen := r'.gen, metaCount := r'.metaCount, bw := r'.bw, mname := r'.mname }

/-- CONFIGURED and the registers SETUP derives read alike (40_control.md R106). -/
def Regs.SameDerived (r r' : Regs) : Prop :=
  r' = { r' with
    configured := r.configured, ebw := r.ebw, nsamp := r.nsamp, sumb := r.sumb, plenRaw := r.plenRaw
    hdrLen := r.hdrLen }

/-- The fields of the two packets that `PacketOk` speaks of read alike (10_state.md R35, R39, R40). -/
def Regs.SamePacket (r r' : Regs) : Prop :=
  r' = { r' with
    fstate := r.fstate, fComp := r.fComp, mpktValid := r.mpktValid, fSrc := r.fSrc, fPlen := r.fPlen
    pktLen := r.pktLen, mpktLen := r.mpktLen }

theorem LegalConfig.of_sameCfg {p : Params} {r r' : Regs} (h : LegalConfig p r) (hc : r.SameCfg r') :
    LegalConfig p r' := by
  rw [hc]
  exact ⟨h.width, h.height, h.channels, h.uniformBits, h.channelBits, h.generation, h.compression, h.readings, h.names,
    h.size⟩

theorem DerivedRegs.of_same {r r' : Regs} (h : DerivedRegs r) (hc : r.SameCfg r') (hd : r.SameDerived r') :
    DerivedRegs r' := by
  rw [hc, hd]
  exact ⟨h.widths, h.samples, h.bitsPerPixel, h.rawLength, h.headerLength⟩

theorem LatchedPayload.of_same {p : Params} {r r' : Regs} (h : LatchedPayload p r) (hc : r.SameCfg r')
    (hd : r.SameDerived r') (hk : r.SamePacket r') : LatchedPayload p r' := by
  rw [hc, hd, hk]
  exact ⟨h.external, h.rawLength, h.compressedLength, h.fitsCb, h.flag⟩

theorem PacketOk.of_same {p : Params} {r r' : Regs} (h : PacketOk p r) (hc : r.SameCfg r') (hd : r.SameDerived r')
    (hk : r.SamePacket r') : PacketOk p r' := by
  have hl : r'.fstate ≠ .new → LatchedPayload p r' := fun hn => (h.latched (by rw [hk] at hn; exact hn)).of_same hc hd hk
  refine ⟨?_, hl, ?_, ?_⟩
  · rw [hd, hk]
    exact h.unconfigured
  · rw [hc, hd, hk]
    exact h.packetLength
  · rw [hc, hk]
    exact h.metaPacket

/-- A command that leaves the configuration alone keeps the register part when it keeps the rest. -/
theorem RegsInv.of_sameConfig {p : Params} {r r' : Regs} (h : RegsInv p r) (hc : r.SameCfg r') (hd : r.SameDerived r')
    (hs : SerializerOk p r'.serAcc r'.serNb r'.serWp) (hl : r'.clen.toNat ≤ p.cbCap) (hk : PacketOk p r')
    (he : RecordOk r'.errCode r'.errOp r'.errInfo r'.errMore) : RegsInv p r' where
  serializer := hs
  clen := hl
  legal hr := (h.legal (by rw [hd] at hr; exact hr)).of_sameCfg hc
  derived hr := (h.derived (by rw [hd] at hr; exact hr)).of_same hc hd
  packet := hk
  record := he

/-- Another error record. -/
theorem RegsInv.withRecord {p : Params} {r : Regs} (h : RegsInv p r) {e : ErrCode} {op info : Byte} {more : Bool}
    (he : RecordOk e op info more) :
    RegsInv p { r with errCode := e, errOp := op, errInfo := info, errMore := more } :=
  h.of_sameConfig rfl rfl h.serializer h.clen (h.packet.of_same rfl rfl rfl) he

/-- Another cursor of the serializer. -/
theorem RegsInv.withSerializer {p : Params} {r : Regs} (h : RegsInv p r) {acc : Byte} {nb : BitVec 3} {wp : Word}
    (hs : SerializerOk p acc nb wp) (cvalid : Bool) :
    RegsInv p { r with serAcc := acc, serNb := nb, serWp := wp, cvalid := cvalid } :=
  h.of_sameConfig rfl rfl hs h.clen (h.packet.of_same rfl rfl rfl) h.record

/-- Other registers of class FRAME (10_state.md R23). -/
theorem RegsInv.withFrame {p : Params} {r : Regs} (h : RegsInv p r) {clen : Word} (hl : clen.toNat ≤ p.cbCap)
    (cvalid : Bool) (mval : Vector Word 256) : RegsInv p { r with clen := clen, cvalid := cvalid, mval := mval } :=
  h.of_sameConfig rfl rfl h.serializer hl (h.packet.of_same rfl rfl rfl) h.record

/-- Another packet in the same configuration. -/
theorem RegsInv.withPacket {p : Params} {r r' : Regs} (h : RegsInv p r) (hk : PacketOk p r') (hc : r.SameCfg r')
    (hd : r.SameDerived r')
    (hsame : r' = { r' with
      serAcc := r.serAcc, serNb := r.serNb, serWp := r.serWp, clen := r.clen
      errCode := r.errCode, errOp := r.errOp, errInfo := r.errInfo, errMore := r.errMore }) : RegsInv p r' :=
  h.of_sameConfig hc hd (by rw [hsame]; exact h.serializer) (by rw [hsame]; exact h.clen) hk
    (by rw [hsame]; exact h.record)

end Sys2Proof.Machine

namespace Sys2Proof.Machine

/-! ## The operations of the state keep the invariant -/

theorem State.Inv.withPort {s : State} (h : s.Inv) (port : List Command) : { s with port := port }.Inv :=
  inv_of_memory_and_regs h.params h.memOk h.regsInv

theorem State.Inv.respond {s : State} (h : s.Inv) (v : Word) : (s.respond v).Inv :=
  inv_of_memory_and_regs h.params h.memOk h.regsInv

theorem State.Inv.updRegs {s : State} (h : s.Inv) {f : Regs → Regs} (hf : RegsInv s.params (f s.regs)) :
    (s.updRegs f).Inv :=
  inv_of_memory_and_regs h.params h.memOk hf

/-- A write inside its space (20_memory.md R73). -/
theorem State.Inv.writeBytes {s : State} (h : s.Inv) {sp : Space} {a : Nat} {bs : List Byte}
    (hb : a + bs.length ≤ capacity s.params sp) : (s.writeBytes sp a bs).Inv := by
  refine inv_of_memory_and_regs (by simpa using h.params) (fun sp' => ?_) (by simpa using h.regsInv)
  rw [writeBytes_params, writeBytes_mem]
  split
  · subst sp'
    exact (h.memOk sp).put hb
  · exact h.memOk sp'

theorem State.Inv.writeSlots {s : State} (h : s.Inv) {sp : Space} {base n : Nat} {bytes : Nat → List Byte}
    (hb : ∀ k < n, base + 12 * k + (bytes k).length ≤ capacity s.params sp) : (writeSlots sp base bytes n s).Inv := by
  induction n with
  | zero => exact h
  | succ n ih =>
    rw [writeSlots_succ]
    exact (ih fun k hk => hb k (by omega)).writeBytes (by rw [writeSlots_params]; exact hb n (by omega))

/-- Recording an error keeps the record whole (60_exceptions.md R207). -/
theorem RegsInv.recordError {p : Params} {r : Regs} (h : RegsInv p r) {op info : Byte} {e : ErrCode}
    (he : e ≠ .noError) (hi : e ≠ .configError → info = 0) : RegsInv p (recordError op e info r) := by
  by_cases hr : r.errCode = .noError
  · rw [recordError_first hr]
    exact h.withRecord ⟨fun hn => absurd hn he, hi⟩
  · rw [recordError_further hr]
    exact h.withRecord ⟨fun hn => absurd hn hr, h.record.info⟩

/-- Raising an error changes nothing but ERR (60_exceptions.md R201). -/
theorem State.Inv.raise {s : State} (h : s.Inv) {op info : Byte} {e : ErrCode} (he : e ≠ .noError)
    (hi : e ≠ .configError → info = 0) : (s.raise op e info).Inv :=
  (h.updRegs (h.regsInv.recordError he hi)).respond 0

/-! ## The serializer (42_packer.md R131 to R136) -/

theorem SerializerOk.closed {p : Params} {wp : Word} (h : wp.toNat ≤ p.maxSamples) : SerializerOk p 0 0 wp :=
  ⟨by simp, h⟩

/-- MAX_SAMPLES leaves room in 32 bits for one more byte (00_scope.md R10). -/
theorem cursor_succ {p : Params} (hp : p.wf = true) {wp : Word} (h : wp.toNat < p.maxSamples) :
    (wp + 1).toNat = wp.toNat + 1 := by
  obtain ⟨⟨-, hmax⟩, -⟩ := p.wf_iff.mp hp
  rw [BitVec.toNat_add]
  exact Nat.mod_eq_of_lt (by simp; omega)

/-- A bit below the filled ones keeps the low bits zero. -/
theorem SerializerOk.addBit {p : Params} {acc : Byte} {nb : BitVec 3} {wp : Word} (h : SerializerOk p acc nb wp)
    (hn : nb.toNat < 7) (b : Bool) :
    SerializerOk p (acc + if b then BitVec.ofNat 8 (2 ^ (7 - nb.toNat)) else 0) (nb + 1) wp := by
  refine ⟨?_, h.cursor⟩
  have hnb : (nb + 1).toNat = nb.toNat + 1 := by
    rw [BitVec.toNat_add]
    exact Nat.mod_eq_of_lt (by simp; omega)
  have hacc : 2 ^ (8 - (nb.toNat + 1)) ∣ acc.toNat :=
    (pow_dvd_pow 2 (by omega)).trans (Nat.dvd_of_mod_eq_zero h.low)
  have hbit : 2 ^ (8 - (nb.toNat + 1)) ∣ (if b then BitVec.ofNat 8 (2 ^ (7 - nb.toNat)) else 0).toNat := by
    cases b with
    | false => exact dvd_zero _
    | true =>
      have hlt : 2 ^ (7 - nb.toNat) < 2 ^ 8 := Nat.pow_lt_pow_right (by decide) (by omega)
      rw [if_pos rfl, BitVec.toNat_ofNat, Nat.mod_eq_of_lt hlt]
      exact pow_dvd_pow 2 (by omega)
  rw [hnb, BitVec.toNat_add, Nat.mod_mod_of_dvd _ (pow_dvd_pow 2 (by omega))]
  exact Nat.mod_eq_zero_of_dvd (hacc.add hbit)

/-- One turn of SPUSH's loop, where a byte that completes has its place in PB. -/
theorem State.Inv.pushBit {s : State} (h : s.Inv) (b : Bool)
    (hroom : s.regs.serNb.toNat = 7 → s.regs.serWp.toNat < s.params.maxSamples) : (pushBit s b).Inv := by
  by_cases h7 : s.regs.serNb.toNat = 7
  · have hwp := hroom h7
    rw [pushBit_full b h7]
    refine (h.writeBytes hwp).updRegs ?_
    exact h.regsInv.withSerializer (.closed ((cursor_succ h.params hwp).trans_le hwp)) _
  · have hlt : s.regs.serNb.toNat < 7 := by omega
    rw [pushBit_short b hlt]
    exact h.updRegs (h.regsInv.withSerializer (h.regsInv.serializer.addBit hlt b) _)

/-- The loop of SPUSH over at most one byte's worth of bits. -/
theorem State.Inv.pushBits {bs : List Bool} {s : State} (h : s.Inv) (hlen : bs.length ≤ 8)
    (hroom : 8 ≤ s.regs.serNb.toNat + bs.length → s.regs.serWp.toNat < s.params.maxSamples) :
    (pushBits bs s).Inv := by
  induction bs generalizing s with
  | nil => exact h
  | cons b bs ih =>
    rw [List.length_cons] at hlen hroom
    rw [pushBits_cons]
    refine ih (h.pushBit b fun h7 => hroom (by omega)) (by omega) fun h8 => ?_
    by_cases h7 : s.regs.serNb.toNat = 7
    · rw [pushBit_full b h7] at h8
      simp at h8
      omega
    · rw [pushBit_short b (by omega)] at h8 ⊢
      simp only [updRegs_regs, updRegs_params, BitVec.toNat_add] at h8 ⊢
      exact hroom (by simp at h8; omega)

/-- SFLUSH (R133). -/
theorem State.Inv.flush {s : State} (h : s.Inv)
    (hroom : 0 < s.regs.serNb.toNat → s.regs.serWp.toNat < s.params.maxSamples) : (flush s).Inv := by
  unfold Machine.flush
  split
  · have hwp := hroom ‹_›
    refine (h.writeBytes hwp).updRegs ?_
    exact h.regsInv.withSerializer (.closed ((cursor_succ h.params hwp).trans_le hwp)) _
  · exact h

/-! ## Derived lengths (40_control.md R106) -/

/-- The widths of a legal configuration as SETUP writes them. -/
theorem LegalConfig.effectiveWidths_le {p : Params} {r : Regs} (h : LegalConfig p r) {c : Nat} (hc : c < r.channels) :
    ((effectiveWidths r).getD c 0).toNat ≤ 8 := by
  rw [effectiveWidths_getD r (hc.trans (channels_lt r)), if_pos hc]
  cases hu : r.uniform with
  | true => exact (h.uniformBits hu).2
  | false => exact (h.channelBits hu c hc).2

/-- The configured frame's raw bitstream fits PB. -/
theorem LegalConfig.plenRaw_le {p : Params} {r : Regs} (h : LegalConfig p r) (hd : DerivedRegs r) :
    r.plenRaw.toNat ≤ p.maxSamples := by
  have hw : ∀ c < r.channels, r.widths c ≤ 8 := fun c hc => by
    rw [Regs.widths, Regs.ebwAt, hd.widths]
    exact h.effectiveWidths_le hc
  rw [hd.rawLength, hd.bitsPerPixel]
  exact (packed_le _ hw).trans h.size

/-- PACK and QPACK (R135, R136). -/
theorem State.Inv.leaveBitstream {s : State} (h : s.Inv) (hc : s.regs.configured = true) {stream : List Byte}
    (hlen : stream.length ≤ s.params.maxSamples) : (leaveBitstream s stream).Inv := by
  refine (h.writeBytes (sp := .pb) (by simpa using hlen)).updRegs ?_
  exact h.regsInv.withSerializer (.closed ((h.legal hc).plenRaw_le (h.derived hc))) _

/-! ## SETUP (40_control.md R105, R106, R107) -/

/-- SETUP's checks are the legality of the configuration. -/
theorem legalConfig_of_setupChecks {s : State} (h : firstFailing (setupChecks s) = none) :
    LegalConfig s.params s.regs := by
  rw [firstFailing_none] at h
  simp only [setupChecks, List.forall_mem_cons, plain_fails, configCheck_fails, List.not_mem_nil, false_implies,
    implies_true, and_true, decide_eq_false_iff_not, Bool.and_eq_false_imp, Bool.not_eq_false', Bool.not_eq_true',
    List.any_eq_false, List.mem_range, Bool.not_eq_false, legalWidth_iff, not_not] at h
  obtain ⟨-, h1, h2, h3, h4, h5, h6, h7, h8, h9, h10⟩ := h
  exact ⟨h1, h2, h3, h4, h5, h6, h7, Nat.not_lt.1 h8, h9, Nat.not_lt.1 h10⟩

/-- The derived registers of a legal configuration hold the numbers R106 gives: none exceeds 32 bits. -/
theorem LegalConfig.derivedRegs_configure {p : Params} {r : Regs} (h : LegalConfig p r) (hp : p.wf = true) :
    DerivedRegs (configure r) := by
  obtain ⟨⟨-, hmax⟩, -⟩ := p.wf_iff.mp hp
  have hC := channels_lt r
  have hsize := h.size
  have hw : ∀ c < r.channels, ((effectiveWidths r).getD c 0).toNat ≤ 8 := fun c hc => h.effectiveWidths_le hc
  have hsum := widthSum_le hw
  have hraw := packed_le (r.frameW.toNat * r.frameH.toNat) hw
  have hhdr : headerLen r < 2 ^ 32 := by
    unfold headerLen
    split
    · omega
    · split <;> omega
  have hsumb : (configure r).sumb.toNat = widthSum (configure r).widths r.channels := lengthWord_toNat (by omega)
  refine ⟨rfl, lengthWord_toNat (by omega), hsumb, ?_, lengthWord_toNat hhdr⟩
  rw [hsumb]
  exact lengthWord_toNat (by omega)

/-- A fresh configuration has no packet. -/
theorem RegsInv.configure {p : Params} {r : Regs} (h : RegsInv p r) (hp : p.wf = true) (hl : LegalConfig p r) :
    RegsInv p (configure r) where
  serializer := h.serializer
  clen := h.clen
  legal _ := hl.of_sameCfg rfl
  derived _ := hl.derivedRegs_configure hp
  packet := ⟨nofun, fun hn => absurd rfl hn, rfl, nofun⟩
  record := h.record

/-- The constant fields lie inside both arenas (R107). -/
theorem State.Inv.writeConstants {s : State} (h : s.Inv) (hM : s.regs.readings ≤ 256) : (writeConstants s).Inv := by
  have hpa := paCap_header s.params
  have hC := channels_lt s.regs
  unfold Machine.writeConstants
  split
  · exact h.writeBytes (by rw [hdr_length]; omega)
  · split
    · rw [writeNames_eq]
      refine ((h.writeBytes ?_).writeBytes ?_).writeSlots fun k hk => ?_
      · simp; omega
      · simp
      · simp at hk ⊢; omega
    · exact h

/-! ## The framer (43_framer.md R157 to R169) -/

/-- The variable header fields lie inside PA (R157). -/
theorem State.Inv.writeHeader {s : State} (h : s.Inv) (t : Word) (f : Bool) (p : Word) : (writeHeader t f p s).Inv := by
  have hpa := paCap_header s.params
  have hC := channels_lt s.regs
  have h1 : (s.writeBytes .pa 0 (le32 t)).Inv := h.writeBytes (by simp; omega)
  unfold Machine.writeHeader
  dsimp only
  split
  · exact h1.writeBytes (by simp; omega)
  · split
    · exact (h1.writeBytes (by simp; omega)).writeBytes (by simp; omega)
    · split
      · exact h1.writeBytes (by simp; omega)
      · exact h1


/-- A selection is one of the cases of R159. -/
theorem chooses_of_select {r : Regs} {src : FSrc} {f : Bool} {p : Word} (h : select r = some (src, f, p)) :
    Spec.Chooses r src f p := by
  have gen_toNat : ∀ n : BitVec 2, r.gen = n → r.gen.toNat = n.toNat := fun n hn => by rw [hn]
  have raw_closed : rawReady r = true → Spec.RawClosed r := fun hr => by
    simpa [rawReady, Spec.RawClosed, ← BitVec.toNat_inj] using hr
  unfold select at h
  split at h
  next h0 =>
    split at h
    next hr =>
      cases h
      exact .inl ⟨gen_toNat 0 h0, raw_closed hr, rfl, rfl, rfl⟩
    next => cases h
  next =>
    split at h
    next h1 =>
      have comp_ready : (r.compEn && r.cvalid && decide (r.clen ≤ r.plenRaw)) = true ↔ Spec.CompressedReady r := by
        simp [Spec.CompressedReady, BitVec.le_def, and_assoc]
      split at h
      next hc =>
        cases h
        exact .inr (.inl ⟨gen_toNat 1 h1, comp_ready.mp hc, rfl, rfl, rfl⟩)
      next hc =>
        split at h
        next hr =>
          cases h
          exact .inr (.inr (.inl ⟨gen_toNat 1 h1, hc ∘ comp_ready.mpr, raw_closed hr, rfl, rfl, rfl⟩))
        next => cases h
    next =>
      split at h
      next h2 =>
        split at h
        next hv =>
          cases h
          exact .inr (.inr (.inr ⟨gen_toNat 2 h2, hv, rfl, rfl, rfl⟩))
        next => cases h
      next => cases h

/-- What FHDR selects is a payload its generation allows, of a length its memory holds (R159). -/
theorem latchedPayload_of_chooses {p : Params} {r : Regs} (hl : r.clen.toNat ≤ p.cbCap) (t : Word) {len : Word}
    {src : FSrc} {f : Bool} (h : Spec.Chooses r src f len) : LatchedPayload p (beginPacket t src f len r) := by
  have gen2 : (beginPacket t src f len r).gen = 2 ↔ r.gen.toNat = 2 := BitVec.toNat_inj.symm
  rcases h with ⟨hg, -, rfl, rfl, rfl⟩ | ⟨hg, ⟨-, -, hle⟩, rfl, rfl, rfl⟩ | ⟨hg, -, -, rfl, rfl, rfl⟩ |
    ⟨hg, -, rfl, rfl, rfl⟩
  case inl | inr.inr.inl =>
    exact ⟨gen2.trans (by simp [beginPacket, hg]), fun _ => rfl, nofun, fun hn => absurd rfl hn, by simp [beginPacket]⟩
  case inr.inl =>
    exact ⟨gen2.trans (by simp [beginPacket, hg]), nofun, fun _ => hle, fun _ => hl, by simp [beginPacket]⟩
  case inr.inr.inr =>
    exact ⟨gen2.trans (by simp [beginPacket, hg]), nofun, nofun, fun _ => hl, by simp [beginPacket]⟩

/-- FHDR begins a packet (R157). -/
theorem RegsInv.beginPacket {p : Params} {r : Regs} (h : RegsInv p r) (hc : r.configured = true) (t : Word)
    {len : Word} {src : FSrc} {f : Bool} (hsel : select r = some (src, f, len)) :
    RegsInv p (beginPacket t src f len r) := by
  refine h.withPacket ⟨fun hn => ?_, fun _ => ?_, rfl, h.packet.metaPacket⟩ rfl rfl rfl
  · exact absurd (hc.symm.trans hn) (by decide)
  · exact latchedPayload_of_chooses h.clen t (chooses_of_select hsel)

/-- A packet that is being built has a configuration (70_reset_and_hazards.md R222). -/
theorem PacketOk.configured {p : Params} {r : Regs} (h : PacketOk p r) (hn : r.fstate ≠ .new) : r.configured = true := by
  cases hc : r.configured with
  | true => rfl
  | false => exact absurd (h.unconfigured hc).1 hn

/-- A later stage of the packet in the same configuration, with the same payload (R150). -/
theorem RegsInv.advance {p : Params} {r : Regs} (h : RegsInv p r) (hn : r.fstate ≠ .new) {st : FState} {len : Word}
    (cvalid : Bool)
    (hlen : len = if st = .complete then lengthWord (r.hdrLen.toNat + r.fPlen.toNat + tableLen r) else 0) :
    RegsInv p { r with fstate := st, pktLen := len, cvalid := cvalid } := by
  have hl := h.packet.latched hn
  have hconf := h.packet.configured hn
  refine h.withPacket ⟨fun hf => ?_, fun _ => ?_, hlen, h.packet.metaPacket⟩ rfl rfl rfl
  · exact absurd (hconf.symm.trans hf) (by decide)
  · exact ⟨hl.external, hl.rawLength, hl.compressedLength, hl.fitsCb, hl.flag⟩

/-- PKT_LEN is 0 in every state but COMPLETE (10_state.md R39). -/
theorem PacketOk.pktLen_eq_zero {p : Params} {r : Regs} (h : PacketOk p r) (hn : r.fstate ≠ .complete) :
    r.pktLen = 0 := by
  rw [h.packetLength, if_neg hn]

/-- MPKT completes the metadata packet (R169). -/
theorem RegsInv.metaPacketDone {p : Params} {r : Regs} (h : RegsInv p r) (hc : r.configured = true) (hg : r.gen = 2)
    (ts : Word) :
    RegsInv p { r with mTs := ts, mpktLen := lengthWord (8 + 12 * r.readings), mpktValid := true } := by
  have hM : r.readings < 512 := r.metaCount.isLt
  refine h.withPacket ⟨fun hf => ?_, fun hn => ?_, h.packet.packetLength, fun _ => ⟨hg, ?_⟩⟩ rfl rfl rfl
  · exact absurd (hc.symm.trans hf) (by decide)
  · have hl := h.packet.latched hn
    exact ⟨hl.external, hl.rawLength, hl.compressedLength, hl.fitsCb, hl.flag⟩
  · exact lengthWord_toNat (by omega)

/-! ## Every step keeps the invariant -/

/-- In an unconfigured block the invariant does not read the CFG registers (70_reset_and_hazards.md R222). -/
theorem RegsInv.of_onlyCfg {p : Params} {r r' : Regs} (h : RegsInv p r) (hc : r.configured = false)
    (hw : r.OnlyCfg r') : RegsInv p r' := by
  obtain ⟨hnew, hmv⟩ := h.packet.unconfigured hc
  have hlen : r.pktLen = 0 := h.packet.pktLen_eq_zero (by simp [hnew])
  rw [hw]
  refine ⟨h.serializer, h.clen, fun hn => ?_, fun hn => ?_, ⟨h.packet.unconfigured, fun hn => ?_, ?_, fun hn => ?_⟩,
    h.record⟩
  · exact absurd (hc.symm.trans hn) (by decide)
  · exact absurd (hc.symm.trans hn) (by decide)
  · exact absurd hnew hn
  · simp [hnew, hlen]
  · exact absurd (hmv.symm.trans hn) (by decide)

theorem onlyCfg_write (r : Regs) {g : Reg} (hg : g.cls = .cfg) (v : Word) : r.OnlyCfg (r.write g v) := by
  cases g with
  | clen => nomatch hg
  | cvalid => nomatch hg
  | mval k => nomatch hg
  | _ => rfl

/-- WRREG (40_control.md R101). -/
theorem RegsInv.write {p : Params} {r : Regs} (h : RegsInv p r) {g : Reg} {v : Word} (hro : g.cls ≠ .ro)
    (hlock : g.cls = .cfg → r.configured = false) (hl : g = .clen → v.toNat ≤ p.cbCap) : RegsInv p (r.write g v) := by
  cases hg : g.cls with
  | ro => exact absurd hg hro
  | cfg => exact h.of_onlyCfg (hlock hg) (onlyCfg_write r hg v)
  | frame =>
    cases g with
    | clen => exact h.withFrame (hl rfl) _ _
    | cvalid => exact h.withFrame h.clen _ _
    | mval k => exact h.withFrame h.clen _ _
    | _ => nomatch hg

theorem RegsInv.reset (p : Params) : RegsInv p Regs.reset where
  serializer := .closed (Nat.zero_le _)
  clen := Nat.zero_le _
  legal := nofun
  derived := nofun
  packet := ⟨fun _ => ⟨rfl, rfl⟩, fun hn => absurd rfl hn, rfl, nofun⟩
  record := ⟨fun _ => ⟨rfl, rfl, rfl⟩, fun _ => rfl⟩

/-- The effect of every command keeps the invariant. -/
theorem State.Inv.effect {i : Instr} {s t : State} (h : s.Inv) (he : EffectOf i s t) : t.Inv := by
  have hr := h.regsInv
  cases i with
  | nop =>
    obtain rfl := he
    exact h.respond _
  | wrreg r v =>
    obtain ⟨g, -, hro, hlock, -, hl, rfl⟩ := he
    exact (h.updRegs (hr.write hro hlock hl)).respond _
  | rdreg r =>
    obtain ⟨g, -, rfl⟩ := he
    exact h.respond _
  | wrmem sp a v =>
    obtain ⟨-, ha, -, rfl⟩ := he
    exact (h.writeBytes ha).respond _
  | rdmem sp a =>
    obtain ⟨-, rfl⟩ := he
    exact h.respond _
  | setup =>
    obtain ⟨hc, rfl⟩ := he
    have hl := legalConfig_of_setupChecks hc
    exact ((h.updRegs (hr.configure h.params hl)).writeConstants hl.readings).respond _
  | clrerr =>
    obtain rfl := he
    exact (h.updRegs (hr.withRecord ⟨fun _ => ⟨rfl, rfl, rfl⟩, fun _ => rfl⟩)).respond _
  | sreset =>
    obtain rfl := he
    exact (h.updRegs (RegsInv.reset _)).respond _
  | qsample c v =>
    obtain ⟨-, -, -, rfl⟩ := he
    exact h.respond _
  | quant =>
    obtain ⟨-, hn, rfl⟩ := he
    exact (h.writeBytes (by simpa [quantizedInput] using hn)).respond _
  | pack =>
    obtain ⟨hc, -, hlen, rfl⟩ := he
    exact (h.leaveBitstream hc hlen).respond _
  | qpack =>
    obtain ⟨hc, hlen, rfl⟩ := he
    exact (h.leaveBitstream hc hlen).respond _
  | srst =>
    obtain rfl := he
    exact (h.updRegs (hr.withSerializer (.closed (Nat.zero_le _)) _)).respond _
  | spush n v =>
    obtain ⟨-, hn, -, hroom, rfl⟩ := he
    exact (h.pushBits (by simpa using hn) (by simpa using hroom)).respond _
  | sflush =>
    obtain ⟨hroom, rfl⟩ := he
    exact (h.flush hroom).respond _
  | fhdr hi ts =>
    obtain ⟨hc, src, f, p, hsel, rfl⟩ := he
    refine ((h.writeHeader ts f p).updRegs ?_).respond _
    rw [writeHeader_regs, writeHeader_params]
    exact hr.beginPacket hc ts hsel
  | fpay =>
    obtain ⟨hf, -, hpa, rfl⟩ := he
    refine ((h.writeBytes (by simpa using hpa)).updRegs ?_).respond _
    exact hr.advance (by simp [hf]) _ (hr.packet.pktLen_eq_zero (by simp [hf]))
  | fmeta =>
    obtain ⟨hf, ⟨-, hpa, rfl⟩ | ⟨-, rfl⟩⟩ := he
    · refine ((h.writeBytes (by simpa [metaTableLen] using hpa)).updRegs ?_).respond _
      exact hr.advance (by simp [hf]) _ (hr.packet.pktLen_eq_zero (by simp [hf]))
    · exact (h.updRegs (hr.advance (by simp [hf]) _ (hr.packet.pktLen_eq_zero (by simp [hf])))).respond _
  | fdone =>
    obtain ⟨hf, rfl⟩ := he
    exact (h.updRegs (hr.advance (by simp [hf]) _ rfl)).respond _
  | mpkt hi ts =>
    obtain ⟨hc, hg, hma, rfl⟩ := he
    have hw := h.writeBytes (sp := .ma) (a := 0) (bs := le32 ts) (by simp)
    have hv : (writeValues (s.writeBytes .ma 0 (le32 ts))).Inv := by
      rw [writeValues_eq]
      exact hw.writeSlots fun k hk => by simp at hk hma ⊢; omega
    refine (hv.updRegs ?_).respond _
    rw [writeValues_regs, writeValues_params]
    exact hr.metaPacketDone hc hg ts

/-- No command raises "no error" (60_exceptions.md R200). -/
theorem noError_notMem_errorsOf (i : Instr) : ErrCode.noError ∉ errorsOf i := by
  cases i <;> simp [errorsOf]

/-- Every command keeps the invariant: it raises an error or has its effect. -/
theorem State.Inv.exec {i : Instr} {s t : State} (h : s.Inv) (he : exec i s = .next t) : t.Inv := by
  rcases exec_next he with ⟨e, info, hmem, -, hinfo, rfl⟩ | heff
  · exact h.raise (fun hn => noError_notMem_errorsOf i (hn ▸ hmem)) hinfo
  · exact h.effect heff

/-- Settles O10: by cases on what a step can do, every operation of the state keeping the invariant. -/
theorem stepKeepsTheInvariant : Obligations.StepKeepsTheInvariant := by
  intro s t h hstep
  rcases step_next hstep with ⟨-, rfl⟩ | ⟨c, rest, -, ⟨e, -, rfl⟩ | ⟨i, -, hexec⟩⟩
  · exact h
  · exact (h.withPort rest).raise nofun fun _ => rfl
  · exact (h.withPort rest).exec hexec

end Sys2Proof.Machine

/-! Which registers a command changes (10_state.md R23, R42, R45), and the step without a command (R47). -/

namespace Sys2Proof.Machine

/-- Settles O8: the port has no first command to take. -/
theorem nothingHappensWithoutACommand : Obligations.NothingHappensWithoutACommand := by
  intro s hport
  simp [step, State.nextCommand, hport]

/-! ## The columns of R42: a register that a command does not write reads as before -/

section Reads

variable (r : Regs) {g : Reg}

theorem read_configure (h : 0x05 ∉ Spec.writersOf g) : (configure r).read g = r.read g := by
  cases g <;> simp [Spec.writersOf] at h <;> rfl

theorem read_clearError (h : g ≠ .err) : (clearError r).read g = r.read g := by
  cases g <;> simp at h <;> rfl

theorem read_withSerializer (acc : Byte) (nb : BitVec 3) (wp : Word) (h : 0x0D ∉ Spec.writersOf g) :
    { r with serAcc := acc, serNb := nb, serWp := wp : Regs }.read g = r.read g := by
  cases g <;> simp [Spec.writersOf] at h <;> rfl

theorem read_closeSerializer (wp : Word) (h : 0x0C ∉ Spec.writersOf g) :
    { r with serAcc := 0, serNb := 0, serWp := wp, cvalid := false : Regs }.read g = r.read g := by
  cases g <;> simp [Spec.writersOf] at h <;> rfl

theorem read_beginPacket (t : Word) (src : FSrc) (f : Bool) (p : Word) (h : 0x10 ∉ Spec.writersOf g) :
    (beginPacket t src f p r).read g = r.read g := by
  cases g <;> simp [Spec.writersOf] at h <;> rfl

theorem read_withFstate (st : FState) (h : g ≠ .status) : { r with fstate := st : Regs }.read g = r.read g := by
  cases g <;> simp at h <;> rfl

theorem read_completePacket (len : Word) (h : 0x13 ∉ Spec.writersOf g) :
    { r with pktLen := len, fstate := .complete, cvalid := false : Regs }.read g = r.read g := by
  cases g <;> simp [Spec.writersOf] at h <;> rfl

theorem read_withMetaPacket (ts len : Word) (h : 0x14 ∉ Spec.writersOf g) :
    { r with mTs := ts, mpktLen := len, mpktValid := true : Regs }.read g = r.read g := by
  cases g <;> simp [Spec.writersOf] at h <;> rfl

end Reads

/-! SFLUSH writes the registers that SPUSH does, PACK and QPACK those that SRST does. -/

theorem sflush_mem_writersOf (g : Reg) : 0x0E ∈ Spec.writersOf g ↔ 0x0D ∈ Spec.writersOf g := by
  cases g <;> simp [Spec.writersOf]

theorem pack_mem_writersOf (g : Reg) : 0x0A ∈ Spec.writersOf g ↔ 0x0C ∈ Spec.writersOf g := by
  cases g <;> simp [Spec.writersOf]

theorem qpack_mem_writersOf (g : Reg) : 0x0B ∈ Spec.writersOf g ↔ 0x0C ∈ Spec.writersOf g := by
  cases g <;> simp [Spec.writersOf]

/-! ## Over all commands -/

/-- An effect leaves every register but those the map lets its command write (10_state.md R42). -/
theorem EffectOf.read_other {i : Instr} {s t : State} {g : Reg} (he : EffectOf i s t) (herr : g ≠ .err)
    (hreset : i ≠ .sreset) (hown : ∀ r v, i = .wrreg r v → regOf r ≠ some g)
    (hw : i.opcode.toNat ∉ Spec.writersOf g) : t.regs.read g = s.regs.read g := by
  cases i with
  | nop =>
    obtain rfl := he
    rfl
  | wrreg r v =>
    obtain ⟨g', hr, -, -, -, -, rfl⟩ := he
    exact read_write_other s.regs v fun hg => hown r v rfl (hg ▸ hr)
  | rdreg r =>
    obtain ⟨-, -, rfl⟩ := he
    rfl
  | wrmem sp a v =>
    obtain ⟨-, -, -, rfl⟩ := he
    rw [respond_regs, writeBytes_regs]
  | rdmem sp a =>
    obtain ⟨-, rfl⟩ := he
    rfl
  | setup =>
    obtain ⟨-, rfl⟩ := he
    rw [respond_regs, writeConstants_regs]
    exact read_configure s.regs hw
  | clrerr =>
    obtain rfl := he
    exact read_clearError s.regs herr
  | sreset => exact absurd rfl hreset
  | qsample c v =>
    obtain ⟨-, -, -, rfl⟩ := he
    rfl
  | quant =>
    obtain ⟨-, -, rfl⟩ := he
    rw [respond_regs, writeBytes_regs]
  | pack =>
    obtain ⟨-, -, -, rfl⟩ := he
    rw [respond_regs, leaveBitstream_regs]
    exact read_closeSerializer s.regs _ (mt (pack_mem_writersOf g).mpr hw)
  | qpack =>
    obtain ⟨-, -, rfl⟩ := he
    rw [respond_regs, leaveBitstream_regs]
    exact read_closeSerializer s.regs _ (mt (qpack_mem_writersOf g).mpr hw)
  | srst =>
    obtain rfl := he
    exact read_closeSerializer s.regs 0 hw
  | spush n v =>
    obtain ⟨-, -, -, -, rfl⟩ := he
    rw [respond_regs, pushBits_regs]
    exact read_withSerializer s.regs _ _ _ hw
  | sflush =>
    obtain ⟨-, rfl⟩ := he
    rw [respond_regs, flush_regs]
    exact read_withSerializer s.regs _ _ _ (mt (sflush_mem_writersOf g).mpr hw)
  | fhdr hi ts =>
    obtain ⟨-, src, f, p, -, rfl⟩ := he
    rw [respond_regs, updRegs_regs, writeHeader_regs]
    exact read_beginPacket s.regs _ _ _ _ hw
  | fpay =>
    obtain ⟨-, -, -, rfl⟩ := he
    exact read_withFstate s.regs _ fun hg => hw (by rw [hg]; decide)
  | fmeta =>
    have hg : g ≠ .status := fun hg => hw (by rw [hg]; decide)
    obtain ⟨-, ⟨-, -, rfl⟩ | ⟨-, rfl⟩⟩ := he <;> exact read_withFstate s.regs _ hg
  | fdone =>
    obtain ⟨-, rfl⟩ := he
    exact read_completePacket s.regs _ hw
  | mpkt hi ts =>
    obtain ⟨-, -, -, rfl⟩ := he
    rw [respond_regs, updRegs_regs, writeValues_regs, writeBytes_regs]
    exact read_withMetaPacket s.regs _ _ hw

/-- Settles O14: an error changes ERR alone, and an effect only what the map lets its command write. -/
theorem registersChangeOnlyByTheirWriters : Obligations.RegistersChangeOnlyByTheirWriters := by
  intro i s t g hexec herr hne
  by_contra hno
  obtain ⟨hreset, hown, hw⟩ : i ≠ .sreset ∧ (¬ ∃ r v, i = .wrreg r v ∧ regOf r = some g)
      ∧ i.opcode.toNat ∉ Spec.writersOf g := by simpa only [not_or] using hno
  rcases exec_next hexec with ⟨e, info, -, -, -, rfl⟩ | heff
  · exact hne (recordError_read _ _ _ _ herr)
  · exact hne (heff.read_other herr hreset (fun r v hi hr => hown ⟨r, v, hi, hr⟩) hw)

/-- STATUS shows CONFIGURED in bit 0 (10_state.md R35). -/
theorem status_bit_zero (r : Regs) : (r.read .status).getLsbD 0 = r.configured := by
  simp only [Regs.read, Regs.statusWord, BitVec.getLsbD_append]
  cases r.configured <;> rfl

/-- No effect but SRESET's clears CONFIGURED (43_framer.md R164). -/
theorem EffectOf.configured {i : Instr} {s t : State} (he : EffectOf i s t) (hc : s.regs.configured = true)
    (hreset : i ≠ .sreset) : t.regs.configured = true := by
  by_cases hw : i.opcode.toNat ∈ Spec.writersOf .status
  · cases i with
    | setup =>
      obtain ⟨-, rfl⟩ := he
      rw [respond_regs, writeConstants_regs]
      rfl
    | fhdr hi ts =>
      obtain ⟨-, src, f, p, -, rfl⟩ := he
      rw [respond_regs, updRegs_regs, writeHeader_regs]
      exact hc
    | fpay =>
      obtain ⟨-, -, -, rfl⟩ := he
      exact hc
    | fmeta => obtain ⟨-, ⟨-, -, rfl⟩ | ⟨-, rfl⟩⟩ := he <;> exact hc
    | fdone =>
      obtain ⟨-, rfl⟩ := he
      exact hc
    | mpkt hi ts =>
      obtain ⟨-, -, -, rfl⟩ := he
      rw [respond_regs, updRegs_regs, writeValues_regs]
      exact hc
    | _ => simp [Instr.opcode, Spec.writersOf] at hw
  · have hown : ∀ r v, i = .wrreg r v → regOf r ≠ some .status := by
      rintro r v rfl hr
      obtain ⟨g, hg, hro, -⟩ := he
      cases hr.symm.trans hg
      exact hro rfl
    rw [← status_bit_zero, he.read_other (g := .status) nofun hreset hown hw, status_bit_zero, hc]

/-- The map lets no command but WRREG and SRESET write a CFG register (10_state.md R42). -/
theorem writersOf_cfg {g : Reg} (hg : g.cls = .cfg) : Spec.writersOf g = [] := by
  cases g <;> simp [Reg.cls] at hg <;> rfl

/-- Settles O18: an error changes ERR alone, WRREG refuses a CFG register, and no other command writes one. -/
theorem configurationIsLockedUntilSreset : Obligations.ConfigurationIsLockedUntilSreset := by
  intro i s t hexec hc hreset
  rcases exec_next hexec with ⟨e, info, -, -, -, rfl⟩ | heff
  · refine ⟨by simpa using hc, fun g hg => recordError_read _ _ _ _ ?_⟩
    rintro rfl
    cases hg
  · refine ⟨heff.configured hc hreset, fun g hg => heff.read_other ?_ hreset ?_ ?_⟩
    · rintro rfl
      cases hg
    · rintro r v rfl hr
      obtain ⟨g', hr', -, hlock, -⟩ := heff
      cases hr.symm.trans hr'
      exact absurd (hc.symm.trans (hlock hg)) (by decide)
    · rw [writersOf_cfg hg]
      exact List.not_mem_nil

end Sys2Proof.Machine

/-! The register map (10_state.md R42): every index, and what every register reads as (R22, R24 to R41, R43). -/

namespace Sys2Proof.Machine

/-! ## The map from indices to registers -/

/-- The scalar registers end at index 0x015 (R42). -/
theorem scalarReg_eq_none_iff (n : Nat) : scalarReg n = none ↔ 0x016 ≤ n := by
  unfold scalarReg
  split <;> simp_all
  omega

theorem index_of_scalarReg {n : Nat} {g : Reg} (h : scalarReg n = some g) : g.index.toNat = n := by
  unfold scalarReg at h
  split at h <;> cases h <;> rfl

theorem regOf_scalar {r : Word} (h : r.toNat < 0x100) : regOf r = scalarReg r.toNat := if_pos h

theorem regOf_bw (c : Fin 256) : regOf (BitVec.ofNat 32 (0x100 + c.val)) = some (.bw c) := by
  have hn : (BitVec.ofNat 32 (0x100 + c.val)).toNat = 0x100 + c.val := index_toNat (.bw c)
  unfold regOf
  dsimp only
  rw [hn, if_neg (by omega), if_pos (by omega)]
  simp

theorem regOf_mname (k : Fin 512) : regOf (BitVec.ofNat 32 (0x200 + k.val)) = some (.mname k) := by
  have hn : (BitVec.ofNat 32 (0x200 + k.val)).toNat = 0x200 + k.val := index_toNat (.mname k)
  unfold regOf
  dsimp only
  rw [hn, if_neg (by omega), if_neg (by omega), if_pos (by omega)]
  simp

theorem regOf_mval (c : Fin 256) : regOf (BitVec.ofNat 32 (0x400 + c.val)) = some (.mval c) := by
  have hn : (BitVec.ofNat 32 (0x400 + c.val)).toNat = 0x400 + c.val := index_toNat (.mval c)
  unfold regOf
  dsimp only
  rw [hn, if_neg (by omega), if_neg (by omega), if_neg (by omega), if_pos (by omega)]
  simp

theorem regOf_ebw (c : Fin 256) : regOf (BitVec.ofNat 32 (0x500 + c.val)) = some (.ebw c) := by
  have hn : (BitVec.ofNat 32 (0x500 + c.val)).toNat = 0x500 + c.val := index_toNat (.ebw c)
  unfold regOf
  dsimp only
  rw [hn, if_neg (by omega), if_neg (by omega), if_neg (by omega), if_neg (by omega), if_pos (by omega)]
  simp

/-- A register's index names it. -/
theorem regOf_index (g : Reg) : regOf g.index = some g := by
  cases g with
  | bw c => exact regOf_bw c
  | mname k => exact regOf_mname k
  | mval c => exact regOf_mval c
  | ebw c => exact regOf_ebw c
  | _ => rfl

/-- Every index below 0x600 past the scalar registers is one of a register file's entries. -/
theorem exists_file_index {r : Word} (h1 : 0x100 ≤ r.toNat) (h2 : r.toNat < 0x600) : ∃ g : Reg, g.index = r := by
  have index_eq : ∀ g : Reg, g.index.toNat = r.toNat → g.index = r := fun g => BitVec.eq_of_toNat_eq
  rcases lt_or_ge r.toNat 0x200 with h | h
  · exact ⟨.bw ⟨r.toNat - 0x100, by omega⟩, index_eq _ (by simp only [index_toNat]; omega)⟩
  rcases lt_or_ge r.toNat 0x400 with h' | h'
  · exact ⟨.mname ⟨r.toNat - 0x200, by omega⟩, index_eq _ (by simp only [index_toNat]; omega)⟩
  rcases lt_or_ge r.toNat 0x500 with h'' | h''
  · exact ⟨.mval ⟨r.toNat - 0x400, by omega⟩, index_eq _ (by simp only [index_toNat]; omega)⟩
  · exact ⟨.ebw ⟨r.toNat - 0x500, by omega⟩, index_eq _ (by simp only [index_toNat]; omega)⟩

theorem regOf_undefined {r : Word} (h : 0x600 ≤ r.toNat) : regOf r = none := by
  unfold regOf
  dsimp only
  rw [if_neg (by omega), if_neg (by omega), if_neg (by omega), if_neg (by omega), if_neg (by omega)]

/-- Only a register's index names it. -/
theorem eq_index_of_regOf {r : Word} {g : Reg} (h : regOf r = some g) : r = g.index := by
  rcases lt_or_ge r.toNat 0x100 with h1 | h1
  · rw [regOf_scalar h1] at h
    exact BitVec.eq_of_toNat_eq (index_of_scalarReg h).symm
  rcases lt_or_ge r.toNat 0x600 with h2 | h2
  · obtain ⟨g', rfl⟩ := exists_file_index h1 h2
    rw [regOf_index] at h
    rw [Option.some.inj h]
  · rw [regOf_undefined h2] at h
    cases h

/-- The undefined indices (R42, R44). -/
theorem regOf_eq_none_iff (r : Word) :
    regOf r = none ↔ (0x016 ≤ r.toNat ∧ r.toNat < 0x100) ∨ 0x600 ≤ r.toNat := by
  rcases lt_or_ge r.toNat 0x100 with h1 | h1
  · rw [regOf_scalar h1, scalarReg_eq_none_iff]
    omega
  rcases lt_or_ge r.toNat 0x600 with h2 | h2
  · obtain ⟨g, rfl⟩ := exists_file_index h1 h2
    simp only [regOf_index, reduceCtorEq, false_iff]
    omega
  · simp only [regOf_undefined h2, h2, or_true]

/-- The scalar rows of R42. -/
theorem scalarRows_hold : ∀ x ∈ Spec.scalarRows, x.Holds := by
  unfold Spec.Row.Holds
  decide

/-- The rows of the register files. -/
theorem fileRow_holds {g : Reg} {x : Spec.Row} (h : Spec.fileRow g = some x) : x.Holds := by
  cases g with
  | bw c =>
    cases h
    exact ⟨regOf_bw c, index_toNat (.bw c), rfl, rfl⟩
  | mname k =>
    cases h
    exact ⟨regOf_mname k, index_toNat (.mname k), rfl, rfl⟩
  | mval c =>
    cases h
    exact ⟨regOf_mval c, index_toNat (.mval c), rfl, rfl⟩
  | ebw c =>
    cases h
    exact ⟨regOf_ebw c, index_toNat (.ebw c), rfl, rfl⟩
  | _ => cases h

/-- Every register has its row. -/
theorem exists_row (g : Reg) : (∃ x ∈ Spec.scalarRows, x.reg = g) ∨ ∃ x, Spec.fileRow g = some x := by
  cases g with
  | bw c => exact .inr ⟨_, rfl⟩
  | mname k => exact .inr ⟨_, rfl⟩
  | mval c => exact .inr ⟨_, rfl⟩
  | ebw c => exact .inr ⟨_, rfl⟩
  | _ => exact .inl (by decide)

/-- Settles O22: row by row for the table, range by range for the indices. -/
theorem registerMapHasOneRegisterAnIndex : Obligations.RegisterMapHasOneRegisterAnIndex :=
  ⟨scalarRows_hold, fun _ _ => fileRow_holds, exists_row, regOf_index, fun _ _ => eq_index_of_regOf, regOf_eq_none_iff,
    fun c => ⟨regOf_bw c, regOf_mval c, regOf_ebw c⟩, regOf_mname⟩

end Sys2Proof.Machine

namespace Sys2Proof.Machine

/-! ## What every register reads as -/

theorem mode_toNat (r : Regs) : (r.read .mode).toNat = r.uniform.toNat + 2 ^ 4 * r.ubits.toNat := by
  simp only [Regs.read, append_toNat, flagBit_toNat, BitVec.toNat_ofNat]
  omega

theorem status_toNat (r : Regs) : (r.read .status).toNat =
    r.configured.toNat + 2 ^ 4 * r.fstate.code.toNat + 2 ^ 8 * r.fComp.toNat + 2 ^ 9 * r.mpktValid.toNat
      + 2 ^ 10 * r.fSrc.code.toNat := by
  simp only [Regs.read, Regs.statusWord, append_toNat, flagBit_toNat, BitVec.toNat_ofNat]
  omega

theorem err_toNat (r : Regs) : (r.read .err).toNat =
    r.errCode.code.toNat + 2 ^ 8 * r.errOp.toNat + 2 ^ 16 * r.errInfo.toNat + 2 ^ 31 * r.errMore.toNat := by
  simp only [Regs.read, Regs.errWord, append_toNat, flagBit_toNat, BitVec.toNat_ofNat]
  omega

theorem ser_toNat (r : Regs) : (r.read .ser).toNat = r.serAcc.toNat + 2 ^ 8 * r.serNb.toNat := by
  simp only [Regs.read, append_toNat, BitVec.toNat_ofNat]
  omega

theorem bw_toNat (r : Regs) (c : Fin 256) : (r.read (.bw c)).toNat = r.bwAt c.val := by
  rw [Regs.read, BitVec.toNat_setWidth_of_le (by decide)]
  simp [Regs.bwAt, Vector.getD]

theorem ebw_toNat (r : Regs) (c : Fin 256) : (r.read (.ebw c)).toNat = r.ebwAt c.val := by
  rw [Regs.read, BitVec.toNat_setWidth_of_le (by decide)]
  simp [Regs.ebwAt, Vector.getD]

theorem mval_read (r : Regs) (c : Fin 256) : r.read (.mval c) = r.mvalAt c.val := by
  simp [Regs.read, Regs.mvalAt, Vector.getD]

theorem mname_read (r : Regs) (k : Fin 512) : r.read (.mname k) = r.mname.getD k.val 0 := by
  simp [Regs.read, Vector.getD]

/-! ## Reserved bits read 0 (R43) -/

/-- Reserved bits of a concatenation are those of its parts. -/
theorem reserved_append {m n : Nat} {x mx : BitVec m} {y my : BitVec n} (hx : x &&& ~~~mx = 0) (hy : y &&& ~~~my = 0) :
    (x ++ y) &&& ~~~(mx ++ my) = 0 := by
  rw [BitVec.not_append, BitVec.and_append, hx, hy]
  simp

/-- A field has no reserved bit. -/
theorem reserved_field {n : Nat} (x : BitVec n) : x &&& ~~~BitVec.allOnes n = 0 := by simp

/-- A field of n bits that stands alone in its register leaves the bits above it 0. -/
theorem reserved_setWidth {n : Nat} (x : BitVec n) {m : Word} (h : n ≤ 32) (hm : ∀ i < n, m.getLsbD i = true) :
    x.setWidth 32 &&& ~~~m = 0 :=
  and_not_mask_eq_zero n (by rw [BitVec.toNat_setWidth_of_le h]; exact x.isLt) hm

theorem reserved_mode (r : Regs) : r.read .mode &&& ~~~Reg.mode.fieldMask = 0 :=
  reserved_append (mx := 0#24 ++ BitVec.allOnes 4 ++ 0#3) (my := BitVec.allOnes 1)
    (reserved_append (reserved_append rfl (reserved_field _)) rfl) (reserved_field _)

theorem reserved_ser (r : Regs) : r.read .ser &&& ~~~Reg.ser.fieldMask = 0 :=
  reserved_append (mx := 0#21 ++ BitVec.allOnes 3) (my := BitVec.allOnes 8)
    (reserved_append rfl (reserved_field _)) (reserved_field _)

theorem reserved_err (r : Regs) : r.read .err &&& ~~~Reg.err.fieldMask = 0 :=
  reserved_append (mx := BitVec.allOnes 1 ++ 0#7 ++ BitVec.allOnes 8 ++ BitVec.allOnes 8) (my := BitVec.allOnes 8)
    (reserved_append (reserved_append (reserved_append (reserved_field _) rfl) (reserved_field _)) (reserved_field _))
    (reserved_field _)

theorem reserved_status (r : Regs) : r.read .status &&& ~~~Reg.status.fieldMask = 0 := by
  have hF : r.fSrc.code &&& ~~~BitVec.allOnes 2 = 0 := reserved_field _
  have h1 := reserved_append (x := 0#20) (mx := 0#20) rfl hF
  have h2 := reserved_append h1 (reserved_field (flagBit r.mpktValid))
  have h3 := reserved_append h2 (reserved_field (flagBit r.fComp))
  have h4 := reserved_append h3 (show 0#1 &&& ~~~0#1 = 0 from rfl)
  have h5 := reserved_append h4 (reserved_field r.fstate.code)
  have h6 := reserved_append h5 (show 0#3 &&& ~~~0#3 = 0 from rfl)
  exact reserved_append h6 (reserved_field (flagBit r.configured))

/-- Every reserved bit of every register reads 0. -/
theorem reserved_read (r : Regs) (g : Reg) : r.read g &&& ~~~g.fieldMask = 0 := by
  cases g with
  | mode => exact reserved_mode r
  | status => exact reserved_status r
  | err => exact reserved_err r
  | ser => exact reserved_ser r
  | chanC => exact reserved_setWidth _ (by decide) (by decide)
  | compEn => exact reserved_setWidth _ (by decide) (by decide)
  | gen => exact reserved_setWidth _ (by decide) (by decide)
  | metaCount => exact reserved_setWidth _ (by decide) (by decide)
  | cvalid => exact reserved_setWidth _ (by decide) (by decide)
  | bw c => exact reserved_setWidth _ (by decide) (by simp only [Reg.fieldMask]; decide)
  | ebw c => exact reserved_setWidth _ (by decide) (by simp only [Reg.fieldMask]; decide)
  | _ => exact reserved_field _

/-- Settles O23: each register word as the sum of its fields, each reserved bit by the parts of the word. -/
theorem registerFieldsStandInTheirBits : Obligations.RegisterFieldsStandInTheirBits := by
  intro r
  have flag_toNat : ∀ b : Bool, ((flagBit b).setWidth 32).toNat = b.toNat := fun b => by
    rw [BitVec.toNat_setWidth_of_le (by decide), flagBit_toNat]
  refine ⟨mode_toNat r, status_toNat r, err_toNat r, ser_toNat r, ?_, ?_, ?_, ?_, ?_, ?_, mname_read r,
    reserved_read r⟩
  · exact ⟨rfl, rfl, rfl, rfl, rfl⟩
  · exact ⟨rfl, rfl, rfl⟩
  · exact ⟨rfl, rfl, rfl, rfl, rfl, rfl⟩
  · exact ⟨rfl, rfl, BitVec.toNat_setWidth_of_le (by decide), flag_toNat _, BitVec.toNat_setWidth_of_le (by decide),
      BitVec.toNat_setWidth_of_le (by decide), rfl, rfl, rfl, rfl, rfl⟩
  · exact ⟨rfl, flag_toNat _, rfl, rfl, rfl, rfl, rfl⟩
  · exact fun c => ⟨bw_toNat r c, mval_read r c, ebw_toNat r c⟩

end Sys2Proof.Machine

/-! The pseudo-commands that write CFG registers in an unconfigured block: WRNAME, WRUNIFORM, WRWIDTHS (30_encoding.md
R89). -/

namespace Sys2Proof.Machine

open Sys2Proof.Spec

/-- The first command of a list runs, then the others (R89). -/
theorem perform_cons {i : Instr} {is : List Instr} {s t : State} (h : exec i s = .next t) :
    perform (i :: is) s = perform is t := by
  rw [perform, h]

/-- WRREG with no failing check writes its register (40_control.md R101). -/
theorem exec_wrreg_of_pass {s : State} {r v : Word} {g : Reg} (hr : regOf r = some g) (hro : g.cls ≠ .ro)
    (hlock : g.cls = .cfg → s.regs.configured = false) (hmask : v &&& ~~~g.fieldMask = 0)
    (hlen : g = .clen → v.toNat ≤ s.params.cbCap) :
    exec (.wrreg r v) s = .next ((s.updRegs fun x => x.write g v).respond 0) := by
  have hpass : firstFailing (wrregChecks r v s) = none := by
    rw [firstFailing_none, wrregChecks, hr]
    simpa [hro, hmask] using ⟨hlock, hlen⟩
  show execWrreg r v s = _
  rw [execWrreg, checked_pass hpass, writeReg, hr]

/-- An entry of a register file after a write. -/
theorem getD_set {α : Type} {n : Nat} (xs : Vector α n) (i : Fin n) (x d : α) (j : Nat) :
    (xs.set i.val x).getD j d = if j = i.val then x else xs.getD j d := by
  by_cases hj : j < n
  · simp [Vector.getD, hj, Array.getElem_set, eq_comm]
  · have hne : j ≠ i.val := fun h => hj (h ▸ i.isLt)
    simp [Vector.getD, hj, hne]

/-! ## WRNAME -/

theorem le32_wordOfBytes (bs : List Byte) :
    le32 (wordOfBytes bs) = [bs.getD 0 0, bs.getD 1 0, bs.getD 2 0, bs.getD 3 0] := by
  have byte_eq : ∀ (k : Nat) (b : Byte), (wordOfBytes bs).toNat / 2 ^ k % 2 ^ 8 = b.toNat →
      (wordOfBytes bs).extractLsb' k 8 = b := fun k b h => BitVec.eq_of_toNat_eq (by
    rw [BitVec.extractLsb'_toNat, Nat.shiftRight_eq_div_pow, h])
  unfold le32
  rw [byte_eq 0 (bs.getD 0 0), byte_eq 8 (bs.getD 1 0), byte_eq 16 (bs.getD 2 0), byte_eq 24 (bs.getD 3 0)]
  all_goals
    simp only [wordOfBytes, append_toNat]
    omega

/-- The two halves of a name of eight bytes hold its bytes (10_state.md R31). -/
theorem le32_halves {n : List Byte} (h : n.length = 8) :
    le32 (wordOfBytes n) ++ le32 (wordOfBytes (n.drop 4)) = n := by
  rw [le32_wordOfBytes, le32_wordOfBytes]
  match n, h with
  | [a, b, c, d, e, f, g, h], _ => rfl

/-- The names after a write of both halves of a slot. -/
theorem nameBytes_set_halves (r : Regs) (slot : Fin 256) (lo hi : Word) (k : Nat) :
    { r with mname := (r.mname.set (2 * slot.val) lo).set (2 * slot.val + 1) hi : Regs }.nameBytes k
      = if k = slot.val then le32 lo ++ le32 hi else r.nameBytes k := by
  have hset := fun j => getD_set (r.mname.set (2 * slot.val) lo) ⟨2 * slot.val + 1, by omega⟩ hi 0 j
  have hset' := fun j => getD_set r.mname ⟨2 * slot.val, by omega⟩ lo 0 j
  simp only [Regs.nameBytes, hset, hset']
  by_cases hk : k = slot.val
  · subst hk
    simp
  · have h1 : 2 * k ≠ 2 * slot.val := by omega
    have h2 : 2 * k ≠ 2 * slot.val + 1 := by omega
    have h3 : 2 * k + 1 ≠ 2 * slot.val := by omega
    have h4 : 2 * k + 1 ≠ 2 * slot.val + 1 := by omega
    simp only [hk, h1, h2, h3, h4, if_false]

/-- WRREG of half k of the names in an unconfigured block. -/
theorem exec_wrreg_mname {s : State} (hc : s.regs.configured = false) (k : Fin 512) (v : Word) :
    exec (.wrreg (BitVec.ofNat 32 (0x200 + k.val)) v) s
      = .next ((s.updRegs fun x => { x with mname := x.mname.set k v }).respond 0) :=
  exec_wrreg_of_pass (g := .mname k) (regOf_mname k) nofun (fun _ => hc) (reserved_field v) nofun

/-- WRREG of both halves of a slot. -/
theorem perform_wrreg_halves {s : State} (hc : s.regs.configured = false) (slot : Fin 256) (lo hi : Word) :
    perform [ .wrreg (BitVec.ofNat 32 (0x200 + 2 * slot.val)) lo, .wrreg (BitVec.ofNat 32 (0x201 + 2 * slot.val)) hi ] s
      = .next ((s.updRegs fun x =>
          { x with mname := (x.mname.set (2 * slot.val) lo).set (2 * slot.val + 1) hi }).respond 0) := by
  have hidx : 0x201 + 2 * slot.val = 0x200 + (2 * slot.val + 1) := by omega
  rw [hidx, perform_cons (exec_wrreg_mname hc ⟨2 * slot.val, by omega⟩ lo)]
  exact perform_cons (exec_wrreg_mname (by exact hc) ⟨2 * slot.val + 1, by omega⟩ hi)

/-- Settles O56: two writes of name halves, which give the bytes of the padded text back. -/
theorem wrnameStoresThePaddedName : Obligations.WrnameStoresThePaddedName := by
  intro s slot text hc hslot htext
  have hpad : (text ++ List.replicate (8 - text.length) (0 : Byte)).length = 8 := by simp; omega
  refine ⟨_, perform_wrreg_halves hc ⟨slot, hslot⟩ _ _, ?_, fun k hk => ?_, rfl, fun sp a => ?_⟩
  · exact (nameBytes_set_halves s.regs ⟨slot, hslot⟩ _ _ slot).trans ((if_pos rfl).trans (le32_halves hpad))
  · exact (nameBytes_set_halves s.regs ⟨slot, hslot⟩ _ _ k).trans (if_neg hk)
  · rw [respond_readByte, updRegs_readByte]

/-! ## WRUNIFORM and WRWIDTHS -/

/-- WRREG of MODE in an unconfigured block. -/
theorem exec_wrreg_mode {s : State} (hc : s.regs.configured = false) {v : Word}
    (hmask : v &&& ~~~Reg.mode.fieldMask = 0) :
    exec (.wrreg 0x003 v) s
      = .next ((s.updRegs fun x => { x with uniform := v.getLsbD 0, ubits := v.extractLsb' 4 4 }).respond 0) :=
  exec_wrreg_of_pass (g := .mode) rfl nofun (fun _ => hc) hmask nofun

/-- WRREG of a width in an unconfigured block. -/
theorem exec_wrreg_bw {s : State} (hc : s.regs.configured = false) (c : Fin 256) {v : Word} (hv : v.toNat < 16) :
    exec (.wrreg (BitVec.ofNat 32 (0x100 + c.val)) v) s
      = .next ((s.updRegs fun x => { x with bw := x.bw.set c (v.extractLsb' 0 4) }).respond 0) :=
  exec_wrreg_of_pass (g := .bw c) (regOf_bw c) nofun (fun _ => hc)
    (and_not_mask_eq_zero 4 hv (by simp only [Reg.fieldMask]; decide)) nofun

/-- 1 + 16·b as MODE holds it (10_state.md R25). -/
theorem uniformMode_fields : ∀ b < 16, BitVec.ofNat 32 (1 + 16 * b) &&& ~~~Reg.mode.fieldMask = 0
    ∧ (BitVec.ofNat 32 (1 + 16 * b)).getLsbD 0 = true
    ∧ (BitVec.ofNat 32 (1 + 16 * b)).extractLsb' 4 4 = BitVec.ofNat 4 b := by decide

theorem perform_pseudoWruniform {s : State} (hc : s.regs.configured = false) {b : Nat} (hb : b < 16) :
    perform (pseudoWruniform b) s
      = .next ((s.updRegs fun x => { x with uniform := true, ubits := BitVec.ofNat 4 b }).respond 0) := by
  obtain ⟨hmask, huni, hbits⟩ := uniformMode_fields b hb
  rw [pseudoWruniform, perform_cons (exec_wrreg_mode hc hmask), huni, hbits]
  rfl

/-- The writes of the widths of the channels k, k + 1, ... -/
def widthWrites (k : Nat) (bs : List Word) : List Instr :=
  bs.mapIdx fun c b => .wrreg (BitVec.ofNat 32 (0x100 + (k + c))) b

theorem pseudoWrwidths_eq (bs : List Word) : pseudoWrwidths bs = .wrreg 0x003 0 :: widthWrites 0 bs := by
  simp [pseudoWrwidths, widthWrites]

theorem widthWrites_cons (k : Nat) (b : Word) (bs : List Word) :
    widthWrites k (b :: bs) = .wrreg (BitVec.ofNat 32 (0x100 + k)) b :: widthWrites (k + 1) bs := by
  simp [widthWrites, List.mapIdx_cons, Nat.add_assoc, Nat.add_comm 1]

/-- The entry of one width after its write. -/
theorem bwAt_set (r : Regs) (c : Fin 256) {v : Word} (hv : v.toNat < 16) (j : Nat) :
    { r with bw := r.bw.set c (v.extractLsb' 0 4) : Regs }.bwAt j = if j = c.val then v.toNat else r.bwAt j := by
  have hw : (v.extractLsb' 0 4).toNat = v.toNat := by
    rw [BitVec.extractLsb'_toNat, Nat.shiftRight_zero]
    exact Nat.mod_eq_of_lt hv
  rw [Regs.bwAt, getD_set]
  split
  · exact hw
  · rfl

/-- The writes of consecutive widths set their BW entries and nothing else. -/
theorem perform_widthWrites (bs : List Word) {s : State} {k : Nat} (hc : s.regs.configured = false)
    (hresp : s.resp = some 0) (hk : k + bs.length ≤ 256) (hv : ∀ v ∈ bs, v.toNat < 16) :
    ∃ t, perform (widthWrites k bs) s = .next t ∧ Leaves s t { s.regs with bw := t.regs.bw } 0 ∧ MemoryKept s t
      ∧ ∀ c, t.regs.bwAt c = if k ≤ c ∧ c < k + bs.length then (bs.getD (c - k) 0).toNat else s.regs.bwAt c := by
  induction bs generalizing s k with
  | nil =>
    refine ⟨s, rfl, ⟨rfl, rfl, rfl, hresp⟩, fun _ _ => rfl, fun c => ?_⟩
    rw [if_neg (by simp)]
  | cons b bs ih =>
    rw [List.length_cons] at hk
    obtain ⟨hb, hbs⟩ := List.forall_mem_cons.mp hv
    have hexec := exec_wrreg_bw hc ⟨k, by omega⟩ hb
    obtain ⟨t, hperf, hleaves, hmem, hbw⟩ :=
      ih (s := (s.updRegs fun x => { x with bw := x.bw.set k (b.extractLsb' 0 4) }).respond 0) (k := k + 1) hc rfl
        (by omega) hbs
    refine ⟨t, by rw [widthWrites_cons, perform_cons hexec]; exact hperf, hleaves, fun sp a => ?_, fun c => ?_⟩
    · rw [hmem sp a, respond_readByte, updRegs_readByte]
    · rw [hbw c, List.length_cons]
      by_cases hlater : k + 1 ≤ c ∧ c < k + 1 + bs.length
      · have hidx : c - k = c - (k + 1) + 1 := by omega
        rw [if_pos hlater, if_pos (by omega), hidx, List.getD_cons_succ]
      · rw [if_neg hlater]
        refine (bwAt_set s.regs ⟨k, by omega⟩ hb c).trans ?_
        by_cases hck : c = k
        · rw [if_pos hck, if_pos (by omega), hck, Nat.sub_self, List.getD_cons_zero]
        · rw [if_neg hck, if_neg (by omega)]

/-- Settles O58: one write of MODE, then the widths one by one. -/
theorem widthCommandsSetTheWidths : Obligations.WidthCommandsSetTheWidths := by
  refine ⟨fun s b hc hb => ?_, fun s bs hc hlen hv => ?_⟩
  · refine ⟨_, perform_pseudoWruniform hc hb, ⟨rfl, rfl, rfl, rfl⟩, fun sp a => ?_⟩
    rw [respond_readByte, updRegs_readByte]
  · have hmode := exec_wrreg_mode hc (v := 0) rfl
    obtain ⟨t, hperf, hleaves, hmem, hbw⟩ :=
      perform_widthWrites bs (s := (s.updRegs fun x => { x with uniform := false, ubits := 0 }).respond 0) (k := 0) hc
        rfl (by omega) hv
    refine ⟨t, ?_, hleaves, fun sp a => ?_, fun c _ => ?_⟩
    · rw [pseudoWrwidths_eq, perform_cons hmode]
      exact hperf
    · rw [hmem sp a, respond_readByte, updRegs_readByte]
    · rw [hbw c, Nat.zero_add, Nat.sub_zero]
      simp only [Nat.zero_le, true_and]
      rfl

end Sys2Proof.Machine

/-! The step performs the next command (20_memory.md R70) and never stops: no bulk command leaves its space in a state
that meets the invariant (R73, 93_implementation_defined.md U7). -/

namespace Sys2Proof.Machine

/-! ## One step -/

/-- Settles O7: the decoder's answer chooses the branch of the step. -/
theorem stepPerformsTheNextCommand : Obligations.StepPerformsTheNextCommand := by
  intro s c rest i hport hdecode
  simp [step, State.nextCommand, hport, hdecode]

/-- A step on a command that does not decode records ILLEGAL_COMMAND (30_encoding.md R82). -/
theorem step_of_decode_error {s : State} {c : Command} {rest : List Command} {e : DecodeError}
    (hport : s.port = c :: rest) (hdecode : decode c = .error e) :
    step s = .next (({ s with port := rest } : State).rejectCommand c) := by
  simp [step, State.nextCommand, hport, hdecode]

/-! ## Checks and range guards answer -/

/-- A failing check answers too: an error is no stop (60_exceptions.md R201). -/
theorem checked_answers {op : Byte} {cs : List Check} {s : State} {e : Result}
    (h : firstFailing cs = none → ∃ t, e = .next t) : ∃ t, checked op cs s e = .next t := by
  cases hc : firstFailing cs with
  | none => rw [checked_pass hc]; exact h hc
  | some c => exact ⟨_, checked_fail hc⟩

theorem within_answers {s : State} {sp : Space} {n : Nat} {e : Result} (hn : n ≤ capacity s.params sp)
    (h : ∃ t, e = .next t) : ∃ t, within s sp n e = .next t := by
  rwa [within_ok hn]

/-! ## The ranges of the bulk commands lie in their spaces (20_memory.md R73) -/

/-- The stream of a frame has the configured raw length, whatever its samples are (42_packer.md R137). -/
theorem DerivedRegs.pack_length {r : Regs} (h : DerivedRegs r) {q : List Byte} (hq : q.length = r.nsamp.toNat) :
    (pack r.widths r.channels q).length = r.plenRaw.toNat := by
  rw [Machine.pack_length r.widths r.channels (r.frameW.toNat * r.frameH.toNat) q (hq.trans h.samples), h.rawLength,
    h.bitsPerPixel]

/-- A configured frame fits IFB and QB. -/
theorem State.Inv.nsamp_le {s : State} (h : s.Inv) (hc : s.regs.configured = true) :
    s.regs.nsamp.toNat ≤ s.params.maxSamples := by
  rw [(h.derived hc).samples]
  exact (h.legal hc).size

/-- The stream of a configured frame fits PB. -/
theorem State.Inv.pack_length_le {s : State} (h : s.Inv) (hc : s.regs.configured = true) {q : List Byte}
    (hq : q.length = s.regs.nsamp.toNat) : (pack s.regs.widths s.regs.channels q).length ≤ s.params.maxSamples := by
  rw [(h.derived hc).pack_length hq]
  exact (h.legal hc).plenRaw_le (h.derived hc)

/-- A raw or compressed payload is no longer than the raw stream of a frame (43_framer.md R159). -/
theorem LatchedPayload.fPlen_le_plenRaw {p : Params} {r : Regs} (h : LatchedPayload p r) (hsrc : r.fSrc ≠ .ext) :
    r.fPlen.toNat ≤ r.plenRaw.toNat := by
  cases hs : r.fSrc with
  | raw => rw [h.rawLength hs]
  | comp => exact h.compressedLength hs
  | ext => exact absurd hs hsrc

/-- The payload FHDR chose lies in the memory it comes from (43_framer.md R161). -/
theorem State.Inv.payload_le_source {s : State} (h : s.Inv) (hn : s.regs.fstate ≠ .new) :
    s.regs.fPlen.toNat ≤ capacity s.params s.regs.fSrc.space := by
  have hc := h.regsInv.packet.configured hn
  have hl := h.latched hn
  cases hs : s.regs.fSrc with
  | raw => exact (hl.fPlen_le_plenRaw (by simp [hs])).trans ((h.legal hc).plenRaw_le (h.derived hc))
  | comp => exact hl.fitsCb (by simp [hs])
  | ext => exact hl.fitsCb (by simp [hs])

/-- The longest header is that of generation 1 (43_framer.md R151). -/
theorem headerLen_le (r : Regs) : headerLen r ≤ 18 + r.channels := by
  unfold headerLen
  split
  · omega
  · split <;> omega

/-- The packet being built fits PA with its metadata table, if its generation has one: PA_CAP is the larger of the two
lengths a packet can have (20_memory.md R63). -/
theorem State.Inv.packet_le_pa {s : State} (h : s.Inv) (hn : s.regs.fstate ≠ .new) :
    s.regs.hdrLen.toNat + s.regs.fPlen.toNat + tableLen s.regs ≤ capacity s.params .pa := by
  have hc := h.regsInv.packet.configured hn
  have hl := h.latched hn
  rw [capacity_pa, (h.derived hc).headerLength]
  by_cases hg : s.regs.gen = 2
  · have hcb := hl.fitsCb (by simp [hl.external.mp hg])
    rw [tableLen, if_pos hg, headerLen, if_neg (by simp [hg]), if_neg (by simp [hg])]
    omega
  · have hraw := hl.fPlen_le_plenRaw (mt hl.external.mpr hg)
    have hpb := (h.legal hc).plenRaw_le (h.derived hc)
    have hhdr := headerLen_le s.regs
    have hC := channels_lt s.regs
    rw [tableLen, if_neg hg, metaTableLen]
    omega

/-! ## Every command answers -/

theorem execQuant_answers {s : State} (h : s.Inv) : ∃ t, execQuant s = .next t :=
  checked_answers fun hc =>
    have hn := h.nsamp_le (needsSetup_none hc)
    within_answers hn (within_answers hn ⟨_, rfl⟩)

theorem execPack_answers {s : State} (h : s.Inv) : ∃ t, execPack s = .next t :=
  checked_answers fun hc =>
    have hconf := needsSetup_none hc
    within_answers (h.nsamp_le hconf)
      (checked_answers fun _ => within_answers (h.pack_length_le hconf (by simp)) ⟨_, rfl⟩)

theorem execQpack_answers {s : State} (h : s.Inv) : ∃ t, execQpack s = .next t :=
  checked_answers fun hc =>
    have hconf := needsSetup_none hc
    within_answers (h.nsamp_le hconf)
      (within_answers (h.pack_length_le hconf (by simp [quantizedInput])) ⟨_, rfl⟩)

theorem execFpay_answers {s : State} (h : s.Inv) : ∃ t, execFpay s = .next t :=
  checked_answers fun hc =>
    have hn : s.regs.fstate ≠ .new := by simp [inState_none hc]
    within_answers (h.payload_le_source hn)
      (within_answers ((Nat.le_add_right _ _).trans (h.packet_le_pa hn)) ⟨_, rfl⟩)

theorem execFmeta_answers {s : State} (h : s.Inv) : ∃ t, execFmeta s = .next t := by
  refine checked_answers fun hc => ?_
  split
  · rename_i hg
    have hpa := h.packet_le_pa (by simp [inState_none hc])
    have hg2 : s.regs.gen ≠ 2 := by rcases hg with hg | hg <;> simp [hg]
    rw [tableLen, if_neg hg2] at hpa
    exact within_answers hpa ⟨_, rfl⟩
  · exact ⟨_, rfl⟩

theorem execMpkt_answers {s : State} (h : s.Inv) (hi ts : Word) : ∃ t, execMpkt hi ts s = .next t := by
  refine checked_answers fun hc => within_answers ?_ ⟨_, rfl⟩
  have hconf : s.regs.configured = true := by
    simpa [needsSetup] using firstFailing_none.mp hc (needsSetup s) (List.mem_cons_self ..)
  have hM := (h.legal hconf).readings
  rw [capacity_ma]
  omega

theorem execFhdr_answers (hi ts : Word) (s : State) : ∃ t, execFhdr hi ts s = .next t := by
  refine checked_answers fun _ => ?_
  split <;> exact ⟨_, rfl⟩

theorem execRdreg_answers (r : Word) (s : State) : ∃ t, execRdreg r s = .next t := by
  unfold execRdreg
  split <;> exact ⟨_, rfl⟩

/-- Where the invariant holds every command answers a next state. Only the six bulk commands need it. -/
theorem State.Inv.exec_answers {s : State} (h : s.Inv) (i : Instr) : ∃ t, Machine.exec i s = .next t := by
  cases i with
  | quant => exact execQuant_answers h
  | pack => exact execPack_answers h
  | qpack => exact execQpack_answers h
  | fpay => exact execFpay_answers h
  | fmeta => exact execFmeta_answers h
  | mpkt hi ts => exact execMpkt_answers h hi ts
  | fhdr hi ts => exact execFhdr_answers hi ts s
  | rdreg r => exact execRdreg_answers r s
  | nop | clrerr | sreset | srst => exact ⟨_, rfl⟩
  | wrreg | wrmem | rdmem | setup | qsample | spush | sflush | fdone => exact checked_answers fun _ => ⟨_, rfl⟩

/-- Where the invariant holds a step answers a next state: no command waits, it is illegal, or it is performed. -/
theorem State.Inv.safeStep {s : State} (h : s.Inv) : SafeStep s := by
  cases hport : s.port with
  | nil => exact ⟨s, nothingHappensWithoutACommand s hport⟩
  | cons c rest =>
    cases hdecode : decode c with
    | error e => exact ⟨_, step_of_decode_error hport hdecode⟩
    | ok i =>
      rw [SafeStep, stepPerformsTheNextCommand s c rest i hport hdecode]
      exact (h.withPort rest).exec_answers i

/-- Settles O11: the invariant bounds the range of every bulk command by the capacity of its space. -/
theorem theBlockNeverStops : Obligations.TheBlockNeverStops :=
  fun _ h => ⟨h.safeStep, h.exec_answers⟩

end Sys2Proof.Machine

/-! Which memories a command changes (20_memory.md R60). -/

namespace Sys2Proof.Machine

/-- A byte that differs after a write is one of those written. -/
theorem mem_range_of_readByte_writeBytes_ne {s : State} {sp sp' : Space} {a x : Nat} {bs : List Byte}
    (h : (s.writeBytes sp a bs).readByte sp' x ≠ s.readByte sp' x) : sp' = sp ∧ a ≤ x ∧ x < a + bs.length := by
  by_contra hno
  exact h (by rw [readByte_writeBytes, if_neg hno])

/-- The host may write exactly the spaces that R60 lets WRMEM write. -/
theorem hostMayWrite_iff (sp : Space) : hostMayWrite sp = true ↔ 0x03 ∈ Spec.memoryWritersOf sp := by
  cases sp <;> decide

/-- An effect leaves every memory but those whose column in R60 names its command. -/
theorem EffectOf.mem_other {i : Instr} {s t : State} {sp : Space} (he : EffectOf i s t)
    (hw : i.opcode.toNat ∉ Spec.memoryWritersOf sp) : t.mem sp = s.mem sp := by
  have hne : ∀ sp', i.opcode.toNat ∈ Spec.memoryWritersOf sp' → sp ≠ sp' := fun sp' h hsp => hw (hsp ▸ h)
  cases i with
  | nop =>
    obtain rfl := he
    exact respond_mem ..
  | wrreg r v =>
    obtain ⟨g, -, -, -, -, -, rfl⟩ := he
    rw [respond_mem, updRegs_mem]
  | rdreg r =>
    obtain ⟨g, -, rfl⟩ := he
    exact respond_mem ..
  | wrmem sp' a v =>
    obtain ⟨hhost, -, -, rfl⟩ := he
    rw [respond_mem, writeBytes_mem_other _ _ _ (hne sp' ((hostMayWrite_iff sp').mp hhost))]
  | rdmem sp' a =>
    obtain ⟨-, rfl⟩ := he
    exact respond_mem ..
  | setup =>
    obtain ⟨-, rfl⟩ := he
    rw [respond_mem, writeConstants_mem_other _ (hne .pa (by decide)) (hne .ma (by decide)), updRegs_mem]
  | clrerr | sreset | srst =>
    obtain rfl := he
    rw [respond_mem, updRegs_mem]
  | qsample c v =>
    obtain ⟨-, -, -, rfl⟩ := he
    exact respond_mem ..
  | quant =>
    obtain ⟨-, -, rfl⟩ := he
    rw [respond_mem, writeBytes_mem_other _ _ _ (hne .qb (by decide))]
  | pack =>
    obtain ⟨-, -, -, rfl⟩ := he
    rw [respond_mem, leaveBitstream_mem_other _ _ (hne .pb (by decide))]
  | qpack =>
    obtain ⟨-, -, rfl⟩ := he
    rw [respond_mem, leaveBitstream_mem_other _ _ (hne .pb (by decide))]
  | spush n v =>
    obtain ⟨-, -, -, -, rfl⟩ := he
    rw [respond_mem, pushBits_mem_other _ _ (hne .pb (by simp [Instr.opcode, Spec.memoryWritersOf]))]
  | sflush =>
    obtain ⟨-, rfl⟩ := he
    rw [respond_mem, flush_mem_other _ (hne .pb (by decide))]
  | fhdr hi ts =>
    obtain ⟨-, src, f, p, -, rfl⟩ := he
    rw [respond_mem, updRegs_mem,
      writeHeader_mem_other _ _ _ _ (hne .pa (by simp [Instr.opcode, Spec.memoryWritersOf]))]
  | fpay =>
    obtain ⟨-, -, -, rfl⟩ := he
    rw [respond_mem, updRegs_mem, writeBytes_mem_other _ _ _ (hne .pa (by decide))]
  | fmeta =>
    obtain ⟨-, ⟨-, -, rfl⟩ | ⟨-, rfl⟩⟩ := he
    · rw [respond_mem, updRegs_mem, writeBytes_mem_other _ _ _ (hne .pa (by decide))]
    · rw [respond_mem, updRegs_mem]
  | fdone =>
    obtain ⟨-, rfl⟩ := he
    rw [respond_mem, updRegs_mem]
  | mpkt hi ts =>
    obtain ⟨-, -, -, rfl⟩ := he
    have hma := hne .ma (by simp [Instr.opcode, Spec.memoryWritersOf])
    rw [respond_mem, updRegs_mem, writeValues_mem_other _ hma, writeBytes_mem_other _ _ _ hma]

/-- A byte that WRMEM changes is the one it addresses (40_control.md R103). -/
theorem EffectOf.wrmem_addressed {s t : State} {sp sp' : Space} {a : Nat} {a' v : Word}
    (he : EffectOf (.wrmem sp' a' v) s t) (hne : t.readByte sp a ≠ s.readByte sp a) : sp' = sp ∧ a'.toNat = a := by
  obtain ⟨-, -, -, rfl⟩ := he
  rw [respond_readByte] at hne
  obtain ⟨hsp, hlo, hhi⟩ := mem_range_of_readByte_writeBytes_ne hne
  exact ⟨hsp.symm, Nat.le_antisymm hlo (Nat.le_of_lt_succ hhi)⟩

/-- Settles O15: an error changes no memory, and an effect only those its command may write. -/
theorem memoriesChangeOnlyByTheirWriters : Obligations.MemoriesChangeOnlyByTheirWriters := by
  intro i s t sp a hexec hne
  rcases exec_next hexec with ⟨e, info, -, -, -, rfl⟩ | heff
  · exact absurd (raise_readByte ..) hne
  · refine ⟨by_contra fun hw => hne (readByte_of_mem (heff.mem_other hw) a), ?_⟩
    rintro sp' a' v rfl
    exact heff.wrmem_addressed hne

end Sys2Proof.Machine

/-! Encoding and decoding (30_encoding.md R81 to R87): each is the other's inverse, R82 says exactly which words are
refused, and the operands that R84 marks with a dash have no effect. -/

namespace Sys2Proof

/-! ## The opcode map R85 read from a command -/

theorem withSpace_sel (sp : Space) (f : Space → Instr) : withSpace sp.sel f = .ok (f sp) := by
  simp [withSpace, spaceOfSel_sel]

/-- The row of the opcode map that a command's fields name is the command's own. -/
theorem decodeOp_fields {i : Instr} (hwf : i.wf = true) :
    decodeOp i.opcode i.sel i.operands.1 i.operands.2 = .ok i := by
  cases i with
  | wrmem sp a v => exact withSpace_sel sp fun sp => .wrmem sp a v
  | rdmem sp a => exact withSpace_sel sp fun sp => .rdmem sp a
  | spush n v =>
    have hsel : (BitVec.ofNat 4 n).toNat = n := Nat.mod_eq_of_lt (of_decide_eq_true hwf)
    exact congrArg (fun k => Except.ok (Instr.spush k v)) hsel
  | _ => rfl

/-- The fields of an encoded command are those it was encoded from (R81). -/
theorem decode_encode_eq_decodeOp (i : Instr) :
    decode (encode i) = decodeOp i.opcode i.sel i.operands.1 i.operands.2 := by
  simp [decode, encode]

/-- Settles O3: the encoded word has the command's own fields, and these name its row of the opcode map. -/
theorem decodeOfEncode : Obligations.DecodeOfEncode := fun i hwf =>
  (decode_encode_eq_decodeOp i).trans (decodeOp_fields hwf)

/-- Settles O2: the decoder evaluates each of the eleven words. -/
theorem commandWordsDecode : Obligations.CommandWordsDecode := by
  unfold Obligations.CommandWordsDecode
  decide

/-! ## A decoded command read from its words -/

/-- The command has the fields `op` and `sel`, and the operands `addr` and `data` where R84 names them. -/
structure CarriedBy (i : Instr) (op : Byte) (sel : BitVec 4) (addr data : Word) : Prop where
  wf : i.wf = true
  opcode : i.opcode = op
  sel : i.sel = sel
  addr : op.toNat ∈ [0x01, 0x02, 0x03, 0x04, 0x08, 0x10, 0x14] → i.operands.1 = addr
  data : op.toNat ∈ [0x01, 0x03, 0x08, 0x0D, 0x10, 0x14] → i.operands.2 = data

/-- Every row of the opcode map keeps what the command carries. -/
theorem decodeOp_ok {op : Byte} {sel : BitVec 4} {addr data : Word} {i : Instr}
    (h : decodeOp op sel addr data = .ok i) : CarriedBy i op sel addr data := by
  unfold decodeOp at h
  split at h
  case h_4 hop | h_5 hop =>
    obtain ⟨sp, rfl, rfl⟩ := withSpace_ok h
    exact ⟨rfl, BitVec.eq_of_toNat_eq hop.symm, rfl, by simp [hop, Instr.operands], by simp [hop, Instr.operands]⟩
  case h_14 hop =>
    obtain rfl := Except.ok.inj h
    exact ⟨by simpa [Instr.wf] using sel.isLt, BitVec.eq_of_toNat_eq hop.symm, by simp [Instr.sel],
      by simp [hop], by simp [Instr.operands]⟩
  case h_21 => cases h
  all_goals
    rename_i hop
    obtain ⟨rfl, rfl⟩ := withoutSel_ok h
    exact ⟨rfl, BitVec.eq_of_toNat_eq hop.symm, rfl, by simp [hop, Instr.operands], by simp [hop, Instr.operands]⟩

/-- A word that decodes has no reserved bit set, and its fields decode. -/
theorem decode_ok {c : Command} {i : Instr} (h : decode c = .ok i) :
    cmdReserved c.cmd = 0 ∧ CarriedBy i (cmdOp c.cmd) (cmdSel c.cmd) c.addr c.data := by
  unfold decode at h
  split at h
  · exact ⟨‹_›, decodeOp_ok h⟩
  · cases h

/-- Settles O4: CMD is made of its fields again, and the operands are those the row carries. -/
theorem encodeOfDecode : Obligations.EncodeOfDecode := by
  intro c i h
  obtain ⟨hreserved, hi⟩ := decode_ok h
  have hcmd : cmdWord i.opcode i.sel = c.cmd := by
    rw [hi.opcode, hi.sel, cmdWord_of_fields hreserved]
  rw [← cmdOp_toNat]
  exact ⟨hi.wf, hcmd, hi.addr, hi.data⟩

/-! ## Illegal words (R82, R86) -/

/-- The clauses of R82 that speak of OP and SEL. -/
theorem decodeOp_error {op : Byte} {sel : BitVec 4} {addr data : Word} :
    (∃ e, decodeOp op sel addr data = .error e)
      ↔ op.toNat = 0x0F ∨ 0x15 ≤ op.toNat ∨ (sel.toNat ≠ 0 ∧ op.toNat ∉ [0x03, 0x04, 0x0D])
        ∨ (6 ≤ sel.toNat ∧ op.toNat ∈ [0x03, 0x04]) := by
  unfold decodeOp
  split
  case h_4 hop | h_5 hop => simp [hop, withSpace_error]
  case h_14 hop => simp [hop]
  case h_21 =>
    have hout : op.toNat = 0x0F ∨ 0x15 ≤ op.toNat := by
      simp only [imp_false] at *
      omega
    exact iff_of_true ⟨_, rfl⟩ (hout.imp_right .inl)
  all_goals
    rename_i hop
    simp [hop, withoutSel_error]

/-- The decoder refuses exactly the words R82 calls illegal. -/
theorem decode_error {c : Command} : (∃ e, decode c = .error e) ↔ Spec.IllegalWord c.cmd.toNat := by
  unfold decode Spec.IllegalWord
  rw [← cmdOp_toNat, ← cmdSel_toNat, ← cmdReserved_toNat]
  split
  case isTrue hz => simp [decodeOp_error, hz]
  case isFalse hnz =>
    have : (cmdReserved c.cmd).toNat ≠ 0 := fun h => hnz (BitVec.eq_of_toNat_eq h)
    exact iff_of_true ⟨_, rfl⟩ (.inr (.inr (.inl this)))

theorem exists_decode_ok {c : Command} (h : ¬ Spec.IllegalWord c.cmd.toNat) : ∃ i, decode c = .ok i := by
  cases hd : decode c with
  | error e => exact absurd (decode_error.mp ⟨e, hd⟩) h
  | ok i => exact ⟨i, rfl⟩

theorem cmdOp_eq_ofNat (w : Word) : cmdOp w = BitVec.ofNat 8 (w.toNat % 256) := by
  rw [← cmdOp_toNat, BitVec.ofNat_toNat, BitVec.setWidth_eq]

end Sys2Proof

namespace Sys2Proof.Machine

/-- `raise` is what R201 and R207 say of an error. -/
theorem raise_raised (s : State) (op : Byte) (e : ErrCode) (info : Byte) :
    Spec.Raised s (s.raise op e info) op e info :=
  ⟨⟨rfl, rfl, rfl, rfl⟩, raise_readByte s op e info⟩

/-- Settles O5: R82 decides the decoder's answer, and the answer the branch of the step. -/
theorem illegalCommandsAreRecorded : Obligations.IllegalCommandsAreRecorded := by
  intro s c rest hport
  refine ⟨fun hill => ?_, fun hlegal => ?_⟩
  · obtain ⟨e, he⟩ := decode_error.mpr hill
    refine ⟨_, step_of_decode_error hport he, ?_⟩
    rw [← cmdOp_eq_ofNat]
    exact raise_raised ..
  · obtain ⟨i, hi⟩ := exists_decode_ok hlegal
    exact ⟨i, hi, stepPerformsTheNextCommand s c rest i hport hi⟩

/-! ## Ignored operands (R83, R84, R158) -/

/-- Commands that decode to one meaning step alike: a refused one leaves only CMD[7:0] in the record. -/
theorem step_congr {w a a' d d' : Word}
    (h : (decodeOp (cmdOp w) (cmdSel w) a d).map exec = (decodeOp (cmdOp w) (cmdSel w) a' d').map exec)
    (s : State) (rest : List Command) :
    step { s with port := ⟨w, a, d⟩ :: rest } = step { s with port := ⟨w, a', d'⟩ :: rest } := by
  have hmean : (decode ⟨w, a, d⟩).map exec = (decode ⟨w, a', d'⟩).map exec := by
    unfold decode
    split
    · exact h
    · rfl
  simp only [step, State.nextCommand]
  cases hd : decode ⟨w, a, d⟩ <;> cases hd' : decode ⟨w, a', d'⟩ <;> simp only [hd, hd', Except.map] at hmean
  case error.error => rfl
  case ok.ok => simp only [Except.ok.inj hmean]
  all_goals cases hmean

/-- Two commands with one meaning and SEL 0 decode to one meaning. -/
theorem withoutSel_map_exec {i j : Instr} (h : exec i = exec j) (sel : BitVec 4) :
    (withoutSel sel i).map exec = (withoutSel sel j).map exec := by
  unfold withoutSel
  split
  · exact congrArg Except.ok h
  · rfl

section Ignored

variable {op : Byte} (sel : BitVec 4)

/-- The rows of R84 with a dash for ADDR and for DATA. -/
theorem decodeOp_ignores_operands
    (h : op.toNat ∈ [0x00, 0x05, 0x06, 0x07, 0x09, 0x0A, 0x0B, 0x0C, 0x0E, 0x11, 0x12, 0x13]) (a a' d d' : Word) :
    decodeOp op sel a d = decodeOp op sel a' d' := by
  unfold decodeOp
  generalize op.toNat = n at h ⊢
  fin_cases h <;> rfl

/-- The rows of R84 with a dash for DATA only. -/
theorem decodeOp_ignores_data (h : op.toNat ∈ [0x02, 0x04]) (a d d' : Word) :
    decodeOp op sel a d = decodeOp op sel a d' := by
  unfold decodeOp
  generalize op.toNat = n at h ⊢
  fin_cases h <;> rfl

/-- ADDR has a dash in SPUSH's row, and is a timestamp's high word, which FHDR and MPKT ignore, in the other two. -/
theorem decodeOp_map_exec_ignores_addr (h : op.toNat ∈ [0x0D, 0x10, 0x14]) (a a' d : Word) :
    (decodeOp op sel a d).map exec = (decodeOp op sel a' d).map exec := by
  have hfhdr : exec (.fhdr a d) = exec (.fhdr a' d) := rfl
  have hmpkt : exec (.mpkt a d) = exec (.mpkt a' d) := rfl
  unfold decodeOp
  generalize op.toNat = n at h ⊢
  fin_cases h
  · rfl
  · exact withoutSel_map_exec hfhdr sel
  · exact withoutSel_map_exec hmpkt sel

end Ignored

/-- Settles O6: the decoder drops the operands with a dash, and no meaning reads a timestamp's high word. -/
theorem unusedOperandsHaveNoEffect : Obligations.UnusedOperandsHaveNoEffect := by
  intro s w a a' d d' rest
  rw [← cmdOp_toNat]
  exact ⟨fun h => step_congr (congrArg _ (decodeOp_ignores_operands _ h a a' d d')) s rest,
    fun h => step_congr (congrArg _ (decodeOp_ignores_data _ h a d d')) s rest,
    fun h => step_congr (decodeOp_map_exec_ignores_addr _ h a a' d) s rest⟩

end Sys2Proof.Machine

/-! The control commands that write or answer one register or one byte, and NOP, CLRERR and SRESET (40_control.md R100
to R104, R108, R109). -/

namespace Sys2Proof.Machine

open Sys2Proof.Spec

/-! ## A failing check raises its error -/

/-- A command raises the error of its first failing check (60_exceptions.md R208). -/
theorem raises_of_firstFailing {i : Instr} {s : State} {op : Byte} {cs : List Check} {effect : Result} {c : Check}
    (hexec : exec i s = checked op cs s effect) (hc : firstFailing cs = some c) : Raises i s op c.code c.info :=
  ⟨_, hexec.trans (checked_fail hc), raise_raised ..⟩

/-- A check that carries no number records ERR_INFO 0 (60_exceptions.md R207). -/
theorem raises_of_plain {i : Instr} {s : State} {op : Byte} {cs : List Check} {effect : Result} {e : ErrCode}
    (hexec : exec i s = checked op cs s effect) (hc : firstFailing cs = some (.plain true e)) : Raises i s op e 0 :=
  raises_of_firstFailing hexec hc

/-! ## NOP, CLRERR and SRESET -/

/-- Every register reads 0 after a reset (70_reset_and_hazards.md R220). -/
theorem reset_read (g : Reg) : Regs.reset.read g = 0 := by
  cases g with
  | bw c | mname k | mval k | ebw c => simp [Regs.read, Regs.reset]
  | _ => rfl

/-- Settles O29: each of the three leaves its registers by definition, and none writes a memory. -/
theorem nopClrerrAndSresetEffects : Obligations.NopClrerrAndSresetEffects := fun s =>
  ⟨⟨_, rfl, ⟨rfl, rfl, rfl, rfl⟩, respond_readByte s 0⟩,
    ⟨_, rfl, fun sp a => by rw [respond_readByte, updRegs_readByte], rfl, rfl, rfl, rfl⟩,
    ⟨_, rfl, fun sp a => by rw [respond_readByte, updRegs_readByte], ⟨rfl, rfl, rfl, rfl⟩, reset_read⟩⟩

/-! ## RDREG and RDMEM -/

theorem exec_rdreg_of_regOf {r : Word} {g : Reg} (hr : regOf r = some g) (s : State) :
    exec (.rdreg r) s = .next (s.respond (s.regs.read g)) := by
  show execRdreg r s = _
  rw [execRdreg, hr]

theorem exec_rdreg_undefined {r : Word} (hr : regOf r = none) (s : State) :
    exec (.rdreg r) s = .next (s.raise 0x02 .rangeError 0) := by
  show execRdreg r s = _
  rw [execRdreg, hr, Instr.opcode]

/-- Settles O25: the index names a register or none. -/
theorem rdregAnswersTheRegister : Obligations.RdregAnswersTheRegister := fun s _ =>
  ⟨fun hr => ⟨_, exec_rdreg_undefined hr s, raise_raised ..⟩,
    fun _ hr => ⟨_, exec_rdreg_of_regOf hr s, ⟨rfl, rfl, rfl, rfl⟩, respond_readByte s _⟩⟩

/-- Settles O27: RDMEM's one check compares the address with the capacity. -/
theorem rdmemAnswersTheByte : Obligations.RdmemAnswersTheByte := by
  intro s sp a
  refine ⟨fun hcap => raises_of_plain rfl (by simp [hcap]), fun hcap => ?_⟩
  refine ⟨_, checked_pass (by simp [hcap]), ⟨rfl, rfl, rfl, ?_⟩, respond_readByte s _⟩
  rw [BitVec.ofNat_toNat]
  rfl

/-! ## WRREG -/

theorem wrregChecks_undefined {r : Word} (hr : regOf r = none) (v : Word) (s : State) :
    wrregChecks r v s = [.plain true .rangeError] := by
  rw [wrregChecks, hr]

theorem wrregChecks_of_regOf {r : Word} {g : Reg} (hr : regOf r = some g) (v : Word) (s : State) :
    wrregChecks r v s =
      [ .plain (decide (g.cls = .ro)) .rangeError
      , .plain (decide (g.cls = .cfg) && s.regs.configured) .sequenceError
      , .plain (decide (v &&& ~~~g.fieldMask ≠ 0)) .valueError
      , .plain (decide (g = .clen) && decide (s.params.cbCap < v.toNat)) .valueError ] := by
  rw [wrregChecks, hr]

/-- A writable register that is not locked leaves the two checks of the value (40_control.md R101). -/
theorem firstFailing_wrregChecks {s : State} {r : Word} {g : Reg} (hr : regOf r = some g) (hro : g.cls ≠ .ro)
    (hlock : g.cls = .cfg → s.regs.configured = false) (v : Word) :
    firstFailing (wrregChecks r v s) =
      firstFailing
        [ .plain (decide (v &&& ~~~g.fieldMask ≠ 0)) .valueError
        , .plain (decide (g = .clen) && decide (s.params.cbCap < v.toNat)) .valueError ] := by
  have hunlocked : (decide (g.cls = .cfg) && s.regs.configured) = false := by simpa using hlock
  rw [wrregChecks_of_regOf hr, firstFailing_cons, if_neg (by simp [hro]), firstFailing_cons,
    if_neg (by simp [hunlocked])]

/-- Settles O24: one clause for each check of WRREG, and the write where none fails. -/
theorem wrregWritesOneRegister : Obligations.WrregWritesOneRegister := by
  intro s r v
  refine ⟨fun hr => raises_of_plain rfl (by simp [wrregChecks_undefined hr]), fun g hr => ?_⟩
  refine ⟨fun hro => ?_, fun hcfg hconf => ?_, fun hro hlock => ⟨fun hmask => ?_, fun hmask => ?_⟩⟩
  · exact raises_of_plain rfl (by simp [wrregChecks_of_regOf hr, hro])
  · exact raises_of_plain rfl (by simp [wrregChecks_of_regOf hr, hcfg, hconf])
  · exact raises_of_plain rfl (by rw [firstFailing_wrregChecks hr hro hlock, decide_eq_true hmask]; rfl)
  refine ⟨fun hg hlen => ?_, fun hlen => ?_⟩
  · subst hg
    exact raises_of_plain rfl (by rw [firstFailing_wrregChecks hr hro hlock]; simp [hmask, hlen])
  · refine ⟨_, exec_wrreg_of_pass hr hro hlock hmask hlen, read_write_same s.regs g v hro hmask,
      fun g' hg => read_write_other s.regs v hg, rfl, rfl, rfl, fun sp a => ?_⟩
    rw [respond_readByte, updRegs_readByte]

/-! ## WRMEM -/

/-- The host may write every space but the arenas (20_memory.md R60). -/
theorem hostMayWrite_eq_false_iff (sp : Space) : hostMayWrite sp = false ↔ sp = .pa ∨ sp = .ma := by
  cases sp <;> decide

/-- WRMEM with no failing check writes its byte (40_control.md R103). -/
theorem exec_wrmem_of_pass {s : State} {sp : Space} {a v : Word} (hhost : hostMayWrite sp = true)
    (ha : a.toNat < capacity s.params sp) (hv : v.toNat ≤ 255) :
    exec (.wrmem sp a v) s = .next ((s.writeBytes sp a.toNat [v.extractLsb' 0 8]).respond 0) :=
  checked_pass (by simp [hhost, not_le.mpr ha, not_lt.mpr hv])

/-- Settles O26: one clause for each check of WRMEM, and the write where none fails. -/
theorem wrmemWritesOneByte : Obligations.WrmemWritesOneByte := by
  intro s sp a v
  refine ⟨fun harena => raises_of_plain rfl (by simp [(hostMayWrite_eq_false_iff sp).mpr harena]), fun hpa hma => ?_⟩
  have hhost : hostMayWrite sp = true := by
    rw [← Bool.not_eq_false, hostMayWrite_eq_false_iff]
    exact not_or.mpr ⟨hpa, hma⟩
  refine ⟨fun hcap => ?_, fun ha => ⟨fun hv => ?_, fun hv => ?_⟩⟩
  · exact raises_of_plain rfl (by simp [hhost, hcap])
  · exact raises_of_plain rfl (by simp [hhost, not_le.mpr ha, hv])
  · refine ⟨_, exec_wrmem_of_pass hhost ha hv, ⟨?_, ?_, ?_, rfl⟩, ?_, fun sp' a' hne => ?_⟩
    · rw [respond_params, writeBytes_params]
    · rw [respond_port, writeBytes_port]
    · rw [respond_regs, writeBytes_regs]
    · have hbyte : (s.writeBytes sp a.toNat [v.extractLsb' 0 8]).readByte sp a.toNat = v.extractLsb' 0 8 :=
        readByte_writeBytes_inside s sp a.toNat 0 [v.extractLsb' 0 8] Nat.one_pos
      rw [respond_readByte, hbyte, BitVec.extractLsb'_toNat, Nat.shiftRight_zero]
      exact Nat.mod_eq_of_lt (by omega)
    · rw [respond_readByte]
      by_contra hchanged
      obtain ⟨hsp, hlo, hhi⟩ := mem_range_of_readByte_writeBytes_ne hchanged
      exact hne ⟨hsp, Nat.le_antisymm (Nat.le_of_lt_succ hhi) hlo⟩

end Sys2Proof.Machine

/-! SETUP: its checks and their numbers (40_control.md R105), what it derives (R106), and the constant fields it writes
in the arenas (R107). -/

namespace Sys2Proof.Machine

open Sys2Proof.Spec

/-! ## The checks of SETUP (R105) -/

theorem legalWidth_eq_false_iff {b : Nat} : legalWidth b = false ↔ ¬ (1 ≤ b ∧ b ≤ 8) := by
  rw [← legalWidth_iff, Bool.not_eq_true]

/-- A name is invalid exactly where check 9 says so of its bytes. -/
theorem validName_nameBytes_eq_false_iff (r : Regs) (k : Nat) :
    validName (r.nameBytes k) = false ↔
      (∃ j < 8, 0x80 ≤ nameByte r k j) ∨ ∃ i j, i < j ∧ j < 8 ∧ nameByte r k i = 0 ∧ nameByte r k j ≠ 0 := by
  have hbyte : ∀ j < 8, ((r.nameBytes k).getD j 0).toNat = nameByte r k j := fun j hj => nameBytes_getD r k hj
  have hzero : ∀ j < 8, (r.nameBytes k).getD j 0 = 0 ↔ nameByte r k j = 0 := fun j hj => by
    rw [← hbyte j hj]
    exact BitVec.toNat_inj.symm
  rw [validName_eq_false, nameBytes_length]
  refine or_congr (exists_congr fun j => and_congr_right fun hj => ?_)
    (exists₂_congr fun i j => and_congr_right fun hij => and_congr_right fun hj => ?_)
  · rw [hbyte j hj]
  · rw [hzero i (hij.trans hj), Ne, hzero j hj]

@[simp] theorem setupChecks_length (s : State) : (setupChecks s).length = 11 := rfl

/-- Check n of SETUP fails where R105 says, with the error and the number R105 gives it. -/
theorem setupChecks_getElem (s : State) : ∀ (n : Nat) (h : n < (setupChecks s).length),
    ((setupChecks s)[n].fails = true ↔ SetupFails s n)
      ∧ (setupChecks s)[n].code = (if n = 0 then .sequenceError else .configError)
      ∧ (setupChecks s)[n].info = BitVec.ofNat 8 n
  | 0, _ => ⟨Iff.rfl, rfl, rfl⟩
  | 1, _ | 2, _ | 3, _ | 6, _ => ⟨decide_eq_true_iff.trans BitVec.toNat_inj.symm, rfl, rfl⟩
  | 4, _ => ⟨by simp [setupChecks, SetupFails, legalWidth_eq_false_iff], rfl, rfl⟩
  | 5, _ => ⟨by simp [setupChecks, SetupFails, legalWidth_eq_false_iff, Regs.channels, Regs.bwAt], rfl, rfl⟩
  | 7, _ => ⟨by simp [setupChecks, SetupFails, ← BitVec.toNat_inj], rfl, rfl⟩
  | 8, _ | 10, _ => ⟨decide_eq_true_iff, rfl, rfl⟩
  | 9, _ => ⟨by simp [setupChecks, SetupFails, validName_nameBytes_eq_false_iff, Regs.readings], rfl, rfl⟩
  | n + 11, h => absurd h (by simp)

theorem firstFailing_eq_find? (cs : List Check) : firstFailing cs = cs.find? Check.fails := by
  induction cs with
  | nil => rfl
  | cons c cs ih =>
    rw [firstFailing_cons, ih, List.find?_cons]
    cases c.fails <;> rfl

/-- The first check of a list that fails, by its position. -/
theorem firstFailing_eq_some {cs : List Check} {n : Nat} (hn : n < cs.length) (hfails : cs[n].fails = true)
    (hbefore : ∀ (m : Nat) (hm : m < n), cs[m].fails = false) : firstFailing cs = some cs[n] := by
  rw [firstFailing_eq_find?, List.find?_eq_some_iff_getElem]
  exact ⟨hfails, n, hn, rfl, fun m hm => by rw [hbefore m hm]; rfl⟩

/-- SETUP passes exactly where none of the checks 0 to 10 fails. -/
theorem firstFailing_setupChecks_eq_none_iff (s : State) :
    firstFailing (setupChecks s) = none ↔ ∀ n ≤ 10, ¬ SetupFails s n := by
  rw [firstFailing_none, List.forall_mem_iff_getElem]
  simp only [setupChecks_length, ← Bool.not_eq_true, (setupChecks_getElem s _ _).1, Nat.lt_succ_iff]

/-- Settles O30: the check of that number is the first of the list that fails. -/
theorem setupReportsTheFirstFailingCheck : Obligations.SetupReportsTheFirstFailingCheck := by
  intro s n hn hfails hbefore
  have hlt : n < (setupChecks s).length := Nat.lt_succ_of_le hn
  obtain ⟨hiff, hcode, hinfo⟩ := setupChecks_getElem s n hlt
  rw [← hcode, ← hinfo]
  refine raises_of_firstFailing rfl (firstFailing_eq_some hlt (hiff.mpr hfails) fun m hm => ?_)
  rw [← Bool.not_eq_true, (setupChecks_getElem s m (hm.trans hlt)).1]
  exact hbefore m hm

/-! ## The check of the host after SETUP (70_reset_and_hazards.md R223) -/

theorem errCode_code_eq_zero_iff (e : ErrCode) : e.code = 0 ↔ e = .noError := by
  cases e <;> decide

/-- ERR shows ERR_CODE in its low byte (10_state.md R41). -/
theorem err_low_byte (r : Regs) : (r.read .err).extractLsb' 0 8 = r.errCode.code := by
  apply BitVec.eq_of_toNat_eq
  rw [BitVec.extractLsb'_toNat, err_toNat]
  omega

theorem bootAccepted_iff (s : State) :
    bootAccepted s = true ↔ s.regs.errCode = .noError ∧ s.regs.configured = true := by
  rw [bootAccepted, err_low_byte, status_bit_zero, Bool.and_eq_true, decide_eq_true_iff, errCode_code_eq_zero_iff]

/-- No check of SETUP raises "no error". -/
theorem setupChecks_code_ne_noError {s : State} {c : Check} (hc : c ∈ setupChecks s) : c.code ≠ .noError := by
  obtain ⟨n, hn, rfl⟩ := List.getElem_of_mem hc
  rw [(setupChecks_getElem s n hn).2.1]
  split <;> exact nofun

/-- Settles O57: SETUP passes and sets CONFIGURED, or records the error of a failing check. -/
theorem bootCheckTellsWhetherSetupSucceeded : Obligations.BootCheckTellsWhetherSetupSucceeded := by
  intro s _ hc herr
  rw [← firstFailing_setupChecks_eq_none_iff]
  cases hf : firstFailing (setupChecks s) with
  | none =>
    refine ⟨_, checked_pass hf, iff_of_true ?_ rfl⟩
    rw [bootAccepted_iff, respond_regs, writeConstants_regs]
    exact ⟨herr, rfl⟩
  | some c =>
    refine ⟨_, checked_fail hf, iff_of_false (fun hacc => ?_) nofun⟩
    rw [bootAccepted_iff, raise_regs, recordError_first herr] at hacc
    exact setupChecks_code_ne_noError (firstFailing_some hf).1 hacc.1

/-! ## The constant fields (R107) -/

theorem writeConstants_legacy {s : State} (hg : s.regs.gen = 0 ∨ s.regs.gen = 1) :
    writeConstants s = s.writeBytes .pa 4 (hdr s.regs) := if_pos hg

theorem writeConstants_gen2 {s : State} (hg : s.regs.gen = 2) :
    writeConstants s = writeSlots .ma 8 s.regs.nameBytes s.regs.readings
      ((s.writeBytes .pa 4 (le32 s.regs.frameW ++ le32 s.regs.frameH)).writeBytes .ma 4 (le32Nat s.regs.readings)) := by
  simp [writeConstants, hg, writeNames_eq]

/-- A byte that no name takes is that of the fields of fixed place, or of the state before. -/
theorem readByte_writeConstants_gen2 {s : State} (hg : s.regs.gen = 2) {sp : Space} {a : Nat}
    (hname : sp = .ma → ∀ k < s.regs.readings, a < 8 + 12 * k ∨ 8 + 12 * k + 8 ≤ a) :
    (writeConstants s).readByte sp a =
      ((s.writeBytes .pa 4 (le32 s.regs.frameW ++ le32 s.regs.frameH)).writeBytes .ma 4
        (le32Nat s.regs.readings)).readByte sp a := by
  rw [writeConstants_gen2 hg, readByte_writeSlots_outside _ _ _ _ _ _ _ hname]

theorem readBytes_writeConstants_legacy {s : State} (hg : s.regs.gen = 0 ∨ s.regs.gen = 1) :
    (writeConstants s).readBytes .pa 4 (9 + s.regs.channels) = hdr s.regs := by
  rw [writeConstants_legacy hg, ← hdr_length, readBytes_writeBytes_same]

theorem readBytes_writeConstants_size {s : State} (hg : s.regs.gen = 2) :
    (writeConstants s).readBytes .pa 4 8 = le32 s.regs.frameW ++ le32 s.regs.frameH := by
  rw [readBytes_congr fun i _ => readByte_writeConstants_gen2 hg (sp := .pa) nofun,
    readBytes_writeBytes_disjoint _ _ _ _ _ _ _ (.inl (by decide))]
  exact readBytes_writeBytes_same s .pa 4 (le32 s.regs.frameW ++ le32 s.regs.frameH)

theorem readBytes_writeConstants_entryCount {s : State} (hg : s.regs.gen = 2) :
    (writeConstants s).readBytes .ma 4 4 = le32Nat s.regs.readings := by
  rw [readBytes_congr fun i hi => readByte_writeConstants_gen2 hg (sp := .ma) fun _ k _ => .inl (by omega)]
  exact readBytes_writeBytes_same _ .ma 4 (le32Nat s.regs.readings)

theorem readByte_writeConstants_name {s : State} (hg : s.regs.gen = 2) {k j : Nat} (hk : k < s.regs.readings)
    (hj : j < 8) : (writeConstants s).readByte .ma (8 + 12 * k + j) = (s.regs.nameBytes k).getD j 0 := by
  rw [writeConstants_gen2 hg, readByte_writeSlots_inside _ _ _ (by simp) _ _ hk hj]

theorem readBytes_writeConstants_name {s : State} (hg : s.regs.gen = 2) {k : Nat} (hk : k < s.regs.readings) :
    (writeConstants s).readBytes .ma (8 + 12 * k) 8 = s.regs.nameBytes k := by
  refine readBytes_eq (bs := s.regs.nameBytes k) fun j hj => ?_
  rw [readByte_writeConstants_name hg hk hj, List.getD_eq_getElem]

theorem readByte_writeConstants_legacy_outside {s : State} (hg : s.regs.gen = 0 ∨ s.regs.gen = 1) {sp : Space} {a : Nat}
    (ha : ¬ (sp = .pa ∧ 4 ≤ a ∧ a < 13 + s.regs.channels)) : (writeConstants s).readByte sp a = s.readByte sp a := by
  rw [writeConstants_legacy hg, readByte_writeBytes, if_neg]
  rintro ⟨rfl, hlo, hhi⟩
  rw [hdr_length] at hhi
  exact ha ⟨rfl, hlo, by omega⟩

theorem readByte_writeConstants_gen2_outside {s : State} (hg : s.regs.gen = 2) {sp : Space} {a : Nat}
    (ha : ¬ ((sp = .pa ∧ 4 ≤ a ∧ a < 12)
      ∨ sp = .ma ∧ (4 ≤ a ∧ a < 8 ∨ ∃ k < s.regs.readings, 8 + 12 * k ≤ a ∧ a < 8 + 12 * k + 8))) :
    (writeConstants s).readByte sp a = s.readByte sp a := by
  rw [not_or] at ha
  obtain ⟨hpa, hma⟩ := ha
  rw [readByte_writeConstants_gen2 hg, readByte_writeBytes, if_neg, readByte_writeBytes, if_neg]
  · exact hpa
  · rintro ⟨rfl, hfield⟩
    exact hma ⟨rfl, .inl hfield⟩
  · rintro rfl k hk
    by_contra hin
    exact hma ⟨rfl, .inr ⟨k, hk, by omega⟩⟩

/-! ## A successful SETUP (R106, R107) -/

/-- A generation that is not 2 is one of the two legacy ones, as GEN = 3 is no generation (10_state.md R27). -/
theorem gen_eq_zero_or_one {g : BitVec 2} (h2 : g ≠ 2) (h3 : g ≠ 3) : g = 0 ∨ g = 1 := by
  revert g
  decide

theorem headerLen_eq_ite (r : Regs) : headerLen r =
    if r.gen.toNat = 0 then 17 + r.chanC.toNat else if r.gen.toNat = 1 then 18 + r.chanC.toNat else 16 := by
  simp [headerLen, Regs.channels, ← BitVec.toNat_inj]

/-- Settles O31: the derived registers of a legal configuration, and what the constant fields write and leave. -/
theorem setupDerivesRegistersAndConstants : Obligations.SetupDerivesRegistersAndConstants := by
  intro s hp hpass
  have hnone := (firstFailing_setupChecks_eq_none_iff s).mpr hpass
  have hlegal := legalConfig_of_setupChecks hnone
  have hd := hlegal.derivedRegs_configure hp
  refine ⟨_, checked_pass hnone, ?_⟩
  simp only [respond_params, respond_regs, respond_port, respond_resp, respond_readByte, respond_readBytes,
    writeConstants_regs, writeConstants_params, writeConstants_port, updRegs_regs, updRegs_params, updRegs_port]
  refine ⟨trivial, trivial, trivial, fun c hc => effectiveWidths_getD s.regs hc, hd.samples, hd.bitsPerPixel,
    hd.rawLength, hd.headerLength.trans (headerLen_eq_ite _), rfl, fun hg => ?_, fun hg => ?_⟩
  · have hgen : (s.updRegs configure).regs.gen = 0 ∨ (s.updRegs configure).regs.gen = 1 :=
      gen_eq_zero_or_one (fun h => hg (congrArg BitVec.toNat h)) hlegal.generation
    refine ⟨readBytes_writeConstants_legacy hgen, fun sp a ha => ?_⟩
    rw [respond_readByte, readByte_writeConstants_legacy_outside hgen ha, updRegs_readByte]
  · have hgen : (s.updRegs configure).regs.gen = 2 := BitVec.eq_of_toNat_eq hg
    refine ⟨readBytes_writeConstants_size hgen, readBytes_writeConstants_entryCount hgen, fun k hk j hj => ?_,
      fun sp a ha => ?_⟩
    · rw [readByte_writeConstants_name hgen hk hj]
      exact nameBytes_getD s.regs k hj
    · rw [respond_readByte, readByte_writeConstants_gen2_outside hgen ha, updRegs_readByte]

end Sys2Proof.Machine

/-! The constant header (43_framer.md R156, R172): SETUP writes it, and no command changes its bytes or the registers it
was written from while the block is configured. -/

namespace Sys2Proof.Machine

open Sys2Proof.Spec

/-! ## The bytes of the constant header -/

/-- The bytes that R172 lets no command but SETUP write: the constant fields of a header in PA (43_framer.md R151), the
entry count and the places of the names in MA. -/
def ConstantByte (r : Regs) : Space → Nat → Prop
  | .pa, a => 4 ≤ a ∧ a < if r.gen = 2 then 12 else 13 + r.channels
  | .ma, a => (4 ≤ a ∧ a < 8) ∨ ∃ k, 8 + 12 * k ≤ a ∧ a < 8 + 12 * k + 8
  | _, _ => False

/-- FHDR writes the timestamp before the constant fields, and the other variable fields behind them (R157). -/
theorem readByte_writeHeader_constant (t : Word) (f : Bool) (p : Word) {s : State} {a : Nat}
    (ha : ConstantByte s.regs .pa a) : (writeHeader t f p s).readByte .pa a = s.readByte .pa a := by
  obtain ⟨hlo, hhi⟩ := ha
  have hts : (s.writeBytes .pa 0 (le32 t)).readByte .pa a = s.readByte .pa a :=
    readByte_writeBytes_outside _ _ _ _ _ _ (.inr (by simpa using hlo))
  unfold writeHeader
  dsimp only
  split
  next h0 =>
    rw [h0, if_neg (by decide)] at hhi
    rw [readByte_writeBytes_outside _ _ _ _ _ _ (.inl hhi), hts]
  next =>
    split
    next h1 =>
      rw [h1, if_neg (by decide)] at hhi
      rw [readByte_writeBytes_outside _ _ _ _ _ _ (.inl (by omega)),
        readByte_writeBytes_outside _ _ _ _ _ _ (.inl hhi), hts]
    next =>
      split
      next h2 =>
        rw [if_pos h2] at hhi
        rw [readByte_writeBytes_outside _ _ _ _ _ _ (.inl hhi), hts]
      next => exact hts

/-- MPKT writes the timestamp before the entry count, and the values behind the names (R169). -/
theorem readByte_writeValues_constant {s : State} {a : Nat} (ha : ConstantByte s.regs .ma a) :
    (writeValues s).readByte .ma a = s.readByte .ma a := by
  rw [writeValues_eq, readByte_writeSlots_outside]
  intro _ k _
  rw [le32_length]
  rcases ha with hcount | ⟨k', hname⟩ <;> omega

/-- The constant fields of a packet being built lie before its payload (R151, R161). -/
theorem State.Inv.constantByte_lt_hdrLen {s : State} (h : s.Inv) (hn : s.regs.fstate ≠ .new) {a : Nat}
    (ha : ConstantByte s.regs .pa a) : a < s.regs.hdrLen.toNat := by
  have hc := h.regsInv.packet.configured hn
  obtain ⟨-, hhi⟩ := ha
  rw [(h.derived hc).headerLength, headerLen]
  by_cases h2 : s.regs.gen = 2
  · rw [if_pos h2] at hhi
    rw [h2, if_neg (by decide), if_neg (by decide)]
    omega
  · rw [if_neg h2] at hhi
    rcases gen_eq_zero_or_one h2 (h.legal hc).generation with hg | hg
    · rw [if_pos hg]
      omega
    · rw [hg, if_neg (by decide), if_pos rfl]
      omega

/-- No effect but SETUP's writes a byte of the constant header (R172). -/
theorem EffectOf.constantByte {i : Instr} {s t : State} {sp : Space} {a : Nat} (he : EffectOf i s t) (h : s.Inv)
    (hsetup : i ≠ .setup) (ha : ConstantByte s.regs sp a) : t.readByte sp a = s.readByte sp a := by
  by_cases hw : i.opcode.toNat ∈ memoryWritersOf sp
  · cases sp with
    | ifb | qb | pb | cb => exact ha.elim
    | pa =>
      cases i with
      | setup => exact absurd rfl hsetup
      | fhdr hi ts =>
        obtain ⟨-, src, f, p, -, rfl⟩ := he
        rw [respond_readByte, updRegs_readByte, readByte_writeHeader_constant _ _ _ ha]
      | fpay =>
        obtain ⟨hf, -, -, rfl⟩ := he
        have hlt := h.constantByte_lt_hdrLen (by simp [hf]) ha
        rw [respond_readByte, updRegs_readByte, readByte_writeBytes_outside _ _ _ _ _ _ (.inl hlt)]
      | fmeta =>
        obtain ⟨hf, ⟨-, -, rfl⟩ | ⟨-, rfl⟩⟩ := he
        · have hlt := h.constantByte_lt_hdrLen (by simp [hf]) ha
          rw [respond_readByte, updRegs_readByte, readByte_writeBytes_outside _ _ _ _ _ _ (.inl (by omega))]
        · rw [respond_readByte, updRegs_readByte]
      | _ => simp [Instr.opcode, memoryWritersOf] at hw
    | ma =>
      cases i with
      | setup => exact absurd rfl hsetup
      | mpkt hi ts =>
        obtain ⟨-, -, -, rfl⟩ := he
        have hlo : 4 ≤ a := by rcases ha with hcount | ⟨k, hname⟩ <;> omega
        have hvalues : ConstantByte (s.writeBytes .ma 0 (le32 ts)).regs .ma a := ha
        rw [respond_readByte, updRegs_readByte, readByte_writeValues_constant hvalues,
          readByte_writeBytes_outside _ _ _ _ _ _ (.inr (by simpa using hlo))]
      | _ => simp [Instr.opcode, memoryWritersOf] at hw
  · exact readByte_of_mem (he.mem_other hw) a

/-! ## The registers the constant header was written from -/

/-- A register of the configuration or a width in effect: all that SETUP writes into the arenas comes from these
(40_control.md R107). -/
def Reg.IsConstant (g : Reg) : Prop := g.cls = .cfg ∨ ∃ c, g = .ebw c

theorem Reg.IsConstant.ne_err {g : Reg} (hg : g.IsConstant) : g ≠ .err := by
  rintro rfl
  rcases hg with hg | ⟨c, hg⟩ <;> cases hg

/-- The map lets no command but SETUP, WRREG and SRESET write one (10_state.md R42). -/
theorem Reg.IsConstant.writersOf_subset {g : Reg} (hg : g.IsConstant) : writersOf g ⊆ [0x05] := by
  rcases hg with hg | ⟨c, rfl⟩
  · rw [writersOf_cfg hg]
    exact List.nil_subset _
  · exact List.Subset.refl _

theorem opcode_eq_five_iff (i : Instr) : i.opcode.toNat = 0x05 ↔ i = .setup := by
  cases i <;> simp [Instr.opcode]

/-- WRREG has its effect on a writable register that is not locked only (40_control.md R101). -/
theorem EffectOf.wrreg_target {r v : Word} {s t : State} {g : Reg} (he : EffectOf (.wrreg r v) s t)
    (hr : regOf r = some g) : g.cls ≠ .ro ∧ (g.cls = .cfg → s.regs.configured = false) := by
  obtain ⟨g', hr', hro, hlock, -⟩ := he
  cases hr.symm.trans hr'
  exact ⟨hro, hlock⟩

/-- In a configured block no effect but SETUP's and SRESET's changes such a register. -/
theorem EffectOf.read_constant {i : Instr} {s t : State} {g : Reg} (he : EffectOf i s t)
    (hc : s.regs.configured = true) (hsetup : i ≠ .setup) (hreset : i ≠ .sreset) (hg : g.IsConstant) :
    t.regs.read g = s.regs.read g := by
  refine he.read_other hg.ne_err hreset ?_ fun hw => ?_
  · rintro r v rfl hr
    obtain ⟨hro, hlock⟩ := he.wrreg_target hr
    rcases hg with hcfg | ⟨c, rfl⟩
    · exact absurd (hc.symm.trans (hlock hcfg)) (by decide)
    · exact hro rfl
  · exact hsetup ((opcode_eq_five_iff i).mp (List.mem_singleton.mp (hg.writersOf_subset hw)))

/-- No effect but SETUP's sets CONFIGURED: the other commands that write STATUS need it (10_state.md R35, R42). -/
theorem EffectOf.configured_before {i : Instr} {s t : State} (he : EffectOf i s t) (h : s.Inv) (hsetup : i ≠ .setup)
    (hreset : i ≠ .sreset) (ht : t.regs.configured = true) : s.regs.configured = true := by
  by_cases hw : i.opcode.toNat ∈ writersOf .status
  · cases i with
    | setup => exact absurd rfl hsetup
    | fhdr | mpkt =>
      obtain ⟨hc, -⟩ := he
      exact hc
    | fpay | fmeta | fdone =>
      obtain ⟨hf, -⟩ := he
      exact h.regsInv.packet.configured (by simp [hf])
    | _ => simp [Instr.opcode, writersOf] at hw
  · have hown : ∀ r v, i = .wrreg r v → regOf r ≠ some .status := by
      rintro r v rfl hr
      exact (he.wrreg_target hr).1 rfl
    rw [← status_bit_zero, ← he.read_other (g := .status) nofun hreset hown hw, status_bit_zero, ht]

/-- The registers that `State.ConstantHeader` speaks of, CONFIGURED apart, are alike. -/
structure SameConstants (r r' : Regs) : Prop where
  width : r'.frameW = r.frameW
  height : r'.frameH = r.frameH
  channels : r'.chanC = r.chanC
  generation : r'.gen = r.gen
  readings : r'.metaCount = r.metaCount
  names : r'.mname = r.mname
  widths : r'.ebw = r.ebw

theorem eq_of_setWidth_eq {n : Nat} {x y : BitVec n} (hn : n ≤ 32) (h : x.setWidth 32 = y.setWidth 32) : x = y := by
  apply BitVec.eq_of_toNat_eq
  rw [← BitVec.toNat_setWidth_of_le hn, h, BitVec.toNat_setWidth_of_le hn]

theorem sameConstants_of_read {r r' : Regs} (h : ∀ g : Reg, g.IsConstant → r'.read g = r.read g) :
    SameConstants r r' where
  width := h .frameW (.inl rfl)
  height := h .frameH (.inl rfl)
  channels := eq_of_setWidth_eq (by decide) (h .chanC (.inl rfl))
  generation := eq_of_setWidth_eq (by decide) (h .gen (.inl rfl))
  readings := eq_of_setWidth_eq (by decide) (h .metaCount (.inl rfl))
  names := Vector.ext fun k hk => h (.mname ⟨k, hk⟩) (.inl rfl)
  widths := Vector.ext fun c hc => eq_of_setWidth_eq (by decide) (h (.ebw ⟨c, hc⟩) (.inr ⟨_, rfl⟩))

theorem SameConstants.hdr {r r' : Regs} (h : SameConstants r r') : hdr r' = hdr r := by
  simp [Machine.hdr, Regs.channels, Regs.ebwAt, h.width, h.height, h.channels, h.widths]

theorem SameConstants.nameBytes {r r' : Regs} (h : SameConstants r r') (k : Nat) : r'.nameBytes k = r.nameBytes k := by
  simp [Regs.nameBytes, h.names]

/-! ## Every step keeps the constant header -/

/-- The constant header stays as long as its bytes and the registers it was written from do. -/
theorem State.ConstantHeader.of_kept {s t : State} (h : s.ConstantHeader) (hc : s.regs.configured = true)
    (hsame : SameConstants s.regs t.regs)
    (hbytes : ∀ sp a, ConstantByte s.regs sp a → t.readByte sp a = s.readByte sp a) : t.ConstantHeader := by
  intro _
  have hs := h hc
  rw [hsame.generation]
  by_cases hg : s.regs.gen = 2
  · rw [if_pos hg] at hs ⊢
    obtain ⟨hsize, hcount, hnames⟩ := hs
    have hreadings : t.regs.readings = s.regs.readings := congrArg BitVec.toNat hsame.readings
    rw [hsame.width, hsame.height, hreadings]
    refine ⟨?_, ?_, fun k hk => ?_⟩
    · rw [← hsize]
      exact readBytes_congr fun i hi => hbytes .pa _ ⟨by omega, by rw [if_pos hg]; omega⟩
    · rw [← hcount]
      exact readBytes_congr fun i hi => hbytes .ma _ (.inl ⟨by omega, by omega⟩)
    · rw [hsame.nameBytes, ← hnames k hk]
      exact readBytes_congr fun i hi => hbytes .ma _ (.inr ⟨k, by omega, by omega⟩)
  · rw [if_neg hg] at hs ⊢
    have hchannels : t.regs.channels = s.regs.channels := congrArg BitVec.toNat hsame.channels
    rw [hsame.hdr, hchannels, ← hs]
    exact readBytes_congr fun i hi => hbytes .pa _ ⟨by omega, by rw [if_neg hg]; omega⟩

/-- Raising an error changes nothing but ERR (60_exceptions.md R201). -/
theorem State.ConstantHeader.raise {s : State} (h : s.ConstantHeader) (op : Byte) (e : ErrCode) (info : Byte) :
    (s.raise op e info).ConstantHeader := fun hc =>
  have hconf : s.regs.configured = true := by simpa using hc
  h.of_kept hconf (sameConstants_of_read fun _ hg => recordError_read _ _ _ _ hg.ne_err)
    (fun _ _ _ => raise_readByte ..) hc

/-- SETUP writes the constant header of each generation (R107). -/
theorem constantHeader_writeConstants {s : State} (h3 : s.regs.gen ≠ 3) : (writeConstants s).ConstantHeader := by
  intro _
  rw [writeConstants_regs]
  split
  next h2 =>
    exact ⟨readBytes_writeConstants_size h2, readBytes_writeConstants_entryCount h2,
      fun k hk => readBytes_writeConstants_name h2 hk⟩
  next h2 => exact readBytes_writeConstants_legacy (gen_eq_zero_or_one h2 h3)

/-- The effect of every command: SETUP writes the header, SRESET ends the configuration, no other command touches it. -/
theorem State.ConstantHeader.effect {i : Instr} {s t : State} (hh : s.ConstantHeader) (h : s.Inv)
    (he : EffectOf i s t) : t.ConstantHeader := by
  by_cases hsetup : i = .setup
  · subst hsetup
    obtain ⟨hnone, rfl⟩ := he
    exact constantHeader_writeConstants (s := s.updRegs configure) (legalConfig_of_setupChecks hnone).generation
  by_cases hreset : i = .sreset
  · subst hreset
    obtain rfl := he
    exact nofun
  · intro ht
    have hc := he.configured_before h hsetup hreset ht
    exact hh.of_kept hc (sameConstants_of_read fun g hg => he.read_constant hc hsetup hreset hg)
      (fun sp a ha => he.constantByte h hsetup ha) ht

/-- Every command keeps the constant header: it raises an error or has its effect. -/
theorem State.ConstantHeader.exec {i : Instr} {s t : State} (hh : s.ConstantHeader) (h : s.Inv)
    (he : exec i s = .next t) : t.ConstantHeader := by
  rcases exec_next he with ⟨e, info, -, -, -, rfl⟩ | heff
  · exact hh.raise _ _ _
  · exact hh.effect h heff

/-- Taking a command from the port changes no register and no memory. -/
theorem State.ConstantHeader.withPort {s : State} (h : s.ConstantHeader) (port : List Command) :
    { s with port := port }.ConstantHeader := h

/-- Settles O13: by cases on what a step can do. -/
theorem stepKeepsTheConstantHeader : Obligations.StepKeepsTheConstantHeader := by
  intro s t h hh hstep
  rcases step_next hstep with ⟨-, rfl⟩ | ⟨c, rest, -, ⟨e, -, rfl⟩ | ⟨i, -, hexec⟩⟩
  · exact hh
  · exact (hh.withPort rest).raise _ _ _
  · exact (hh.withPort rest).exec (h.withPort rest) hexec

end Sys2Proof.Machine

/-! The quantizer (41_quantizer.md R120 to R124): Quant on one sample, and its two commands. -/

namespace Sys2Proof.Machine

open Sys2Proof.Spec

/-- Settles O32: Quant is a division, and its value fits the width. -/
theorem quantTruncates : Obligations.QuantTruncates := fun x _ h1 h8 =>
  ⟨quant_toNat h1 h8 x, Nat.le_sub_one_of_lt (quant_lt h1 h8 x)⟩

/-! ## The width of a channel -/

/-- The widths of a configured block are legal, so no command applies Quant outside its domain (R120, R122). -/
theorem State.Inv.ebwAt_legal {s : State} (h : s.Inv) (hconf : s.regs.configured = true) {c : Nat}
    (hc : c < s.regs.channels) : 1 ≤ s.regs.ebwAt c ∧ s.regs.ebwAt c ≤ 8 := by
  rw [Regs.ebwAt, (h.derived hconf).widths, effectiveWidths_getD s.regs (hc.trans (channels_lt s.regs)), if_pos hc]
  cases hu : s.regs.uniform with
  | true => exact (h.legal hconf).uniformBits hu
  | false => exact (h.legal hconf).channelBits hu c hc

/-- Every sample belongs to a channel of the configuration: C is not 0 (40_control.md R105). -/
theorem State.Inv.mod_channels_lt {s : State} (h : s.Inv) (hconf : s.regs.configured = true) (i : Nat) :
    i % s.regs.channels < s.regs.channels := by
  refine Nat.mod_lt _ (Nat.pos_of_ne_zero fun hzero => (h.legal hconf).channels ?_)
  exact BitVec.eq_of_toNat_eq hzero

/-! ## QSAMPLE -/

/-- The response of QSAMPLE as a number (R120, R122). -/
theorem quant_response {v : Word} (hv : v.toNat ≤ 255) {b : Nat} (h1 : 1 ≤ b) (h8 : b ≤ 8) :
    (quant (v.extractLsb' 0 8) b).setWidth 32 = BitVec.ofNat 32 (v.toNat / 2 ^ (8 - b)) := by
  have hbyte : (v.extractLsb' 0 8).toNat = v.toNat := by
    rw [BitVec.extractLsb'_toNat, Nat.shiftRight_zero]
    exact Nat.mod_eq_of_lt (by omega)
  rw [← hbyte, ← quant_toNat h1 h8, BitVec.ofNat_toNat]

/-- QSAMPLE with no failing check answers its sample quantized (R122). -/
theorem exec_qsample_of_pass {s : State} {c v : Word} (hconf : s.regs.configured = true)
    (hc : c.toNat < s.regs.channels) (hv : v.toNat ≤ 255) :
    exec (.qsample c v) s = .next (s.respond ((quant (v.extractLsb' 0 8) (s.regs.ebwAt c.toNat)).setWidth 32)) :=
  checked_pass (by simp [needsSetup, hconf, not_le.mpr hc, not_lt.mpr hv])

/-- Settles O33: one clause for each check of QSAMPLE, and the answer where none fails. -/
theorem qsampleAnswersOneSample : Obligations.QsampleAnswersOneSample := by
  intro s c v h
  refine ⟨fun hconf => ?_, fun hconf => ⟨fun hc => ?_, fun hc => ⟨fun hv => ?_, fun hv => ?_⟩⟩⟩
  · exact raises_of_plain rfl (by simp [needsSetup, hconf])
  · exact raises_of_plain rfl (by simp [needsSetup, hconf, Regs.channels, hc])
  · exact raises_of_plain rfl (by simp [needsSetup, hconf, Regs.channels, not_le.mpr hc, hv])
  · obtain ⟨h1, h8⟩ := h.ebwAt_legal hconf hc
    refine ⟨_, exec_qsample_of_pass hconf hc hv, ⟨rfl, rfl, rfl, ?_⟩, respond_readByte s _⟩
    rw [respond_resp, quant_response hv h1 h8]

/-! ## QUANT -/

/-- A command that writes one range of memory and answers leaves every register. -/
theorem leaves_writeBytes_respond (s : State) (sp : Space) (a : Nat) (bs : List Byte) (v : Word) :
    Leaves s ((s.writeBytes sp a bs).respond v) s.regs v :=
  ⟨writeBytes_params .., writeBytes_port .., writeBytes_regs .., rfl⟩

@[simp] theorem quantizedInput_length (s : State) : (quantizedInput s).length = s.regs.nsamp.toNat := by
  simp [quantizedInput]

/-- One sample of the quantized frame (R124). -/
theorem quantizedInput_getElem (s : State) {i : Nat} (hi : i < (quantizedInput s).length) :
    (quantizedInput s)[i] = quant (s.readByte .ifb i) (s.regs.ebwAt (i % s.regs.channels)) := by
  simp only [quantizedInput, quantFrame_getElem, getElem_readBytes, Nat.zero_add, Regs.widths]

/-- QUANT in a configured block: the frame fits IFB and QB (R123, 20_memory.md R73). -/
theorem State.Inv.exec_quant {s : State} (h : s.Inv) (hconf : s.regs.configured = true) :
    Machine.exec .quant s = .next ((s.writeBytes .qb 0 (quantizedInput s)).respond 0) := by
  have hn := h.nsamp_le hconf
  show execQuant s = _
  rw [execQuant, checked_pass (by simp [needsSetup, hconf]), within_ok hn, within_ok hn]

/-- Settles O34: QB is read back after the write of the quantized frame, inside its range and outside. -/
theorem quantWritesTheQuantizedFrame : Obligations.QuantWritesTheQuantizedFrame := by
  intro s h
  refine ⟨fun hconf => raises_of_plain rfl (by simp [needsSetup, hconf]), fun hconf => ?_⟩
  refine ⟨_, h.exec_quant hconf, leaves_writeBytes_respond .., fun i hi => ?_, fun sp a hout => ?_⟩
  · have hlen : i < (quantizedInput s).length := by rwa [quantizedInput_length]
    have hread := readByte_writeBytes_inside s .qb 0 i (quantizedInput s) hlen
    obtain ⟨h1, h8⟩ := h.ebwAt_legal hconf (h.mod_channels_lt hconf i)
    rw [Nat.zero_add, quantizedInput_getElem] at hread
    rw [respond_readByte, hread, quant_toNat h1 h8]
    rfl
  · rw [respond_readByte]
    by_contra hchanged
    obtain ⟨hsp, -, hhi⟩ := mem_range_of_readByte_writeBytes_ne hchanged
    rw [Nat.zero_add, quantizedInput_length] at hhi
    exact hout ⟨hsp, hhi⟩

end Sys2Proof.Machine

/-! The packer (42_packer.md R130 to R138): the length and the bits of a packed frame, the serializer's commands, and
the frame commands PACK and QPACK. -/

namespace Sys2Proof.Machine

open Sys2Proof.Spec

/-! ## Packed frames (R137, R138) -/

/-- The width sum of c channels of one width. -/
theorem widthSum_of_forall_eq {w : Nat → Nat} {c n : Nat} (h : ∀ k < c, w k = n) : widthSum w c = c * n := by
  have hconst : (List.range c).map w = List.replicate c n :=
    List.eq_replicate_iff.mpr ⟨by simp, by simpa using h⟩
  rw [widthSum, hconst, List.sum_replicate_nat]

/-- Settles O44: the length is that of the frame's stream, whose width sum is 8·C or C in the degenerate cases. -/
theorem packedLengthIsExact : Obligations.PackedLengthIsExact := by
  intro b h w c q _ hq
  have hlen := pack_length b c (h * w) q hq
  refine ⟨hlen, fun h8 => ?_, fun h1 => ?_⟩
  · rw [hlen, widthSum_of_forall_eq h8, ← Nat.mul_assoc, ceilDiv8]
    omega
  · rw [hlen, widthSum_of_forall_eq h1, Nat.mul_one, ceilDiv8]

/-- Settles O45: the packed bytes hold every bit of the stream and zeros behind it. -/
theorem packedBitsAreTheStream : Obligations.PackedBitsAreTheStream := by
  intro bits
  have hlen : (packBits bits).length = (bits.length + 7) / 8 := packBits_length bits
  refine ⟨fun t ht => packBits_bit bits ?_, fun t ht hend => ?_, by omega, by omega⟩
  · rw [ceilDiv8]
    omega
  · rw [packBits_length] at hend
    rw [packBits_bit bits hend, List.getD_eq_default _ _ ht]

/-! ## SRST (R131) -/

/-- Settles O37: SRST writes four registers and no memory. -/
theorem srstClearsTheSerializer : Obligations.SrstClearsTheSerializer := fun s =>
  ⟨_, rfl, ⟨rfl, rfl, rfl, rfl⟩, fun sp a => by rw [respond_readByte, updRegs_readByte]⟩

/-! ## What a write of PB leaves -/

/-- A command that writes one range of memory, updates registers and answers. -/
theorem leaves_writeBytes_updRegs_respond (s : State) (sp : Space) (a : Nat) (bs : List Byte) (f : Regs → Regs)
    (v : Word) : Leaves s (((s.writeBytes sp a bs).updRegs f).respond v) (f s.regs) v :=
  ⟨writeBytes_params .., writeBytes_port .., congrArg f (writeBytes_regs ..), rfl⟩

theorem keptOutside_writeBytes (s : State) (sp : Space) (a : Nat) (bs : List Byte) :
    KeptOutside s (s.writeBytes sp a bs) (fun sp' x => sp' = sp ∧ a ≤ x ∧ x < a + bs.length) :=
  fun _ _ hout => by_contra fun hchanged => hout (mem_range_of_readByte_writeBytes_ne hchanged)

/-- A write of one byte keeps every other byte. -/
theorem keptOutside_writeByte (s : State) (sp : Space) (a : Nat) (b : Byte) :
    KeptOutside s (s.writeBytes sp a [b]) (fun sp' x => sp' = sp ∧ x = a) :=
  fun sp' x hout => keptOutside_writeBytes s sp a [b] sp' x fun ⟨hsp, hlo, hhi⟩ =>
    hout ⟨hsp, Nat.le_antisymm (Nat.le_of_lt_succ hhi) hlo⟩

theorem readByte_writeByte_same (s : State) (sp : Space) (a : Nat) (b : Byte) :
    (s.writeBytes sp a [b]).readByte sp a = b :=
  readByte_writeBytes_inside s sp a 0 [b] Nat.one_pos

/-! ## SFLUSH (R133) -/

theorem flush_of_empty {s : State} (h : s.regs.serNb.toNat = 0) : flush s = s := if_neg (by omega)

theorem flush_of_partial {s : State} (h : 0 < s.regs.serNb.toNat) :
    flush s = (s.writeBytes .pb s.regs.serWp.toNat [s.regs.serAcc]).updRegs
      fun r => { r with serAcc := 0, serNb := 0, serWp := r.serWp + 1 } := if_pos h

/-- SFLUSH with a place in PB for its partial byte, if there is one. -/
theorem exec_sflush_of_pass {s : State} (h : 0 < s.regs.serNb.toNat → s.regs.serWp.toNat < s.params.maxSamples) :
    exec .sflush s = .next ((flush s).respond 0) :=
  checked_pass (by simpa using h)

/-- Settles O39: SFLUSH with no partial byte, with one and PB full, and with one that has its place. -/
theorem sflushClosesTheStream : Obligations.SflushClosesTheStream := by
  intro s
  refine ⟨fun hempty => ?_, fun hnb hfull => raises_of_plain rfl (by simp [hnb, hfull]), fun hnb hroom => ?_⟩
  · rw [exec_sflush_of_pass (by omega), flush_of_empty hempty]
    exact ⟨_, rfl, ⟨rfl, rfl, rfl, rfl⟩, respond_readByte s 0⟩
  · rw [exec_sflush_of_pass fun _ => hroom, flush_of_partial hnb]
    refine ⟨_, rfl, leaves_writeBytes_updRegs_respond .., ?_, fun sp a hout => ?_⟩
    · rw [respond_readByte, updRegs_readByte, readByte_writeByte_same]
    · rw [respond_readByte, updRegs_readByte, keptOutside_writeByte s .pb _ _ sp a hout]

/-! ## SPUSH (R132) -/

/-- SPUSH with no failing check appends its bits. -/
theorem exec_spush_of_pass {s : State} {n : Nat} {v : Word} (h1 : 1 ≤ n) (h8 : n ≤ 8) (hv : v.toNat < 2 ^ n)
    (hroom : 8 ≤ s.regs.serNb.toNat + n → s.regs.serWp.toNat < s.params.maxSamples) :
    exec (.spush n v) s = .next ((pushBits (msbBits n v.toNat) s).respond 0) :=
  checked_pass (by simpa [Nat.ne_of_gt h1, not_lt.mpr h8, not_le.mpr hv] using hroom)

/-- The bits that complete a byte: the high 8 − SER_NB of them fill it, the k low ones start the next. -/
theorem pushBits_carry {s : State} {n : Nat} (v : Nat) (h8 : n ≤ 8) (hfull : 8 ≤ s.regs.serNb.toNat + n) :
    pushBits (msbBits n v) s =
      (s.writeBytes .pb s.regs.serWp.toNat
        [s.regs.serAcc + BitVec.ofNat 8 (v / 2 ^ (s.regs.serNb.toNat + n - 8) % 2 ^ (8 - s.regs.serNb.toNat))]).updRegs
        fun r =>
          { r with
            serAcc := BitVec.ofNat 8 (v % 2 ^ (s.regs.serNb.toNat + n - 8) * 2 ^ (8 - (s.regs.serNb.toNat + n - 8)))
            serNb := BitVec.ofNat 3 (s.regs.serNb.toNat + n - 8)
            serWp := r.serWp + 1 } := by
  have hnb := s.regs.serNb.isLt
  have hsplit : msbBits n v
      = msbBits (8 - s.regs.serNb.toNat) (v / 2 ^ (s.regs.serNb.toNat + n - 8))
        ++ msbBits (s.regs.serNb.toNat + n - 8) v := by
    rw [← msbBits_add]
    congr
    omega
  rw [hsplit, pushBits_append, pushBits_full (s := s) _ (by omega) (by omega), pushBits_short _ (by simp; omega)]
  refine state_eq rfl ?_ (fun sp => by simp only [updRegs_mem]) rfl rfl
  simp

/-- SER_ACC is zero below its filled bits, so bits that fit there are added without a carry (10_state.md R38). -/
theorem toNat_add_of_low_zero {acc : Byte} {m x : Nat} (hm : m ≤ 8) (hlow : acc.toNat % 2 ^ m = 0) (hx : x < 2 ^ m) :
    (acc + BitVec.ofNat 8 x).toNat = acc.toNat + x := by
  have hbound : acc.toNat + x < 2 ^ 8 := by
    have hacc := acc.isLt
    interval_cases m <;> omega
  rw [BitVec.toNat_add, BitVec.toNat_ofNat, Nat.add_mod_mod, Nat.mod_eq_of_lt hbound]

/-- Settles O38: one clause for each check of SPUSH, and the bits appended without and with a completed byte. -/
theorem spushAppendsBits : Obligations.SpushAppendsBits := by
  intro s n v h
  refine ⟨fun hn => ?_, fun h1 h8 => ⟨fun hv => ?_,
    fun hv => ⟨fun hfull hpb => ?_, fun hshort => ?_, fun hfull hroom => ?_⟩⟩⟩
  · exact raises_of_plain rfl (by simp [← Bool.decide_or, hn])
  · exact raises_of_plain rfl (by simp [Nat.ne_of_gt h1, not_lt.mpr h8, hv])
  · exact raises_of_plain rfl (by simp [Nat.ne_of_gt h1, not_lt.mpr h8, not_le.mpr hv, hfull, hpb])
  · rw [exec_spush_of_pass h1 h8 hv (by omega), pushBits_short _ hshort]
    refine ⟨_, rfl, fun sp a => by rw [respond_readByte, updRegs_readByte], rfl, rfl, ?_, rfl⟩
    rw [respond_regs, updRegs_regs, Nat.mod_eq_of_lt hv, BitVec.ofNat_add (n := 8), BitVec.ofNat_toNat,
      BitVec.setWidth_eq]
  · rw [exec_spush_of_pass h1 h8 hv fun _ => hroom, pushBits_carry _ h8 hfull]
    have hnb := s.regs.serNb.isLt
    have hhigh : v.toNat / 2 ^ (s.regs.serNb.toNat + n - 8) < 2 ^ (8 - s.regs.serNb.toNat) := by
      rw [Nat.div_lt_iff_lt_mul (by positivity), ← pow_add]
      exact hv.trans_eq (congrArg _ (by omega))
    refine ⟨_, rfl, ?_, fun sp a hout => ?_, leaves_writeBytes_updRegs_respond ..⟩
    · rw [respond_readByte, updRegs_readByte, readByte_writeByte_same, Nat.mod_eq_of_lt hhigh,
        toNat_add_of_low_zero (by omega) h.serLow hhigh]
    · rw [respond_readByte, updRegs_readByte, keptOutside_writeByte s .pb _ _ sp a hout]

/-! ## PACK and QPACK (R135, R136) -/

theorem readBytes_leaveBitstream (s : State) (stream : List Byte) :
    (leaveBitstream s stream).readBytes .pb 0 stream.length = stream := by
  rw [leaveBitstream, updRegs_readBytes, readBytes_writeBytes_same]

theorem keptOutside_leaveBitstream (s : State) (stream : List Byte) :
    KeptOutside s (leaveBitstream s stream) (fun sp a => sp = .pb ∧ a < stream.length) := by
  intro sp a hout
  rw [leaveBitstream, updRegs_readByte]
  exact keptOutside_writeBytes s .pb 0 stream sp a fun ⟨hsp, _, hhi⟩ => hout ⟨hsp, by omega⟩

theorem leaves_leaveBitstream_respond (s : State) (stream : List Byte) :
    Leaves s ((leaveBitstream s stream).respond 0)
      { s.regs with serAcc := 0, serNb := 0, serWp := s.regs.plenRaw, cvalid := false } 0 :=
  leaves_writeBytes_updRegs_respond ..

/-- What PACK and QPACK have in common: a stream of the configured raw length stands in PB and the cursor behind it. -/
theorem exec_leaves_stream {i : Instr} {s : State} {stream : List Byte} (hlen : stream.length = s.regs.plenRaw.toNat)
    (hexec : exec i s = .next ((leaveBitstream s stream).respond 0)) :
    ∃ t, exec i s = .next t
      ∧ Leaves s t { s.regs with serAcc := 0, serNb := 0, serWp := s.regs.plenRaw, cvalid := false } 0
      ∧ t.readBytes .pb 0 s.regs.plenRaw.toNat = stream
      ∧ KeptOutside s t (fun sp a => sp = .pb ∧ a < s.regs.plenRaw.toNat) := by
  refine ⟨_, hexec, leaves_leaveBitstream_respond s stream, ?_, fun sp a hout => ?_⟩
  · rw [respond_readBytes, ← hlen, readBytes_leaveBitstream]
  · rw [← hlen] at hout
    rw [respond_readByte, keptOutside_leaveBitstream s stream sp a hout]

/-- PACK's second check fails exactly where a sample does not fit its width (R135). -/
theorem sampleTooWide_iff (s : State) :
    sampleTooWide s = true ↔
      ∃ i < s.regs.nsamp.toNat, 2 ^ s.regs.ebwAt (i % s.regs.chanC.toNat) ≤ (s.readByte .qb i).toNat := by
  simp only [sampleTooWide, List.any_eq_true, List.mem_range, decide_eq_true_eq]
  rfl

/-- PACK in a configured block: what is left to decide is its second check (R135). -/
theorem State.Inv.exec_pack {s : State} (h : s.Inv) (hconf : s.regs.configured = true) :
    Machine.exec .pack s = checked Instr.pack.opcode [.plain (sampleTooWide s) .valueError] s
      (.next ((Machine.leaveBitstream s (packedFrame s)).respond 0)) := by
  show execPack s = _
  rw [execPack, checked_pass (by simp [needsSetup, hconf]), within_ok (h.nsamp_le hconf),
    within_ok (h.pack_length_le hconf (length_readBytes ..))]

/-- QPACK in a configured block (R136). -/
theorem State.Inv.exec_qpack {s : State} (h : s.Inv) (hconf : s.regs.configured = true) :
    Machine.exec .qpack s = .next ((Machine.leaveBitstream s (fusedFrame s)).respond 0) := by
  show execQpack s = _
  rw [execQpack, checked_pass (by simp [needsSetup, hconf]), within_ok (h.nsamp_le hconf),
    within_ok (h.pack_length_le hconf (quantizedInput_length s))]

/-- Settles O40: PACK before SETUP, with a sample too wide, and with none. -/
theorem packWritesTheBitstream : Obligations.PackWritesTheBitstream := by
  intro s h
  refine ⟨fun hconf => ?_, fun hconf => ⟨fun hwide => ?_, fun hfit => ?_⟩⟩
  · exact raises_of_plain rfl (by simp [needsSetup, hconf])
  · exact raises_of_plain (h.exec_pack hconf) (by simp [(sampleTooWide_iff s).mpr hwide])
  · have hpass : sampleTooWide s = false := by
      rw [← Bool.not_eq_true, sampleTooWide_iff]
      simpa using hfit
    exact exec_leaves_stream ((h.derived hconf).pack_length (length_readBytes ..))
      ((h.exec_pack hconf).trans (checked_pass (by simp [hpass])))

/-- Settles O41: QPACK before SETUP, and in a configured block. -/
theorem qpackWritesTheBitstream : Obligations.QpackWritesTheBitstream := fun s h =>
  ⟨fun hconf => raises_of_plain rfl (by simp [needsSetup, hconf]),
    fun hconf => exec_leaves_stream ((h.derived hconf).pack_length (quantizedInput_length s)) (h.exec_qpack hconf)⟩

/-! ## The serializer law (R134) -/

/-- The SPUSH commands of the samples k, k + 1, ... (R134). -/
def spushesFrom (w : Nat → Nat) (c k : Nat) (q : List Byte) : List Instr :=
  q.mapIdx fun i x => .spush (w ((k + i) % c)) (x.setWidth 32)

theorem serializerCommands_eq (w : Nat → Nat) (c : Nat) (q : List Byte) :
    serializerCommands w c q = .srst :: (spushesFrom w c 0 q ++ [.sflush]) := by
  simp [serializerCommands, spushesFrom]

@[simp] theorem spushesFrom_nil (w : Nat → Nat) (c k : Nat) : spushesFrom w c k [] = [] := rfl

theorem spushesFrom_cons (w : Nat → Nat) (c k : Nat) (x : Byte) (q : List Byte) :
    spushesFrom w c k (x :: q) = .spush (w (k % c)) (x.setWidth 32) :: spushesFrom w c (k + 1) q := by
  simp only [spushesFrom, List.mapIdx_cons, Nat.add_zero, Nat.add_assoc, Nat.add_comm 1]

/-- A list of commands that answers hands its state to the commands behind it (30_encoding.md R89). -/
theorem perform_append {is js : List Instr} {s t : State} (h : perform is s = .next t) :
    perform (is ++ js) s = perform js t := by
  induction is generalizing s with
  | nil => rw [List.nil_append, ← Host.Outcome.next.inj h]
  | cons i is ih =>
    rw [List.cons_append, perform]
    rw [perform] at h
    split at h
    · exact ih h
    · cases h
    · cases h

theorem Holds.respond {s0 s : State} {bits : List Bool} (h : Holds s0 bits s) (v : Word) :
    Holds s0 bits (s.respond v) :=
  ⟨h.params, h.port, h.regs, by simpa using h.done, by simpa using h.kept⟩

theorem Holds.serNb {s0 s : State} {bits : List Bool} (h : Holds s0 bits s) :
    s.regs.serNb.toNat = bits.length % 8 := by
  rw [h.regs, BitVec.toNat_ofNat]

theorem Holds.serWp {s0 s : State} {bits : List Bool} (h : Holds s0 bits s) (hlen : bits.length / 8 < 2 ^ 32) :
    s.regs.serWp.toNat = bits.length / 8 := by
  rw [h.regs, BitVec.toNat_ofNat, Nat.mod_eq_of_lt hlen]

/-- One SPUSH of a sample that fits its width, where PB holds the bytes of the stream it extends. -/
theorem Holds.exec_spush {s0 s : State} {bits : List Bool} (h : Holds s0 bits s) (hp : s0.params.wf = true) {n : Nat}
    {x : Byte} (h1 : 1 ≤ n) (h8 : n ≤ 8) (hx : x.toNat < 2 ^ n)
    (hroom : (bits.length + n) / 8 ≤ s0.params.maxSamples) :
    ∃ t, exec (.spush n (x.setWidth 32)) s = .next t ∧ Holds s0 (bits ++ msbBits n x.toNat) t := by
  obtain ⟨⟨-, hmax⟩, -⟩ := s0.params.wf_iff.mp hp
  have hv : (x.setWidth 32).toNat = x.toNat := BitVec.toNat_setWidth_of_le (by decide)
  refine ⟨_, exec_spush_of_pass h1 h8 (hv ▸ hx) fun hfull => ?_, ?_⟩
  · rw [h.serNb] at hfull
    rw [h.serWp (by omega), h.params]
    omega
  · rw [hv]
    exact (h.pushBits _ (by rw [msbBits_length]; omega)).respond 0

/-- One SPUSH a sample: the serializer holds the stream of the samples pushed. -/
theorem Holds.perform_spushesFrom {s0 s : State} {bits : List Bool} (h : Holds s0 bits s) (hp : s0.params.wf = true)
    {w : Nat → Nat} {c k : Nat} {q : List Byte} (hw : ∀ i, 1 ≤ w (i % c) ∧ w (i % c) ≤ 8)
    (hq : ∀ i < q.length, (q.getD i 0).toNat < 2 ^ w ((k + i) % c))
    (hroom : (bits ++ frameBitsFrom w c k q).length / 8 ≤ s0.params.maxSamples) :
    ∃ t, perform (spushesFrom w c k q) s = .next t ∧ Holds s0 (bits ++ frameBitsFrom w c k q) t := by
  induction q generalizing k bits s with
  | nil => exact ⟨s, rfl, by simpa using h⟩
  | cons x q ih =>
    rw [frameBitsFrom_cons, ← List.append_assoc] at hroom ⊢
    obtain ⟨t, hexec, ht⟩ := h.exec_spush hp (x := x) (hw k).1 (hw k).2 (hq 0 (Nat.succ_pos _)) (by
      simp only [List.length_append, msbBits_length] at hroom
      omega)
    rw [spushesFrom_cons, perform_cons hexec]
    refine ih ht (fun i hi => ?_) hroom
    have hnext := hq (i + 1) (Nat.succ_lt_succ hi)
    rwa [List.getD_cons_succ, ← Nat.add_assoc, Nat.add_right_comm] at hnext

/-- The serializer after SFLUSH: the whole stream stands in PB and the cursor behind it. -/
structure Closed (s0 : State) (bits : List Bool) (t : State) : Prop where
  regs : t.regs =
    { s0.regs with serAcc := 0, serNb := 0, serWp := BitVec.ofNat 32 (ceilDiv8 bits.length) }
  packed : t.readBytes .pb 0 (ceilDiv8 bits.length) = packBits bits
  kept : KeptOutside s0 t (fun sp a => sp = .pb ∧ a < ceilDiv8 bits.length)

/-- The bytes of PB make up the packed stream. -/
theorem readBytes_eq_packBits {t : State} {bits : List Bool}
    (h : ∀ k < ceilDiv8 bits.length, t.readByte .pb k = streamByte bits k) :
    t.readBytes .pb 0 (ceilDiv8 bits.length) = packBits bits := by
  rw [State.readBytes, packBits]
  refine List.map_congr_left fun k hk => ?_
  rw [Nat.zero_add, h k (List.mem_range.mp hk)]

/-- SFLUSH closes the stream: with no partial byte it is complete already, and a partial byte is its last. -/
theorem Holds.flush {s0 s : State} {bits : List Bool} (h : Holds s0 bits s) (hlen : bits.length / 8 < 2 ^ 32) :
    Closed s0 bits (flush s) := by
  have hnb := h.serNb
  by_cases hempty : bits.length % 8 = 0
  · have hceil : ceilDiv8 bits.length = bits.length / 8 := by rw [ceilDiv8]; omega
    rw [flush_of_empty (by omega)]
    refine ⟨?_, readBytes_eq_packBits (hceil ▸ h.done), hceil ▸ h.kept⟩
    have hzero : BitVec.ofNat 3 bits.length = 0 := BitVec.eq_of_toNat_eq (by simpa using hempty)
    rw [h.regs, hzero, streamByte_of_le bits (by omega), hceil]
  · have hceil : ceilDiv8 bits.length = bits.length / 8 + 1 := by rw [ceilDiv8]; omega
    have hacc : s.regs.serAcc = streamByte bits (bits.length / 8) := by rw [h.regs]
    rw [flush_of_partial (by omega), h.serWp hlen, hacc]
    refine ⟨?_, readBytes_eq_packBits fun k hk => ?_, fun sp a hout => ?_⟩
    · rw [updRegs_regs, writeBytes_regs, h.regs, hceil, BitVec.ofNat_add]
      rfl
    · rw [updRegs_readByte]
      by_cases hlast : k = bits.length / 8
      · rw [hlast, readByte_writeByte_same]
      · rw [keptOutside_writeByte s .pb _ _ .pb k (fun hin => hlast hin.2), h.done k (by omega)]
    · rw [updRegs_readByte, keptOutside_writeByte s .pb _ _ sp a (fun hin => hout ⟨hin.1, by omega⟩),
        h.kept sp a fun hin => hout ⟨hin.1, by omega⟩]

theorem Closed.respond {s0 t : State} {bits : List Bool} (h : Closed s0 bits t) (v : Word) :
    Closed s0 bits (t.respond v) :=
  ⟨h.regs, by simpa using h.packed, fun sp a hout => (respond_readByte ..).trans (h.kept sp a hout)⟩

/-- SFLUSH where PB holds the whole stream. -/
theorem Holds.exec_sflush {s0 s : State} {bits : List Bool} (h : Holds s0 bits s) (hp : s0.params.wf = true)
    (hroom : ceilDiv8 bits.length ≤ s0.params.maxSamples) : ∃ t, exec .sflush s = .next t ∧ Closed s0 bits t := by
  obtain ⟨⟨-, hmax⟩, -⟩ := s0.params.wf_iff.mp hp
  rw [ceilDiv8] at hroom
  have hlen : bits.length / 8 < 2 ^ 32 := by omega
  refine ⟨_, exec_sflush_of_pass fun hpartial => ?_, (h.flush hlen).respond 0⟩
  rw [h.serNb] at hpartial
  rw [h.serWp hlen, h.params]
  omega

/-- The serializer sequence: SRST clears the serializer, the pushes extend the stream it holds, SFLUSH closes it. -/
theorem perform_serializerCommands {s : State} (hp : s.params.wf = true) {w : Nat → Nat} {c : Nat} {q : List Byte}
    (hw : ∀ i, 1 ≤ w (i % c) ∧ w (i % c) ≤ 8) (hq : ∀ i < q.length, (q.getD i 0).toNat < 2 ^ w (i % c))
    (hroom : ceilDiv8 (frameBits w c q).length ≤ s.params.maxSamples) :
    ∃ t, perform (serializerCommands w c q) s = .next t
      ∧ Closed (s.updRegs fun r => { r with cvalid := false }) (frameBits w c q) t := by
  have hcleared := Holds.nil (s0 := s.updRegs fun r => { r with cvalid := false })
    (s := (s.updRegs fun r => { r with serAcc := 0, serNb := 0, serWp := 0, cvalid := false }).respond 0)
    rfl rfl rfl (by simp)
  obtain ⟨t, hpushes, ht⟩ := hcleared.perform_spushesFrom hp (k := 0) hw (by simpa only [Nat.zero_add] using hq) (by
    rw [List.nil_append, ← frameBits_eq]
    exact (Nat.div_le_div_right (Nat.le_add_right ..)).trans hroom)
  rw [List.nil_append, ← frameBits_eq] at ht
  obtain ⟨u, hsflush, hu⟩ := ht.exec_sflush hp hroom
  refine ⟨u, ?_, hu⟩
  rw [serializerCommands_eq, perform_cons (i := .srst) rfl, perform_append hpushes, perform_cons hsflush, perform]

/-- Settles O43: the stream of a configured frame is PLEN_RAW bytes long and fits PB. -/
theorem serializerBuildsThePackedFrame : Obligations.SerializerBuildsThePackedFrame := by
  intro s q h hconf hq hfit
  have hlen : ceilDiv8 (frameBits s.regs.ebwAt s.regs.chanC.toNat q).length = s.regs.plenRaw.toNat :=
    (packBits_length _).symm.trans ((h.derived hconf).pack_length hq)
  obtain ⟨t, hperform, hclosed⟩ := perform_serializerCommands h.params (c := s.regs.chanC.toNat)
    (fun i => h.ebwAt_legal hconf (h.mod_channels_lt hconf i)) hfit
    (hlen.trans_le ((h.legal hconf).plenRaw_le (h.derived hconf)))
  refine ⟨t, hperform, ?_, ?_, fun sp a hout => ?_⟩
  · rw [← hlen]
    exact hclosed.packed
  · rw [hclosed.regs, updRegs_regs, hlen, BitVec.ofNat_toNat, BitVec.setWidth_eq]
  · rw [← hlen] at hout
    rw [hclosed.kept sp a hout, updRegs_readByte]

end Sys2Proof.Machine

/-! R172: no step but SETUP's writes a byte of the constant header. -/

namespace Sys2Proof.Machine

open Sys2Proof.Spec

theorem gen_eq_two_iff (r : Regs) : r.gen = 2 ↔ r.gen.toNat = 2 := BitVec.toNat_inj.symm

/-- Taking a command from the port changes no byte. -/
theorem withPort_readByte (s : State) (port : List Command) (sp : Space) (a : Nat) :
    { s with port := port }.readByte sp a = s.readByte sp a :=
  readByte_of_mem (by cases sp <;> rfl) a

/-- A step that does not perform SETUP keeps every byte of the constant header, also when it raises an error. -/
theorem State.Inv.step_constantByte {s t : State} (h : s.Inv) (hstep : step s = .next t)
    (hsetup : ∀ c rest, s.port = c :: rest → decode c ≠ .ok .setup) {sp : Space} {a : Nat}
    (ha : ConstantByte s.regs sp a) : t.readByte sp a = s.readByte sp a := by
  rcases step_next hstep with ⟨-, rfl⟩ | ⟨c, rest, hport, ⟨e, -, rfl⟩ | ⟨i, hdecode, hexec⟩⟩
  · rfl
  · rw [State.rejectCommand, raise_readByte, withPort_readByte]
  · have hi : i ≠ .setup := by
      rintro rfl
      exact hsetup c rest hport hdecode
    rw [← withPort_readByte s rest]
    rcases exec_next hexec with ⟨e, info, -, -, -, rfl⟩ | heff
    · exact raise_readByte ..
    · exact heff.constantByte (h.withPort rest) hi ha

/-- Settles O12: the bytes R172 names are the constant bytes, which no step but SETUP's writes. -/
theorem onlySetupWritesTheConstantHeader : Obligations.OnlySetupWritesTheConstantHeader := by
  intro s t h hstep hsetup
  refine ⟨fun a hlo hhi => ?_, fun a hlo hhi => ?_, fun k j hj => ?_⟩
  · simp only [← gen_eq_two_iff] at hhi
    exact h.step_constantByte hstep hsetup (sp := .pa) ⟨hlo, hhi⟩
  · exact h.step_constantByte hstep hsetup (sp := .ma) (.inl ⟨hlo, hhi⟩)
  · exact h.step_constantByte hstep hsetup (sp := .ma) (.inr ⟨k, by omega, by omega⟩)

end Sys2Proof.Machine

/-! The framer's commands one by one (43_framer.md R150 to R169): what each answers, the bytes it writes, and what it
leaves. -/

namespace Sys2Proof.Spec

open Sys2Proof.Machine

/-! ## Frames of memory -/

theorem KeptOutside.trans {s t u : State} {p q : Space → Nat → Prop} (h : KeptOutside s t p) (h' : KeptOutside t u q) :
    KeptOutside s u (fun sp a => p sp a ∨ q sp a) := fun sp a hout =>
  (h' sp a fun hq => hout (.inr hq)).trans (h sp a fun hp => hout (.inl hp))

theorem KeptOutside.mono {s t : State} {p q : Space → Nat → Prop} (h : KeptOutside s t p)
    (hpq : ∀ sp a, p sp a → q sp a) : KeptOutside s t q := fun sp a hout => h sp a fun hp => hout (hpq sp a hp)

/-- Registers and response are no memory. -/
theorem KeptOutside.updRegs_respond {s t : State} {p : Space → Nat → Prop} (h : KeptOutside s t p) (f : Regs → Regs)
    (v : Word) : KeptOutside s ((t.updRegs f).respond v) p := fun sp a hout => by
  rw [respond_readByte, updRegs_readByte, h sp a hout]

end Sys2Proof.Spec

namespace Sys2Proof.Machine

open Sys2Proof.Spec

/-! ## The lengths of the packets (R152, R153) -/

/-- Settles O53: the lengths of the parts, added. -/
theorem packetLengths : Obligations.PacketLengths := by
  intro r t f p
  have hentries := flatMap_length_12 (entry_length r) r.readings
  refine ⟨?_, ?_, ?_, ?_, metaTable_length r⟩
  · simp only [packet0, List.length_append, le32_length, le32Nat_length, hdr_length, metaTable_length, Regs.channels]
    omega
  · simp only [packet1, List.length_append, le32_length, le32Nat_length, hdr_length, metaTable_length, Regs.channels,
      List.length_singleton]
    omega
  · simp only [videoPacket2, List.length_append, le32_length, le32Nat_length]
  · rw [metaPacket2, List.length_append, List.length_append, le32_length, le32Nat_length, hentries, Regs.readings]

/-! ## The selection (R159) -/

theorem rawReady_iff (r : Regs) : rawReady r = true ↔ RawClosed r := by
  simp [rawReady, RawClosed, ← BitVec.toNat_inj]

theorem compressedReady_iff (r : Regs) :
    (r.compEn && r.cvalid && decide (r.clen ≤ r.plenRaw)) = true ↔ CompressedReady r := by
  simp [CompressedReady, BitVec.le_def, and_assoc]

/-- Every case of R159 is a branch of the selection: the converse of `chooses_of_select`. -/
theorem select_of_chooses {r : Regs} {src : FSrc} {f : Bool} {p : Word} (h : Chooses r src f p) :
    select r = some (src, f, p) := by
  have hgen : ∀ {n : BitVec 2}, r.gen.toNat = n.toNat → r.gen = n := BitVec.eq_of_toNat_eq
  rcases h with ⟨hg, hraw, rfl, rfl, rfl⟩ | ⟨hg, hcomp, rfl, rfl, rfl⟩ | ⟨hg, hcomp, hraw, rfl, rfl, rfl⟩ |
    ⟨hg, hvalid, rfl, rfl, rfl⟩
  · rw [select, if_pos (hgen (n := 0) hg), if_pos ((rawReady_iff r).mpr hraw)]
  · have h1 := hgen (n := 1) hg
    rw [select, if_neg (by simp [h1]), if_pos h1, if_pos ((compressedReady_iff r).mpr hcomp)]
  · have h1 := hgen (n := 1) hg
    rw [select, if_neg (by simp [h1]), if_pos h1, if_neg (mt (compressedReady_iff r).mp hcomp),
      if_pos ((rawReady_iff r).mpr hraw)]
  · have h2 := hgen (n := 2) hg
    rw [select, if_neg (by simp [h2]), if_neg (by simp [h2]), if_pos h2, if_pos hvalid]

/-! ## FHDR (R157) -/

section Header

variable {s : State} (t : Word) (f : Bool) (p : Word)

theorem writeHeader_gen0 (hg : s.regs.gen = 0) :
    writeHeader t f p s = (s.writeBytes .pa 0 (le32 t)).writeBytes .pa (13 + s.regs.channels) (le32 p) := by
  simp [writeHeader, hg]

theorem writeHeader_gen1 (hg : s.regs.gen = 1) :
    writeHeader t f p s =
      ((s.writeBytes .pa 0 (le32 t)).writeBytes .pa (13 + s.regs.channels) [flagByte f]).writeBytes .pa
        (14 + s.regs.channels) (le32 p) := by
  simp [writeHeader, hg]

theorem writeHeader_gen2 (hg : s.regs.gen = 2) :
    writeHeader t f p s = (s.writeBytes .pa 0 (le32 t)).writeBytes .pa 12 (le32 p) := by
  simp [writeHeader, hg]

/-- The other variable fields lie behind the timestamp. -/
theorem readBytes_writeHeader_timestamp : (writeHeader t f p s).readBytes .pa 0 4 = le32 t := by
  have hts : (s.writeBytes .pa 0 (le32 t)).readBytes .pa 0 4 = le32 t := readBytes_writeBytes_same s .pa 0 (le32 t)
  have behind : ∀ (u : State) (a : Nat) (bs : List Byte), 4 ≤ a →
      (u.writeBytes .pa a bs).readBytes .pa 0 4 = u.readBytes .pa 0 4 := fun u a bs ha =>
    readBytes_writeBytes_disjoint _ _ _ _ _ _ _ (.inr (.inl ha))
  unfold writeHeader
  dsimp only
  split
  · rw [behind _ _ _ (by omega), hts]
  · split
    · rw [behind _ _ _ (by omega), behind _ _ _ (by omega), hts]
    · split
      · rw [behind _ _ _ (by omega), hts]
      · exact hts

theorem flagByte_toNat : (flagByte f).toNat = f.toNat := by cases f <;> rfl

theorem readByte_writeHeader_flag (hg : s.regs.gen = 1) :
    ((writeHeader t f p s).readByte .pa (13 + s.regs.channels)).toNat = f.toNat := by
  rw [writeHeader_gen1 t f p hg, readByte_writeBytes_outside _ _ _ _ _ _ (.inl (by omega)), readByte_writeByte_same,
    flagByte_toNat]

/-- In generation 0 FHDR writes the timestamp and the length behind the constant fields. -/
theorem keptOutside_writeHeader_gen0 (hg : s.regs.gen = 0) :
    KeptOutside s (writeHeader t f p s) (fun sp a => sp = .pa ∧ (a < 4
      ∨ 13 + s.regs.channels ≤ a ∧ a < 17 + s.regs.channels)) := by
  rw [writeHeader_gen0 t f p hg]
  refine ((keptOutside_writeBytes _ _ _ _).trans (keptOutside_writeBytes _ _ _ _)).mono ?_
  simp only [le32_length]
  rintro sp a (⟨hsp, -, hhi⟩ | ⟨hsp, hlo, hhi⟩)
  · exact ⟨hsp, .inl (by omega)⟩
  · exact ⟨hsp, .inr (by omega)⟩

/-- In generation 1 the compression flag stands before the length. -/
theorem keptOutside_writeHeader_gen1 (hg : s.regs.gen = 1) :
    KeptOutside s (writeHeader t f p s) (fun sp a => sp = .pa ∧ (a < 4
      ∨ 13 + s.regs.channels ≤ a ∧ a < 18 + s.regs.channels)) := by
  rw [writeHeader_gen1 t f p hg]
  refine (((keptOutside_writeBytes _ _ _ _).trans (keptOutside_writeByte _ _ _ _)).trans
    (keptOutside_writeBytes _ _ _ _)).mono ?_
  simp only [le32_length]
  rintro sp a ((⟨hsp, -, hhi⟩ | ⟨hsp, rfl⟩) | ⟨hsp, hlo, hhi⟩)
  · exact ⟨hsp, .inl (by omega)⟩
  · exact ⟨hsp, .inr (by omega)⟩
  · exact ⟨hsp, .inr (by omega)⟩

/-- In generation 2 the length stands behind the frame size. -/
theorem keptOutside_writeHeader_gen2 (hg : s.regs.gen = 2) :
    KeptOutside s (writeHeader t f p s) (fun sp a => sp = .pa ∧ (a < 4 ∨ 12 ≤ a ∧ a < 16)) := by
  rw [writeHeader_gen2 t f p hg]
  refine ((keptOutside_writeBytes _ _ _ _).trans (keptOutside_writeBytes _ _ _ _)).mono ?_
  simp only [le32_length]
  rintro sp a (⟨hsp, -, hhi⟩ | ⟨hsp, hlo, hhi⟩)
  · exact ⟨hsp, .inl (by omega)⟩
  · exact ⟨hsp, .inr (by omega)⟩

end Header

/-- FHDR with a payload to frame. -/
theorem exec_fhdr_of_chooses {s : State} (hconf : s.regs.configured = true) {src : FSrc} {f : Bool} {p : Word}
    (h : Chooses s.regs src f p) (hi ts : Word) :
    exec (.fhdr hi ts) s = .next (((writeHeader ts f p s).updRegs (beginPacket ts src f p)).respond 0) := by
  show execFhdr hi ts s = _
  rw [execFhdr, checked_pass (by simp [needsSetup, hconf]), select_of_chooses h]

/-- FHDR with none (R160). -/
theorem raises_fhdr_of_select_none {s : State} (hconf : s.regs.configured = true) (hsel : select s.regs = none)
    (hi ts : Word) : Raises (.fhdr hi ts) s 0x10 .sequenceError 0 := by
  refine ⟨_, ?_, raise_raised ..⟩
  show execFhdr hi ts s = _
  rw [execFhdr, checked_pass (by simp [needsSetup, hconf]), hsel]
  rfl

theorem leaves_beginPacket (s : State) (ts : Word) (src : FSrc) (f : Bool) (p : Word) :
    Leaves s (((writeHeader ts f p s).updRegs (beginPacket ts src f p)).respond 0) (beginPacket ts src f p s.regs) 0 :=
  ⟨writeHeader_params .., writeHeader_port .., congrArg (beginPacket ts src f p) (writeHeader_regs ..), rfl⟩

/-- Settles O48: FHDR before SETUP, with no payload to frame, and with one, generation by generation. -/
theorem fhdrBeginsAPacket : Obligations.FhdrBeginsAPacket := by
  intro s hi ts
  refine ⟨fun hconf => raises_of_plain rfl (by simp [needsSetup, hconf]), fun hconf => ⟨fun _ hnone => ?_, ?_⟩⟩
  · refine raises_fhdr_of_select_none hconf ?_ hi ts
    cases hsel : select s.regs with
    | none => rfl
    | some choice => exact absurd (chooses_of_select hsel) (hnone _ _ _)
  · intro src f p h
    refine ⟨_, exec_fhdr_of_chooses hconf h hi ts, leaves_beginPacket .., ?_, fun hg => ?_, fun hg => ?_, fun hg => ?_⟩
    · exact readBytes_writeHeader_timestamp ts f p
    · have hgen : s.regs.gen = 0 := BitVec.eq_of_toNat_eq hg
      refine ⟨?_, (keptOutside_writeHeader_gen0 ts f p hgen).updRegs_respond _ _⟩
      rw [respond_readBytes, updRegs_readBytes, writeHeader_gen0 ts f p hgen]
      exact readBytes_writeBytes_same _ .pa _ (le32 p)
    · have hgen : s.regs.gen = 1 := BitVec.eq_of_toNat_eq hg
      refine ⟨readByte_writeHeader_flag ts f p hgen, ?_,
        (keptOutside_writeHeader_gen1 ts f p hgen).updRegs_respond _ _⟩
      rw [respond_readBytes, updRegs_readBytes, writeHeader_gen1 ts f p hgen]
      exact readBytes_writeBytes_same _ .pa _ (le32 p)
    · have hgen : s.regs.gen = 2 := BitVec.eq_of_toNat_eq hg
      refine ⟨?_, (keptOutside_writeHeader_gen2 ts f p hgen).updRegs_respond _ _⟩
      rw [respond_readBytes, updRegs_readBytes, writeHeader_gen2 ts f p hgen]
      exact readBytes_writeBytes_same _ .pa 12 (le32 p)

/-! ## FPAY (R161) -/

/-- The state FPAY leaves. -/
def afterFpay (s : State) : State :=
  ((s.writeBytes .pa s.regs.hdrLen.toNat (s.readBytes s.regs.fSrc.space 0 s.regs.fPlen.toNat)).updRegs
    fun r => { r with fstate := .payloadWritten }).respond 0

theorem afterFpay_regs (s : State) : (afterFpay s).regs = { s.regs with fstate := .payloadWritten } := by
  rw [afterFpay, respond_regs, updRegs_regs, writeBytes_regs]

/-- FPAY behind FHDR: the payload fits the memory it comes from and the arena (20_memory.md R73). -/
theorem State.Inv.exec_fpay {s : State} (h : s.Inv) (hf : s.regs.fstate = .headerWritten) :
    Machine.exec .fpay s = .next (afterFpay s) := by
  have hn : s.regs.fstate ≠ .new := by simp [hf]
  have hpa := h.packet_le_pa hn
  show execFpay s = _
  unfold execFpay
  dsimp only
  rw [checked_pass (by simp [inState, hf]), within_ok (h.payload_le_source hn), within_ok (by omega), afterFpay]

/-- A stage out of its state (R150). -/
theorem raises_of_inState {i : Instr} {s : State} {op : Byte} {st : FState} {effect : Result}
    (hexec : exec i s = checked op [inState s st] s effect) (hf : s.regs.fstate ≠ st) :
    Raises i s op .sequenceError 0 :=
  raises_of_plain hexec (by simp [inState, hf])

theorem raises_fpay {s : State} (hf : s.regs.fstate ≠ .headerWritten) : Raises .fpay s 0x11 .sequenceError 0 :=
  raises_of_inState rfl hf

theorem readByte_source (s : State) (src : FSrc) (i : Nat) :
    s.readByte src.space i = if src = .raw then s.readByte .pb i else s.readByte .cb i := by
  cases src <;> rfl

/-- Settles O49: the payload read back behind the header, inside its range and outside. -/
theorem fpayCopiesThePayload : Obligations.FpayCopiesThePayload := by
  intro s h
  refine ⟨raises_fpay, fun hf => ⟨_, h.exec_fpay hf, leaves_writeBytes_updRegs_respond .., fun i hi => ?_, ?_⟩⟩
  · rw [afterFpay, respond_readByte, updRegs_readByte, readByte_writeBytes_inside _ _ _ _ _ (by simpa using hi),
      getElem_readBytes, Nat.zero_add, readByte_source]
  · have hkept := keptOutside_writeBytes s .pa s.regs.hdrLen.toNat
      (s.readBytes s.regs.fSrc.space 0 s.regs.fPlen.toNat)
    rw [length_readBytes] at hkept
    exact hkept.updRegs_respond _ _

/-! ## FMETA (R162) -/

/-- The state FMETA leaves. -/
def afterFmeta (s : State) : State :=
  ((if s.regs.gen = 2 then s
    else s.writeBytes .pa (s.regs.hdrLen.toNat + s.regs.fPlen.toNat) (metaTable s.regs)).updRegs
      fun r => { r with fstate := .metadataWritten }).respond 0

/-- A packet being built has one of the three generations (40_control.md R105 check 6). -/
theorem State.Inv.gen_ne_three {s : State} (h : s.Inv) (hn : s.regs.fstate ≠ .new) : s.regs.gen ≠ 3 :=
  (h.legal (h.regsInv.packet.configured hn)).generation

/-- FMETA behind FPAY: the table of a legacy generation fits the arena (20_memory.md R73). -/
theorem State.Inv.exec_fmeta {s : State} (h : s.Inv) (hf : s.regs.fstate = .payloadWritten) :
    Machine.exec .fmeta s = .next (afterFmeta s) := by
  have hn : s.regs.fstate ≠ .new := by simp [hf]
  have hpa := h.packet_le_pa hn
  show execFmeta s = _
  unfold execFmeta
  dsimp only
  rw [checked_pass (by simp [inState, hf]), afterFmeta]
  by_cases hg : s.regs.gen = 2
  · rw [if_neg (by simp [hg]), if_pos hg]
  · rw [tableLen, if_neg hg] at hpa
    rw [if_pos (gen_eq_zero_or_one hg (h.gen_ne_three hn)), if_neg hg, within_ok hpa]

theorem raises_fmeta {s : State} (hf : s.regs.fstate ≠ .payloadWritten) : Raises .fmeta s 0x12 .sequenceError 0 :=
  raises_of_inState rfl hf

/-- One entry read back after a write of 12-byte entries. -/
theorem readBytes_writeBytes_entries {f : Nat → List Byte} (hf : ∀ k, (f k).length = 12) (s : State) (sp : Space)
    (a : Nat) {n k : Nat} (hk : k < n) :
    (s.writeBytes sp a ((List.range n).flatMap f)).readBytes sp (a + 12 * k) 12 = f k := by
  have hentry := readBytes_eq (s := s.writeBytes sp a ((List.range n).flatMap f)) (sp := sp) (a := a + 12 * k)
    (bs := f k) fun j hj => ?_
  · rwa [hf k] at hentry
  · have hj12 : j < 12 := hf k ▸ hj
    have hlen : 12 * k + j < ((List.range n).flatMap f).length := by
      rw [flatMap_length_12 hf]
      omega
    rw [Nat.add_assoc, readByte_writeBytes_inside _ _ _ _ _ hlen, ← List.getD_eq_getElem _ 0,
      flatMap_getD_12 hf n hk hj12, List.getD_eq_getElem]

theorem leaves_afterFmeta (s : State) : Leaves s (afterFmeta s) { s.regs with fstate := .metadataWritten } 0 := by
  unfold afterFmeta
  split
  · exact ⟨rfl, rfl, rfl, rfl⟩
  · exact leaves_writeBytes_updRegs_respond ..

theorem afterFmeta_regs (s : State) : (afterFmeta s).regs = { s.regs with fstate := .metadataWritten } := by
  obtain ⟨-, -, hregs, -⟩ := leaves_afterFmeta s
  exact hregs

/-- Settles O50: each slot of the table read back, and nothing written in generation 2. -/
theorem fmetaWritesTheTable : Obligations.FmetaWritesTheTable := by
  intro s h
  refine ⟨raises_fmeta, fun hf => ⟨_, h.exec_fmeta hf, leaves_afterFmeta s, fun hg => ?_, fun hg => ?_⟩⟩
  · rw [afterFmeta, if_pos ((gen_eq_two_iff _).mpr hg)]
    exact fun sp a => by rw [respond_readByte, updRegs_readByte]
  · rw [afterFmeta, if_neg (mt (gen_eq_two_iff _).mp hg)]
    refine ⟨fun k hk => ?_, ?_⟩
    · rw [respond_readBytes, updRegs_readBytes]
      exact readBytes_writeBytes_entries (slot_length s.regs) s .pa _ hk
    · have hkept := keptOutside_writeBytes s .pa (s.regs.hdrLen.toNat + s.regs.fPlen.toNat) (metaTable s.regs)
      rw [metaTable_length] at hkept
      exact hkept.updRegs_respond _ _

/-! ## FDONE (R168) -/

/-- The state FDONE leaves. -/
def afterFdone (s : State) : State :=
  (s.updRegs fun r =>
    { r with
      pktLen := lengthWord (r.hdrLen.toNat + r.fPlen.toNat + tableLen r)
      fstate := .complete
      cvalid := false }).respond 0

theorem exec_fdone {s : State} (hf : s.regs.fstate = .metadataWritten) : exec .fdone s = .next (afterFdone s) :=
  checked_pass (by simp [inState, hf])

theorem raises_fdone {s : State} (hf : s.regs.fstate ≠ .metadataWritten) : Raises .fdone s 0x13 .sequenceError 0 :=
  raises_of_inState rfl hf

/-- The raw stream is no longer than the frame (40_control.md R106). -/
theorem State.Inv.plenRaw_le_size {s : State} (h : s.Inv) (hconf : s.regs.configured = true) :
    s.regs.plenRaw.toNat ≤ s.regs.frameW.toNat * s.regs.frameH.toNat * s.regs.channels := by
  have hd := h.derived hconf
  rw [hd.rawLength, hd.bitsPerPixel]
  exact packed_le _ fun c hc => (h.ebwAt_legal hconf hc).2

/-- PKT_LEN holds every length of a legacy packet: the one header that would leave no room, of generation 1 with 255
channels, needs a frame of 2^32 − 3345 samples, which is no multiple of 255 (00_scope.md R10). -/
theorem State.Inv.legacy_packet_lt {s : State} (h : s.Inv) (hn : s.regs.fstate ≠ .new) (hg : s.regs.gen ≠ 2) :
    s.regs.hdrLen.toNat + s.regs.fPlen.toNat + metaTableLen < 2 ^ 32 := by
  have hconf := h.regsInv.packet.configured hn
  have hl := h.latched hn
  obtain ⟨⟨-, hmax⟩, -⟩ := s.params.wf_iff.mp h.params
  have hraw := (hl.fPlen_le_plenRaw (mt hl.external.mpr hg)).trans (h.plenRaw_le_size hconf)
  have hsize := (h.legal hconf).size
  have hhdr := (h.derived hconf).headerLength.trans_le (headerLen_le s.regs)
  have hC := channels_lt s.regs
  rw [metaTableLen]
  by_cases h255 : s.regs.channels = 255
  · rw [h255] at hraw hsize hhdr
    omega
  · omega

/-- The length of a packet as a register holds it, where it can (log entry 11). -/
theorem State.Inv.packetLength_toNat {s : State} (h : s.Inv) (hn : s.regs.fstate ≠ .new)
    (hfit : s.regs.gen.toNat ≠ 2 ∨ s.regs.fPlen.toNat < 2 ^ 32 - 16) :
    (lengthWord (s.regs.hdrLen.toNat + s.regs.fPlen.toNat + tableLen s.regs)).toNat =
      s.regs.hdrLen.toNat + s.regs.fPlen.toNat + (if s.regs.gen.toNat = 2 then 0 else 3072) := by
  by_cases hg : s.regs.gen = 2
  · have hg2 := (gen_eq_two_iff _).mp hg
    have hhdr := (h.derived (h.regsInv.packet.configured hn)).headerLength
    rw [headerLen, if_neg (by simp [hg]), if_neg (by simp [hg])] at hhdr
    rw [tableLen, if_pos hg, if_pos hg2, lengthWord_toNat (by omega)]
  · rw [tableLen, if_neg hg, if_neg (mt (gen_eq_two_iff _).mpr hg), lengthWord_toNat (h.legacy_packet_lt hn hg),
      metaTableLen]

/-- Settles O51: FDONE changes three registers, and the length is a number of 32 bits. -/
theorem fdoneCompletesThePacket : Obligations.FdoneCompletesThePacket := by
  intro s h
  refine ⟨raises_fdone, fun hf => ⟨_, exec_fdone hf, fun sp a => ?_, ⟨rfl, rfl, rfl, rfl⟩, ?_⟩⟩
  · rw [afterFdone, respond_readByte, updRegs_readByte]
  · exact h.packetLength_toNat (by simp [hf])

/-! ## MPKT (R169) -/

/-- The state MPKT leaves. -/
def afterMpkt (ts : Word) (s : State) : State :=
  ((writeValues (s.writeBytes .ma 0 (le32 ts))).updRegs fun r =>
    { r with mTs := ts, mpktLen := lengthWord (8 + 12 * r.readings), mpktValid := true }).respond 0

/-- MPKT in a configured generation-2 block: MA holds an entry for every reading (20_memory.md R63). -/
theorem State.Inv.exec_mpkt {s : State} (h : s.Inv) (hconf : s.regs.configured = true) (hg : s.regs.gen = 2)
    (hi ts : Word) : Machine.exec (.mpkt hi ts) s = .next (afterMpkt ts s) := by
  have hM := (h.legal hconf).readings
  show execMpkt hi ts s = _
  rw [execMpkt, checked_pass (by simp [needsSetup, hconf, hg]), within_ok (by rw [capacity_ma]; omega), afterMpkt]

/-- MPKT needs SETUP and generation 2, and raises the same error where either is missing. -/
theorem raises_mpkt {s : State} (hno : s.regs.configured = false ∨ s.regs.gen ≠ 2) (hi ts : Word) :
    Raises (.mpkt hi ts) s 0x14 .sequenceError 0 := by
  refine raises_of_plain rfl ?_
  cases hconf : s.regs.configured with
  | false => simp [needsSetup, hconf]
  | true =>
    have hfails : decide (s.regs.gen ≠ 2) = true := decide_eq_true (hno.resolve_left (by simp [hconf]))
    simp only [firstFailing_cons, needsSetup, plain_fails, hconf, hfails, Bool.not_true, Bool.false_eq_true, if_false,
      if_true]

theorem leaves_afterMpkt (ts : Word) (s : State) :
    Leaves s (afterMpkt ts s)
      { s.regs with mTs := ts, mpktLen := BitVec.ofNat 32 (8 + 12 * s.regs.readings), mpktValid := true } 0 := by
  have hM : s.regs.readings < 512 := s.regs.metaCount.isLt
  refine ⟨?_, ?_, ?_, rfl⟩
  · rw [afterMpkt, respond_params, updRegs_params, writeValues_params, writeBytes_params]
  · rw [afterMpkt, respond_port, updRegs_port, writeValues_port, writeBytes_port]
  · rw [afterMpkt, respond_regs, updRegs_regs, writeValues_regs, writeBytes_regs, lengthWord_eq (by omega)]

/-- A byte that is no value's is the timestamp's, or that of the state before. -/
theorem readByte_afterMpkt_outside (ts : Word) (s : State) {sp : Space} {a : Nat}
    (ha : sp = .ma → ∀ k < s.regs.readings, a < 16 + 12 * k ∨ 16 + 12 * k + 4 ≤ a) :
    (afterMpkt ts s).readByte sp a = (s.writeBytes .ma 0 (le32 ts)).readByte sp a := by
  rw [afterMpkt, respond_readByte, updRegs_readByte, writeValues_eq, writeBytes_regs,
    readByte_writeSlots_outside _ _ _ _ _ _ _ ha]

theorem readBytes_afterMpkt_timestamp (ts : Word) (s : State) : (afterMpkt ts s).readBytes .ma 0 4 = le32 ts := by
  rw [readBytes_congr fun i hi => readByte_afterMpkt_outside ts s fun _ k _ => .inl (by omega)]
  exact readBytes_writeBytes_same s .ma 0 (le32 ts)

theorem readBytes_afterMpkt_value (ts : Word) (s : State) {k : Nat} (hk : k < s.regs.readings) :
    (afterMpkt ts s).readBytes .ma (8 + 12 * k + 8) 4 = le32 (s.regs.mvalAt k) := by
  refine readBytes_eq (bs := le32 (s.regs.mvalAt k)) fun j hj => ?_
  rw [afterMpkt, respond_readByte, updRegs_readByte, writeValues_eq, writeBytes_regs,
    show 8 + 12 * k + 8 + j = 16 + 12 * k + j by omega,
    readByte_writeSlots_inside _ _ _ (by simp) _ _ hk hj, List.getD_eq_getElem]

/-- Outside the timestamp and the values MPKT writes nothing; the entry count and the names stand there. -/
theorem keptOutside_afterMpkt (ts : Word) (s : State) :
    KeptOutside s (afterMpkt ts s) (fun sp a => sp = .ma ∧ (a < 4
      ∨ ∃ k < s.regs.readings, 8 + 12 * k + 8 ≤ a ∧ a < 8 + 12 * k + 12)) := by
  intro sp a hout
  rw [readByte_afterMpkt_outside ts s, readByte_writeBytes, if_neg]
  · rintro ⟨hsp, -, hhi⟩
    rw [le32_length] at hhi
    exact hout ⟨hsp, .inl (by omega)⟩
  · intro hsp k hk
    by_contra hin
    exact hout ⟨hsp, .inr ⟨k, hk, by omega, by omega⟩⟩

/-- Settles O52: MPKT before SETUP, outside generation 2, and in it. -/
theorem mpktBuildsTheMetadataPacket : Obligations.MpktBuildsTheMetadataPacket := by
  intro s hi ts h
  refine ⟨fun hconf => raises_mpkt (.inl hconf) hi ts,
    fun hg => raises_mpkt (.inr (mt (gen_eq_two_iff _).mp hg)) hi ts, fun hconf hg => ?_⟩
  exact ⟨_, h.exec_mpkt hconf ((gen_eq_two_iff _).mpr hg) hi ts, leaves_afterMpkt ts s,
    readBytes_afterMpkt_timestamp ts s, fun k hk => readBytes_afterMpkt_value ts s hk, keptOutside_afterMpkt ts s⟩

end Sys2Proof.Machine

/-! The framer's chain (43_framer.md R150): which commands move FSTATE, and to where. -/

namespace Sys2Proof.Machine

open Sys2Proof.Spec

theorem FState.code_injective : Function.Injective FState.code := by
  intro a b
  cases a <;> cases b <;> decide

/-- STATUS shows FSTATE in bits 6 to 4 (10_state.md R35). -/
theorem fstate_eq_of_status {r r' : Regs} (h : r'.read .status = r.read .status) : r'.fstate = r.fstate := by
  have hnum := congrArg BitVec.toNat h
  have hconf := r.configured.toNat_le
  have hconf' := r'.configured.toNat_le
  have hcode : r.fstate.code.toNat < 8 := r.fstate.code.isLt
  have hcode' : r'.fstate.code.toNat < 8 := r'.fstate.code.isLt
  rw [status_toNat, status_toNat] at hnum
  exact FState.code_injective (BitVec.eq_of_toNat_eq (by omega))

/-- What the effect of a command does to FSTATE (R150, R222): the framer's own commands, SETUP and SRESET move it, each
as its rule says, and no other command does. -/
theorem EffectOf.fstate {i : Instr} {s t : State} (he : EffectOf i s t) :
    t.regs.fstate = s.regs.fstate
      ∨ (i.opcode.toNat = 0x10 ∧ t.regs.fstate = .headerWritten)
      ∨ (i = .fpay ∧ s.regs.fstate = .headerWritten ∧ t.regs.fstate = .payloadWritten)
      ∨ (i = .fmeta ∧ s.regs.fstate = .payloadWritten ∧ t.regs.fstate = .metadataWritten)
      ∨ (i = .fdone ∧ s.regs.fstate = .metadataWritten ∧ t.regs.fstate = .complete)
      ∨ ((i = .setup ∨ i = .sreset) ∧ t.regs.fstate = .new) := by
  by_cases hreset : i = .sreset
  · subst hreset
    obtain rfl := he
    exact .inr (.inr (.inr (.inr (.inr ⟨.inr rfl, rfl⟩))))
  by_cases hw : i.opcode.toNat ∈ writersOf .status
  · cases i with
    | setup =>
      obtain ⟨-, rfl⟩ := he
      refine .inr (.inr (.inr (.inr (.inr ⟨.inl rfl, ?_⟩))))
      rw [respond_regs, writeConstants_regs]
      rfl
    | fhdr hi ts =>
      obtain ⟨-, src, f, p, -, rfl⟩ := he
      exact .inr (.inl ⟨rfl, rfl⟩)
    | fpay =>
      obtain ⟨hf, -, -, rfl⟩ := he
      exact .inr (.inr (.inl ⟨rfl, hf, rfl⟩))
    | fmeta =>
      obtain ⟨hf, ⟨-, -, rfl⟩ | ⟨-, rfl⟩⟩ := he <;> exact .inr (.inr (.inr (.inl ⟨rfl, hf, rfl⟩)))
    | fdone =>
      obtain ⟨hf, rfl⟩ := he
      exact .inr (.inr (.inr (.inr (.inl ⟨rfl, hf, rfl⟩))))
    | mpkt hi ts =>
      obtain ⟨-, -, -, rfl⟩ := he
      left
      rw [respond_regs, updRegs_regs, writeValues_regs, writeBytes_regs]
    | _ => simp [Instr.opcode, writersOf] at hw
  · have hown : ∀ r v, i = .wrreg r v → regOf r ≠ some .status := by
      rintro r v rfl hr
      exact (he.wrreg_target hr).1 rfl
    exact .inl (fstate_eq_of_status (he.read_other nofun hreset hown hw))

/-- Settles O19: an error leaves FSTATE and an effect moves it along the chain; each arrow is taken by its command. -/
theorem framerMovesAlongItsChain : Obligations.FramerMovesAlongItsChain := by
  refine ⟨fun i s t hexec hne => ?_, fun s hi ts src f p hconf h => ⟨_, exec_fhdr_of_chooses hconf h hi ts, rfl⟩,
    fun s h hf => ⟨_, h.exec_fpay hf, rfl⟩, fun s h hf => ⟨_, h.exec_fmeta hf, congrArg _ (afterFmeta_regs s)⟩,
    fun s _ hf => ⟨_, exec_fdone hf, rfl⟩, fun s _ hpass => ?_, fun s => ⟨_, rfl, rfl⟩, fun s => raises_fpay,
    fun s => raises_fmeta, fun s => raises_fdone⟩
  · rcases exec_next hexec with ⟨e, info, -, -, -, rfl⟩ | heff
    · exact absurd (recordError_fstate ..) hne
    · exact heff.fstate.resolve_left hne
  · refine ⟨_, checked_pass ((firstFailing_setupChecks_eq_none_iff s).mpr hpass), ?_⟩
    rw [respond_regs, writeConstants_regs]
    rfl

end Sys2Proof.Machine

/-! The whole packets (43_framer.md R152, R167, R170): header, payload and table stand one behind the other in PA, and the
metadata packet in MA. -/

namespace Sys2Proof.Machine

open Sys2Proof.Spec

/-! ## Ranges that grow -/

/-- A write right behind a range extends it. -/
theorem readBytes_writeBytes_append (s : State) (sp : Space) (n : Nat) (bs : List Byte) :
    (s.writeBytes sp n bs).readBytes sp 0 (n + bs.length) = s.readBytes sp 0 n ++ bs := by
  rw [readBytes_append, Nat.zero_add, readBytes_writeBytes_same,
    readBytes_writeBytes_disjoint _ _ _ _ _ _ _ (.inr (.inl (Nat.zero_add n).le))]

/-- A write at address 0 replaces the first bytes of a range. -/
theorem readBytes_writeBytes_front (s : State) (sp : Space) (n : Nat) (bs : List Byte) :
    (s.writeBytes sp 0 bs).readBytes sp 0 (bs.length + n) = bs ++ s.readBytes sp bs.length n := by
  rw [readBytes_append, readBytes_writeBytes_same, Nat.zero_add,
    readBytes_writeBytes_disjoint _ _ _ _ _ _ _ (.inr (.inr (Nat.zero_add _).le))]

/-- Entries of 12 bytes that stand one behind the other. -/
theorem readBytes_entries {f : Nat → List Byte} {s : State} {sp : Space} {a n : Nat}
    (h : ∀ k < n, s.readBytes sp (a + 12 * k) 12 = f k) : s.readBytes sp a (12 * n) = (List.range n).flatMap f := by
  induction n with
  | zero => rfl
  | succ n ih =>
    rw [Nat.mul_succ, readBytes_append, ih fun k hk => h k (by omega), h n (by omega), List.range_succ,
      List.flatMap_append, List.flatMap_singleton]

/-! ## The parts of a packet -/

/-- The header of the configured generation, for a payload of p bytes (R151, R152). -/
def packetHeader (r : Regs) (t : Word) (f : Bool) (p : Word) : List Byte :=
  if r.gen = 0 then le32 t ++ hdr r ++ le32 p
  else if r.gen = 1 then le32 t ++ hdr r ++ [flagByte f] ++ le32 p
  else le32 t ++ (le32 r.frameW ++ le32 r.frameH) ++ le32 p

/-- What stands behind the payload: the metadata table of a legacy generation (R153). -/
def packetTable (r : Regs) : List Byte := if r.gen = 2 then [] else metaTable r

theorem packetHeader_gen0 {r : Regs} (hg : r.gen = 0) (t : Word) (f : Bool) (p : Word) :
    packetHeader r t f p = le32 t ++ hdr r ++ le32 p := if_pos hg

theorem packetHeader_gen1 {r : Regs} (hg : r.gen = 1) (t : Word) (f : Bool) (p : Word) :
    packetHeader r t f p = le32 t ++ hdr r ++ [flagByte f] ++ le32 p := by
  rw [packetHeader, if_neg (by simp [hg]), if_pos hg]

theorem packetHeader_gen2 {r : Regs} (hg : r.gen = 2) (t : Word) (f : Bool) (p : Word) :
    packetHeader r t f p = le32 t ++ (le32 r.frameW ++ le32 r.frameH) ++ le32 p := by
  rw [packetHeader, if_neg (by simp [hg]), if_neg (by simp [hg])]

theorem packetTable_length (r : Regs) : (packetTable r).length = if r.gen.toNat = 2 then 0 else 3072 := by
  rw [packetTable, apply_ite List.length, metaTable_length, List.length_nil]
  simp only [gen_eq_two_iff]

theorem le32Nat_toNat (p : Word) : le32Nat p.toNat = le32 p := by
  rw [le32Nat, BitVec.ofNat_toNat, BitVec.setWidth_eq]

/-- The packet of each generation from its parts. -/
theorem wholePacket_eq {r : Regs} (h3 : r.gen ≠ 3) (t : Word) (f : Bool) {p : Word} {payload : List Byte}
    (hlen : payload.length = p.toNat) :
    wholePacket r t f payload = packetHeader r t f p ++ payload ++ packetTable r := by
  by_cases h2 : r.gen = 2
  · simp [wholePacket, packetHeader, packetTable, videoPacket2, h2, hlen, le32Nat_toNat]
  · rcases gen_eq_zero_or_one h2 h3 with hg | hg
    · simp [wholePacket, packetHeader, packetTable, packet0, hg, hlen, le32Nat_toNat]
    · simp [wholePacket, packetHeader, packetTable, packet1, hg, hlen, le32Nat_toNat]

/-! ## The four commands one behind the other (R167) -/

/-- FHDR completes the header around the constant fields SETUP left (R156, R157). -/
theorem State.ConstantHeader.readBytes_writeHeader {s : State} (hh : s.ConstantHeader)
    (hconf : s.regs.configured = true) (h3 : s.regs.gen ≠ 3) (t : Word) (f : Bool) (p : Word) :
    (writeHeader t f p s).readBytes .pa 0 (headerLen s.regs) = packetHeader s.regs t f p := by
  have hs := hh hconf
  have front : ∀ n, (s.writeBytes .pa 0 (le32 t)).readBytes .pa 0 (4 + n) = le32 t ++ s.readBytes .pa 4 n := fun n =>
    readBytes_writeBytes_front s .pa n (le32 t)
  have behind : ∀ (u : State) (n : Nat), (u.writeBytes .pa n (le32 p)).readBytes .pa 0 (n + 4)
      = u.readBytes .pa 0 n ++ le32 p := fun u n => readBytes_writeBytes_append u .pa n (le32 p)
  by_cases h2 : s.regs.gen = 2
  · rw [if_pos h2] at hs
    have hlen : headerLen s.regs = 4 + 8 + 4 := by simp [headerLen, h2]
    rw [hlen, packetHeader_gen2 h2, writeHeader_gen2 t f p h2, behind _ (4 + 8), front, hs.1]
  · rw [if_neg h2] at hs
    rcases gen_eq_zero_or_one h2 h3 with hg | hg
    · have hlen : headerLen s.regs = 4 + (9 + s.regs.channels) + 4 := by
        rw [headerLen, if_pos hg]
        omega
      rw [hlen, packetHeader_gen0 hg, writeHeader_gen0 t f p hg,
        show 13 + s.regs.channels = 4 + (9 + s.regs.channels) by omega, behind, front, hs]
    · have hlen : headerLen s.regs = 4 + (9 + s.regs.channels) + [flagByte f].length + 4 := by
        rw [headerLen, if_neg (by simp [hg]), if_pos hg, List.length_singleton]
        omega
      rw [hlen, packetHeader_gen1 hg, writeHeader_gen1 t f p hg,
        show 14 + s.regs.channels = 4 + (9 + s.regs.channels) + [flagByte f].length by simp; omega,
        show 13 + s.regs.channels = 4 + (9 + s.regs.channels) by omega, behind, readBytes_writeBytes_append, front, hs]

/-- FPAY extends the header by the payload (R161). -/
theorem readBytes_afterFpay (s : State) :
    (afterFpay s).readBytes .pa 0 (s.regs.hdrLen.toNat + s.regs.fPlen.toNat)
      = s.readBytes .pa 0 s.regs.hdrLen.toNat ++ s.readBytes s.regs.fSrc.space 0 s.regs.fPlen.toNat := by
  have happend := readBytes_writeBytes_append s .pa s.regs.hdrLen.toNat
    (s.readBytes s.regs.fSrc.space 0 s.regs.fPlen.toNat)
  rwa [length_readBytes] at happend

/-- FMETA extends header and payload by the table, if the generation has one (R162). -/
theorem readBytes_afterFmeta (s : State) :
    (afterFmeta s).readBytes .pa 0 (s.regs.hdrLen.toNat + s.regs.fPlen.toNat + (packetTable s.regs).length)
      = s.readBytes .pa 0 (s.regs.hdrLen.toNat + s.regs.fPlen.toNat) ++ packetTable s.regs := by
  rw [afterFmeta, respond_readBytes, updRegs_readBytes, packetTable]
  split
  · rw [List.length_nil, Nat.add_zero, List.append_nil]
  · exact readBytes_writeBytes_append ..

/-- FHDR leaves the payload's memory alone (R157). -/
theorem readBytes_writeHeader_source (t : Word) (f : Bool) (p : Word) (s : State) (src : FSrc) (n : Nat) :
    (writeHeader t f p s).readBytes src.space 0 n = s.readBytes src.space 0 n :=
  readBytes_congr fun _ _ => readByte_of_mem (writeHeader_mem_other t f p s (by cases src <;> decide)) _

/-- What FHDR leaves for the commands behind it: the header, and the payload where it was. -/
theorem State.Inv.fhdr_leaves_header {s : State} (h : s.Inv) (hh : s.ConstantHeader) (hconf : s.regs.configured = true)
    {src : FSrc} {f : Bool} {p : Word} (hchoose : Chooses s.regs src f p) (hi ts : Word) :
    ∃ t, Machine.exec (.fhdr hi ts) s = .next t ∧ t.Inv ∧ t.regs = beginPacket ts src f p s.regs
      ∧ t.readBytes .pa 0 s.regs.hdrLen.toNat = packetHeader s.regs ts f p
      ∧ t.readBytes src.space 0 p.toNat = s.readBytes src.space 0 p.toNat := by
  have hexec := exec_fhdr_of_chooses hconf hchoose hi ts
  obtain ⟨-, -, hregs, -⟩ := leaves_beginPacket s ts src f p
  refine ⟨_, hexec, h.exec hexec, hregs, ?_, ?_⟩
  · rw [respond_readBytes, updRegs_readBytes, (h.derived hconf).headerLength,
      hh.readBytes_writeHeader hconf (h.legal hconf).generation]
  · rw [respond_readBytes, updRegs_readBytes, readBytes_writeHeader_source]

/-- The state the commands behind FHDR leave. -/
def afterFrame (s : State) : State := afterFdone (afterFmeta (afterFpay s))

/-- Behind FHDR each command finds FSTATE as it needs it (R150). -/
theorem State.Inv.perform_behind_fhdr {s : State} (h : s.Inv) (hf : s.regs.fstate = .headerWritten) :
    perform [.fpay, .fmeta, .fdone] s = .next (afterFrame s) := by
  have hfpay := h.exec_fpay hf
  have hfmeta := (h.exec hfpay).exec_fmeta (congrArg Regs.fstate (afterFpay_regs s))
  have hfdone := exec_fdone (congrArg Regs.fstate (afterFmeta_regs (afterFpay s)))
  rw [perform_cons hfpay, perform_cons hfmeta, perform_cons hfdone, perform, afterFrame]

theorem afterFrame_regs (s : State) :
    (afterFrame s).regs =
      { s.regs with
        pktLen := lengthWord (s.regs.hdrLen.toNat + s.regs.fPlen.toNat + tableLen s.regs)
        fstate := .complete
        cvalid := false } := by
  rw [afterFrame, afterFdone, respond_regs, updRegs_regs, afterFmeta_regs, afterFpay_regs]
  rfl

/-- Header, payload and table stand one behind the other. -/
theorem readBytes_afterFrame (s : State) :
    (afterFrame s).readBytes .pa 0 (s.regs.hdrLen.toNat + s.regs.fPlen.toNat + (packetTable s.regs).length)
      = s.readBytes .pa 0 s.regs.hdrLen.toNat ++ s.readBytes s.regs.fSrc.space 0 s.regs.fPlen.toNat
        ++ packetTable s.regs := by
  have htable := readBytes_afterFmeta (afterFpay s)
  rw [afterFpay_regs] at htable
  rw [afterFrame, afterFdone, respond_readBytes, updRegs_readBytes, ← readBytes_afterFpay]
  exact htable

/-- Settles O54: the four commands run one behind the other, and each extends the range of PA that holds the packet. -/
theorem frameBuildsTheWholePacket : Obligations.FrameBuildsTheWholePacket := by
  intro s T src f p h hh hconf hchoose
  obtain ⟨t, hfhdr, ht, hregs, hheader, hpayload⟩ :=
    h.fhdr_leaves_header hh hconf hchoose (timestampWords T).1 (timestampWords T).2
  have hf : t.regs.fstate = .headerWritten := by rw [hregs, beginPacket]
  have hlength := ht.packetLength_toNat (by simp [hf])
  have hframe := readBytes_afterFrame t
  rw [hregs] at hlength hframe
  have hparts : (afterFrame t).readBytes .pa 0 (s.regs.hdrLen.toNat + p.toNat + (packetTable s.regs).length)
      = t.readBytes .pa 0 s.regs.hdrLen.toNat ++ t.readBytes src.space 0 p.toNat ++ packetTable s.regs := hframe
  have hpacket : (afterFrame t).readBytes .pa 0
      (s.regs.hdrLen.toNat + p.toNat + (if s.regs.gen.toNat = 2 then 0 else 3072))
        = wholePacket s.regs (BitVec.ofNat 32 (T % 2 ^ 32)) f (s.readBytes src.space 0 p.toNat) := by
    rw [← packetTable_length, hparts, hheader, hpayload,
      wholePacket_eq (h.legal hconf).generation _ f (length_readBytes ..), timestampWords]
  refine ⟨afterFrame t, ?_, ?_, hpacket, fun hfit => ?_, ?_, ?_, ?_⟩
  · rw [pseudoFrame, perform_cons hfhdr, ht.perform_behind_fhdr hf]
  · rw [afterFrame_regs]
  · rw [State.packet, afterFrame_regs, if_pos rfl, hregs, ← hpacket]
    exact congrArg (fun n => some ((afterFrame t).readBytes .pa 0 n)) (hlength hfit)
  · rw [afterFrame_regs]
  · rw [afterFrame_regs, hregs, beginPacket]
  · rw [afterFrame_regs, hregs, beginPacket]

/-! ## The metadata packet (R170) -/

/-- MPKT completes the entries whose names SETUP left (R156, R169). -/
theorem State.ConstantHeader.readBytes_afterMpkt {s : State} (hh : s.ConstantHeader)
    (hconf : s.regs.configured = true) (hg : s.regs.gen = 2) (ts : Word) :
    (afterMpkt ts s).readBytes .ma 0 (8 + 12 * s.regs.readings) = metaPacket2 s.regs ts := by
  have hs := hh hconf
  rw [if_pos hg] at hs
  obtain ⟨-, hcount, hnames⟩ := hs
  have kept : ∀ {a n : Nat}, (∀ i < n, 4 ≤ a + i
        ∧ ∀ k < s.regs.readings, ¬ (8 + 12 * k + 8 ≤ a + i ∧ a + i < 8 + 12 * k + 12)) →
      (afterMpkt ts s).readBytes .ma a n = s.readBytes .ma a n := fun hout =>
    readBytes_congr fun i hi => keptOutside_afterMpkt ts s .ma _ fun ⟨_, hin⟩ => by
      obtain ⟨hlo, hvalues⟩ := hout i hi
      rcases hin with hts | ⟨k, hk, hvalue⟩
      · omega
      · exact hvalues k hk hvalue
  have hentries : (afterMpkt ts s).readBytes .ma 8 (12 * s.regs.readings)
      = (List.range s.regs.readings).flatMap (entry s.regs) := readBytes_entries fun k hk => by
    rw [readBytes_append _ _ _ 8 4, readBytes_afterMpkt_value ts s hk, kept fun i hi => ⟨by omega, fun k' _ => by omega⟩,
      hnames k hk, entry]
  rw [readBytes_append, readBytes_append _ _ _ 4 4, readBytes_afterMpkt_timestamp, hentries,
    kept fun i hi => ⟨by omega, fun k _ => by omega⟩, hcount, metaPacket2]

/-- Settles O55: MPKT sets MPKT_VALID and MPKT_LEN, and MA holds the packet. -/
theorem mpktLeavesTheWholeMetadataPacket : Obligations.MpktLeavesTheWholeMetadataPacket := by
  intro s hi ts h hh hconf hg
  have hgen := (gen_eq_two_iff _).mpr hg
  have hM : s.regs.readings < 512 := s.regs.metaCount.isLt
  obtain ⟨-, -, hregs, -⟩ := leaves_afterMpkt ts s
  refine ⟨_, h.exec_mpkt hconf hgen hi ts, ?_⟩
  rw [State.metaPacket, hregs, if_pos rfl, BitVec.toNat_ofNat, Nat.mod_eq_of_lt (by omega),
    hh.readBytes_afterMpkt hconf hgen]

end Sys2Proof.Machine

/-! The reference functions (46_reference_functions.md R180 to R186): Unpack against Pack and against other buffers,
Dequant against Quant, and the two ways from IFB to the packed frame in PB. -/

namespace Sys2Proof.Machine

open Sys2Proof.Spec

/-! ## Unpack (R181, R183) -/

section Unpack

variable {b : Nat → Nat} {h w c : Nat}

/-- Unpack refuses a buffer shorter than the shape and widths imply, and no other (R181). -/
theorem unpack_eq_truncatedInput_iff (bytes : List Byte) :
    unpack bytes b h w c = .truncatedInput ↔ bytes.length < ceilDiv8 (h * w * widthSum b c) := by
  unfold unpack
  split <;> simp [*]

theorem unpack_of_le {bytes : List Byte} (hlen : ceilDiv8 (h * w * widthSum b c) ≤ bytes.length) :
    unpack bytes b h w c = .samples (unpackFrom b c bytes 0 0 (h * w * c)) :=
  if_neg (not_lt.mpr hlen)

/-- Unpack reads back every frame whose samples fit their widths: the packed bytes hold each bit of the frame's stream,
and the stream each sample (R183). -/
theorem unpack_pack {q : List Byte} (hq : q.length = h * w * c)
    (hfit : ∀ i (hi : i < q.length), q[i].toNat < 2 ^ b (i % c)) :
    unpack (pack b c q) b h w c = .samples (q.map BitVec.toNat) := by
  have hbits : ∀ t < (frameBits b c q).length,
      streamBit (pack b c q) t = (frameBits b c q).getD t false :=
    (packedBitsAreTheStream (frameBits b c q)).1
  have hloop : unpackFrom b c (pack b c q) 0 0 q.length = q.map BitVec.toNat :=
    unpackFrom_eq q 0 [] (frameBits_eq b c q) hbits (by simpa only [Nat.zero_add] using hfit)
  rw [unpack_of_le (pack_length b c (h * w) q hq).ge, ← hq, hloop]

/-- A quantized frame fits its widths: a frame with a sample has a channel (R121, R124). -/
theorem quantFrame_lt (hb : ∀ k < c, 1 ≤ b k ∧ b k ≤ 8) {f : List Byte} (hf : f.length = h * w * c) (i : Nat)
    (hi : i < (quantFrame b c f).length) : (quantFrame b c f)[i].toNat < 2 ^ b (i % c) := by
  have hc : 0 < c := Nat.pos_of_ne_zero fun hzero => by simp [hf, hzero] at hi
  obtain ⟨h1, h8⟩ := hb (i % c) (Nat.mod_lt i hc)
  rw [quantFrame_getElem]
  exact quant_lt h1 h8 _

end Unpack

/-- Settles O46: the law for frames that fit, of which the quantized frames are an instance. -/
theorem unpackInvertsPack : Obligations.UnpackInvertsPack := by
  intro b h w c hb
  refine ⟨fun q hq hfit => unpack_pack hq fun i hi => ?_, fun f hf => ?_⟩
  · rw [← List.getD_eq_getElem q 0 hi]
    exact hfit i hi
  · exact unpack_pack ((quantFrame_length b c f).trans hf) (quantFrame_lt hb hf)

/-- Settles O47: the loop reads the bits below the stream's length, which are those of all its samples. -/
theorem unpackReadsOnlyTheStream : Obligations.UnpackReadsOnlyTheStream := by
  intro b h w c bytes _
  refine ⟨unpack_eq_truncatedInput_iff bytes, fun other hbytes hother hagree => ?_⟩
  rw [unpack_of_le hbytes, unpack_of_le hother]
  refine congrArg Unpacked.samples (unpackFrom_congr _ 0 0 fun t _ ht => hagree t ?_)
  simpa only [Nat.zero_add, sum_periodic] using ht

/-! ## Dequant (R182, R186) -/

/-- Quantizing and back clears the 8 − b low bits (R182). -/
theorem dequant_quant {b : Nat} (h1 : 1 ≤ b) (h8 : b ≤ 8) (x : Byte) :
    dequant (quant x b).toNat b = x.toNat / 2 ^ (8 - b) * 2 ^ (8 - b) := by
  rw [dequant, Nat.shiftLeft_eq, quant_toNat h1 h8]

/-- Settles O35: the multiple of 2^(8−b) below a sample misses it by the remainder. -/
theorem quantErrorIsBounded : Obligations.QuantErrorIsBounded := by
  intro x b h1 h8
  have hrem : x.toNat - x.toNat / 2 ^ (8 - b) * 2 ^ (8 - b) = x.toNat % 2 ^ (8 - b) := by
    rw [Nat.mul_comm, Nat.mod_eq_sub]
  rw [dequant_quant h1 h8, hrem]
  exact ⟨Nat.div_mul_le_self .., rfl, Nat.le_sub_one_of_lt (Nat.mod_lt _ (by positivity))⟩

/-! ## QUANT; PACK and QPACK (R184, R185) -/

/-- The block after QUANT in a configured block. -/
def afterQuant (s : State) : State := (s.writeBytes .qb 0 (quantizedInput s)).respond 0

theorem State.Inv.exec_quant_eq {s : State} (h : s.Inv) (hconf : s.regs.configured = true) :
    Machine.exec .quant s = .next (afterQuant s) := h.exec_quant hconf

@[simp] theorem afterQuant_regs (s : State) : (afterQuant s).regs = s.regs := by simp [afterQuant]

theorem readByte_afterQuant_other (s : State) {sp : Space} (hsp : sp ≠ .qb) (a : Nat) :
    (afterQuant s).readByte sp a = s.readByte sp a := by
  rw [afterQuant, respond_readByte, readByte_writeBytes_other s _ _ _ hsp]

theorem readBytes_afterQuant (s : State) : (afterQuant s).readBytes .qb 0 s.regs.nsamp.toNat = quantizedInput s := by
  rw [afterQuant, respond_readBytes, ← quantizedInput_length s, readBytes_writeBytes_same]

/-- Packing what QUANT left is packing the input quantized on the way (R184). -/
theorem packedFrame_afterQuant (s : State) : packedFrame (afterQuant s) = fusedFrame s := by
  rw [packedFrame, fusedFrame, afterQuant_regs, readBytes_afterQuant]

/-- Every sample QUANT left fits the width of its channel (R185). -/
theorem State.Inv.readByte_afterQuant_lt {s : State} (h : s.Inv) (hconf : s.regs.configured = true) {i : Nat}
    (hi : i < s.regs.nsamp.toNat) :
    ((afterQuant s).readByte .qb i).toNat < 2 ^ s.regs.ebwAt (i % s.regs.chanC.toNat) := by
  have hlen : i < (quantizedInput s).length := by rwa [quantizedInput_length]
  have hread := readByte_writeBytes_inside s .qb 0 i (quantizedInput s) hlen
  obtain ⟨h1, h8⟩ := h.ebwAt_legal hconf (h.mod_channels_lt hconf i)
  rw [Nat.zero_add, quantizedInput_getElem] at hread
  rw [afterQuant, respond_readByte, hread]
  exact quant_lt h1 h8 _

/-- After QUANT no sample fails PACK's check, so PACK leaves the stream QPACK leaves (R184, R185). -/
theorem State.Inv.exec_pack_afterQuant {s : State} (h : s.Inv) (hconf : s.regs.configured = true) :
    Machine.exec .pack (afterQuant s) = .next ((Machine.leaveBitstream (afterQuant s) (fusedFrame s)).respond 0) := by
  have hfits : sampleTooWide (afterQuant s) = false := by
    rw [← Bool.not_eq_true, sampleTooWide_iff, afterQuant_regs]
    rintro ⟨i, hi, hwide⟩
    exact hwide.not_gt (h.readByte_afterQuant_lt hconf hi)
  rw [(h.exec (h.exec_quant_eq hconf)).exec_pack (by rwa [afterQuant_regs]), checked_pass (by simp [hfits]),
    packedFrame_afterQuant]

/-- The stream QPACK packs has the configured raw length (40_control.md R106). -/
theorem State.Inv.fusedFrame_length {s : State} (h : s.Inv) (hconf : s.regs.configured = true) :
    (fusedFrame s).length = s.regs.plenRaw.toNat :=
  (h.derived hconf).pack_length (quantizedInput_length s)

/-- Settles O36: QUANT leaves samples that fit, and PACK packs them. -/
theorem quantizedFrameIsInRange : Obligations.QuantizedFrameIsInRange := by
  intro s t h hconf hquant
  obtain rfl : afterQuant s = t := by
    rw [h.exec_quant_eq hconf] at hquant
    injection hquant
  obtain ⟨u, hpack, hleaves, hstream, -⟩ := exec_leaves_stream (s := afterQuant s)
    (by rw [afterQuant_regs, h.fusedFrame_length hconf]) (h.exec_pack_afterQuant hconf)
  refine ⟨fun i hi => h.readByte_afterQuant_lt hconf hi, u, hpack, hleaves, ?_⟩
  rw [hstream, ← packedFrame_afterQuant]
  rfl

/-- Where two blocks read alike they read alike after the same stream is left in their PB. -/
theorem readByte_leaveBitstream_congr {s t : State} {sp : Space} {a : Nat} (hread : s.readByte sp a = t.readByte sp a)
    (stream : List Byte) : (leaveBitstream s stream).readByte sp a = (leaveBitstream t stream).readByte sp a := by
  simp only [leaveBitstream, updRegs_readByte, readByte_writeBytes, hread]

/-- Settles O42: both ways leave the same stream, and only QUANT writes QB. -/
theorem fusedPathEqualsTwoStages : Obligations.FusedPathEqualsTwoStages := by
  intro s h hconf
  refine ⟨(leaveBitstream (afterQuant s) (fusedFrame s)).respond 0, _, ?_, h.exec_qpack hconf, ?_, rfl,
    fun sp a hsp => ?_, fun a => ?_, ?_⟩
  · rw [perform_cons (h.exec_quant_eq hconf), perform_cons (h.exec_pack_afterQuant hconf), perform]
  · simp
  · rw [respond_readByte, respond_readByte]
    exact readByte_leaveBitstream_congr (readByte_afterQuant_other s hsp a).symm _
  · rw [respond_readByte]
    exact keptOutside_leaveBitstream s _ .qb a fun hin => by cases hin.1
  · rw [respond_readBytes, ← h.fusedFrame_length hconf, readBytes_leaveBitstream]
    rfl

end Sys2Proof.Machine

/-! The error record (60_exceptions.md R200, R201, R206, R207): a command goes the same way whatever the record holds.
It raises one of the errors its rule lists, or leaves the record as it was. -/

namespace Sys2Proof.Machine

open Sys2Proof.Spec

/-! ## Registers that share their error record -/

/-- The four fields of ERR read alike (10_state.md R41). -/
def Regs.SameRecord (r r' : Regs) : Prop :=
  r'.errCode = r.errCode ∧ r'.errOp = r.errOp ∧ r'.errInfo = r.errInfo ∧ r'.errMore = r.errMore

theorem Regs.SameRecord.refl (r : Regs) : r.SameRecord r := ⟨rfl, rfl, rfl, rfl⟩

theorem Regs.SameRecord.of_eq {r r' : Regs} (h : r' = r) : r.SameRecord r' := h ▸ .refl r

/-- WRREG writes no field of ERR, which is of class RO (10_state.md R42). -/
theorem sameRecord_write (r : Regs) (g : Reg) (v : Word) : r.SameRecord (r.write g v) := by
  cases g <;> exact ⟨rfl, rfl, rfl, rfl⟩

theorem sameRecord_writeReg (r v : Word) (s : State) : s.regs.SameRecord (writeReg r v s).regs := by
  unfold writeReg
  split
  · exact .refl _
  · exact sameRecord_write ..

theorem sameRecord_writeBytes (s : State) (sp : Space) (a : Nat) (bs : List Byte) :
    s.regs.SameRecord (s.writeBytes sp a bs).regs := .of_eq (writeBytes_regs ..)

theorem sameRecord_setup (s : State) : s.regs.SameRecord (writeConstants (s.updRegs configure)).regs := by
  rw [writeConstants_regs]
  exact ⟨rfl, rfl, rfl, rfl⟩

theorem sameRecord_leaveBitstream (s : State) (stream : List Byte) :
    s.regs.SameRecord (leaveBitstream s stream).regs := by
  rw [leaveBitstream_regs]
  exact ⟨rfl, rfl, rfl, rfl⟩

theorem sameRecord_pushBits (bits : List Bool) (s : State) : s.regs.SameRecord (pushBits bits s).regs := by
  rw [pushBits_regs]
  exact ⟨rfl, rfl, rfl, rfl⟩

theorem sameRecord_flush (s : State) : s.regs.SameRecord (flush s).regs := by
  rw [flush_regs]
  exact ⟨rfl, rfl, rfl, rfl⟩

theorem sameRecord_fhdr (ts : Word) (src : FSrc) (f : Bool) (p : Word) (s : State) :
    s.regs.SameRecord (beginPacket ts src f p (writeHeader ts f p s).regs) := by
  rw [writeHeader_regs]
  exact ⟨rfl, rfl, rfl, rfl⟩

theorem sameRecord_afterMpkt (ts : Word) (s : State) : s.regs.SameRecord (afterMpkt ts s).regs := by
  obtain ⟨-, -, hregs, -⟩ := leaves_afterMpkt ts s
  rw [hregs]
  exact ⟨rfl, rfl, rfl, rfl⟩

/-! ## One command in a state and in the state without its record -/

/-- The command may raise the error with this ERR_INFO (60_exceptions.md R200, R206). -/
def MayRaise (i : Instr) (e : ErrCode) (info : Byte) : Prop :=
  e ∈ errorsOf i ∧ (e = .configError → 1 ≤ info.toNat ∧ info.toNat ≤ 10) ∧ (e ≠ .configError → info = 0)

/-- What `i` answers in `s` and in `s` without its error record: both runs raise the same error, or both complete and
keep the record they found, or both stop. -/
inductive SameOutcome (i : Instr) (s : State) : Result → Result → Prop
  | raised {e : ErrCode} {info : Byte} (h : MayRaise i e info) :
      SameOutcome i s (.next (s.raise i.opcode e info)) (.next ((withoutRecord s).raise i.opcode e info))
  | done {t u : State} (ht : s.regs.SameRecord t.regs) (hu : (withoutRecord s).regs.SameRecord u.regs) :
      SameOutcome i s (.next t) (.next u)
  | stopped (f : Fault) : SameOutcome i s (.fault f) (.fault f)

namespace SameOutcome

variable {i : Instr} {s : State} {a a' b b' : Result}

/-- An effect that keeps the record of every state. -/
theorem effect (f : State → State) (hf : ∀ x : State, x.regs.SameRecord (f x).regs) :
    SameOutcome i s (.next (f s)) (.next (f (withoutRecord s))) := .done (hf s) (hf (withoutRecord s))

/-- Checks that do not read the record (R208). -/
theorem checked {cs : List Check} (hcs : ∀ c ∈ cs, MayRaise i c.code c.info) (h : SameOutcome i s a a') :
    SameOutcome i s (checked i.opcode cs s a) (checked i.opcode cs (withoutRecord s) a') := by
  cases hfirst : firstFailing cs with
  | some c =>
    rw [checked_fail hfirst, checked_fail hfirst]
    exact .raised (hcs c (firstFailing_some hfirst).1)
  | none =>
    rw [checked_pass hfirst, checked_pass hfirst]
    exact h

/-- A choice that does not read the record. -/
theorem ite {p : Prop} [Decidable p] (h : SameOutcome i s a a') (hn : SameOutcome i s b b') :
    SameOutcome i s (if p then a else b) (if p then a' else b') := by
  split
  · exact h
  · exact hn

/-- The range guard reads the parameters alone (20_memory.md R73). -/
theorem within {sp : Space} {stop : Nat} (h : SameOutcome i s a a') :
    SameOutcome i s (within s sp stop a) (within (withoutRecord s) sp stop a') := ite h (.stopped _)

end SameOutcome

theorem mayRaise_of_mem_setupChecks {s : State} {c : Check} (hc : c ∈ setupChecks s) :
    MayRaise .setup c.code c.info := by
  simp only [setupChecks, List.mem_cons, List.not_mem_nil, or_false] at hc
  rcases hc with rfl | rfl | rfl | rfl | rfl | rfl | rfl | rfl | rfl | rfl | rfl <;> simp [MayRaise, errorsOf]

theorem mayRaise_of_mem_wrregChecks {r v : Word} {s : State} {c : Check} (hc : c ∈ wrregChecks r v s) :
    MayRaise (.wrreg r v) c.code c.info := by
  revert c
  unfold wrregChecks
  split <;> simp [MayRaise, errorsOf]

theorem execRdreg_sameOutcome (r : Word) (s : State) :
    SameOutcome (.rdreg r) s (execRdreg r s) (execRdreg r (withoutRecord s)) := by
  unfold execRdreg
  cases regOf r with
  | none => exact .raised (by simp [MayRaise, errorsOf])
  | some g => exact .effect (fun x => x.respond (x.regs.read g)) fun x => .refl x.regs

theorem execFhdr_sameOutcome (hi ts : Word) (s : State) :
    SameOutcome (.fhdr hi ts) s (execFhdr hi ts s) (execFhdr hi ts (withoutRecord s)) := by
  refine .checked (cs := [needsSetup s]) (by simp [MayRaise, errorsOf, needsSetup]) ?_
  have hselect : select (withoutRecord s).regs = select s.regs := rfl
  rw [hselect]
  cases select s.regs with
  | none => exact .raised (by simp [MayRaise, errorsOf])
  | some payload =>
    obtain ⟨src, f, p⟩ := payload
    exact .effect (fun x => ((writeHeader ts f p x).updRegs (beginPacket ts src f p)).respond 0)
      (sameRecord_fhdr ts src f p)

/-- No command but CLRERR and SRESET reads the error record to decide what it does, or clears it (R201). -/
theorem exec_sameOutcome (i : Instr) (s : State) (hclrerr : i ≠ .clrerr) (hsreset : i ≠ .sreset) :
    SameOutcome i s (exec i s) (exec i (withoutRecord s)) := by
  cases i with
  | nop => exact .effect (·.respond 0) fun x => .refl x.regs
  | wrreg r v =>
    exact .checked (cs := wrregChecks r v s) (fun _ => mayRaise_of_mem_wrregChecks)
      (.effect (fun x => (writeReg r v x).respond 0) (sameRecord_writeReg r v))
  | rdreg r => exact execRdreg_sameOutcome r s
  | wrmem sp a v =>
    exact .checked (by simp [MayRaise, errorsOf])
      (.effect (fun x => (x.writeBytes sp a.toNat [v.extractLsb' 0 8]).respond 0)
        fun x => sameRecord_writeBytes ..)
  | rdmem sp a =>
    exact .checked (by simp [MayRaise, errorsOf])
      (.effect (fun x => x.respond ((x.readByte sp a.toNat).setWidth 32)) fun x => .refl x.regs)
  | setup =>
    exact .checked (cs := setupChecks s) (fun _ => mayRaise_of_mem_setupChecks)
      (.effect (fun x => (writeConstants (x.updRegs configure)).respond 0) sameRecord_setup)
  | clrerr => exact absurd rfl hclrerr
  | sreset => exact absurd rfl hsreset
  | qsample c v =>
    exact .checked (by simp [MayRaise, errorsOf, needsSetup])
      (.effect (fun x => x.respond ((quant (v.extractLsb' 0 8) (x.regs.ebwAt c.toNat)).setWidth 32))
        fun x => .refl x.regs)
  | quant =>
    exact .checked (by simp [MayRaise, errorsOf, needsSetup])
      (.within (.within (.effect afterQuant fun x => sameRecord_writeBytes ..)))
  | pack =>
    exact .checked (by simp [MayRaise, errorsOf, needsSetup])
      (.within (.checked (by simp [MayRaise, errorsOf])
        (.within (.effect (fun x => (leaveBitstream x (packedFrame x)).respond 0)
          fun x => sameRecord_leaveBitstream ..))))
  | qpack =>
    exact .checked (by simp [MayRaise, errorsOf, needsSetup])
      (.within (.within (.effect (fun x => (leaveBitstream x (fusedFrame x)).respond 0)
        fun x => sameRecord_leaveBitstream ..)))
  | srst => exact .done ⟨rfl, rfl, rfl, rfl⟩ ⟨rfl, rfl, rfl, rfl⟩
  | spush n v =>
    exact .checked (by simp [MayRaise, errorsOf])
      (.effect (fun x => (pushBits (msbBits n v.toNat) x).respond 0) (sameRecord_pushBits _))
  | sflush =>
    exact .checked (by simp [MayRaise, errorsOf]) (.effect (fun x => (flush x).respond 0) sameRecord_flush)
  | fhdr hi ts => exact execFhdr_sameOutcome hi ts s
  | fpay =>
    exact .checked (by simp [MayRaise, errorsOf, inState])
      (.within (.within (.effect afterFpay fun x => ⟨rfl, rfl, rfl, rfl⟩)))
  | fmeta =>
    exact .checked (by simp [MayRaise, errorsOf, inState])
      (.ite (.within (.done ⟨rfl, rfl, rfl, rfl⟩ ⟨rfl, rfl, rfl, rfl⟩))
        (.done ⟨rfl, rfl, rfl, rfl⟩ ⟨rfl, rfl, rfl, rfl⟩))
  | fdone =>
    exact .checked (by simp [MayRaise, errorsOf, inState]) (.effect afterFdone fun x => ⟨rfl, rfl, rfl, rfl⟩)
  | mpkt hi ts =>
    exact .checked (by simp [MayRaise, errorsOf, needsSetup])
      (.within (.effect (afterMpkt ts) (sameRecord_afterMpkt ts)))

/-- What a command does that answers a next state: it raises an error, in the state without the record too, or keeps
the record in both. -/
theorem exec_raised_or_sameRecord {i : Instr} {s t : State} (hexec : exec i s = .next t) (hclrerr : i ≠ .clrerr)
    (hsreset : i ≠ .sreset) : ∃ u, exec i (withoutRecord s) = .next u
      ∧ ((∃ e info, MayRaise i e info ∧ t = s.raise i.opcode e info ∧ u = (withoutRecord s).raise i.opcode e info)
        ∨ (s.regs.SameRecord t.regs ∧ (withoutRecord s).regs.SameRecord u.regs)) := by
  have hsame := exec_sameOutcome i s hclrerr hsreset
  rw [hexec] at hsame
  generalize exec i (withoutRecord s) = answer at hsame ⊢
  cases hsame with
  | raised h => exact ⟨_, rfl, .inl ⟨_, _, h, rfl, rfl⟩⟩
  | done ht hu => exact ⟨_, rfl, .inr ⟨ht, hu⟩⟩

theorem ne_noError_of_mem_errorsOf {i : Instr} {e : ErrCode} (h : e ∈ errorsOf i) : e ≠ .noError := by
  rintro rfl
  exact noError_notMem_errorsOf i h

/-- The first error is recorded whole (R207). -/
theorem raise_regs_of_noError {s : State} (h : s.regs.errCode = .noError) (op : Byte) (e : ErrCode) (info : Byte) :
    (s.raise op e info).regs = { s.regs with errCode := e, errOp := op, errInfo := info } := recordError_first h ..

/-! ## The two statements -/

/-- Settles O16: both runs raise the same error or both keep their record, and `raise` changes ERR alone. -/
theorem anErrorChangesNothingButErr : Obligations.AnErrorChangesNothingButErr := by
  refine ⟨fun i s t hexec hclrerr hsreset => ?_,
    fun s c rest e hport he => ⟨_, step_of_decode_error hport he, raise_raised ..⟩⟩
  obtain ⟨u, hu, ⟨e, info, ⟨hmem, -, hinfo⟩, rfl, rfl⟩ | ⟨hsame, hcode, -, hinfo, -⟩⟩ :=
    exec_raised_or_sameRecord hexec hclrerr hsreset
  · refine ⟨_, hu, ?_⟩
    rw [raise_regs_of_noError (s := withoutRecord s) rfl]
    exact ⟨fun hno => absurd hno (ne_noError_of_mem_errorsOf hmem), fun _ => raise_raised .., hinfo⟩
  · exact ⟨u, hu, fun _ => hsame, fun hne => absurd hcode hne, fun _ => hinfo⟩

/-- R200 names a command in the column of every error it may raise. -/
theorem opcode_mem_raisersOf {i : Instr} {e : ErrCode} (h : e ∈ errorsOf i) : i.opcode.toNat ∈ raisersOf e := by
  revert e
  cases i <;> simp [errorsOf, raisersOf, Instr.opcode]

/-- Settles O17: CLRERR and SRESET leave no error; of the other commands one that raises an error is in its column. -/
theorem errorsComeFromTheirCommands : Obligations.ErrorsComeFromTheirCommands := by
  intro i s t hexec hempty hne
  obtain ⟨hclrerr, hsreset⟩ : i ≠ .clrerr ∧ i ≠ .sreset := by
    constructor <;> rintro rfl <;> obtain rfl := Host.Outcome.next.inj hexec <;> exact hne rfl
  obtain ⟨-, -, ⟨e, info, ⟨hmem, hnumber, hinfo⟩, rfl, -⟩ | ⟨⟨hcode, -⟩, -⟩⟩ :=
    exec_raised_or_sameRecord hexec hclrerr hsreset
  · rw [raise_regs_of_noError hempty]
    exact ⟨opcode_mem_raisersOf hmem, rfl, hnumber, hinfo⟩
  · exact absurd (hcode.trans hempty) hne

end Sys2Proof.Machine

/-! Power-on reset (70_reset_and_hazards.md R220), the commands that wait for SETUP (R222), and what each collaborator
may do to the block (R230). -/

namespace Sys2Proof.Machine

open Sys2Proof.Spec

/-! ## Power-on reset (R220) -/

@[simp] theorem powerOn_mem (p : Params) (sp : Space) : (State.powerOn p).mem sp = [] := by cases sp <;> rfl

/-- No byte is written yet, so every byte reads as the draw (20_memory.md R76). -/
theorem powerOn_readByte (p : Params) (sp : Space) (a : Nat) :
    (State.powerOn p).readByte sp a = Config.memInit sp a := by
  rw [State.readByte, powerOn_mem, Memory.get, Option.getD_none]

theorem poweredOn_powerOn (p : Params) : PoweredOn (State.powerOn p) :=
  ⟨reset_read, rfl, rfl, rfl, rfl, powerOn_readByte p, rfl⟩

/-- Settles O1: power-on leaves the reset registers and no written byte, whatever the parameters. -/
theorem resetRegistersAreZero : Obligations.ResetRegistersAreZero :=
  ⟨fun p => ⟨poweredOn_powerOn p, rfl⟩, poweredOn_powerOn Config.params, Config.params_wf⟩

/-- A memory with no written byte is in canonical form and inside its space. -/
theorem MemOk.empty (p : Params) (sp : Space) : MemOk p sp [] := ⟨.nil, nofun⟩

theorem powerOn_inv {p : Params} (hp : p.wf = true) : (State.powerOn p).Inv :=
  inv_of_memory_and_regs hp (fun sp => by rw [powerOn_mem]; exact .empty p sp) (.reset p)

/-- An unconfigured block has no constant header yet. -/
theorem powerOn_constantHeader (p : Params) : (State.powerOn p).ConstantHeader := nofun

/-- Settles O9: the empty memories and the reset registers meet the invariant, and nothing is configured. -/
theorem resetMeetsTheInvariant : Obligations.ResetMeetsTheInvariant :=
  ⟨fun p hp => ⟨powerOn_inv hp, powerOn_constantHeader p⟩, powerOn_inv Config.params_wf,
    powerOn_constantHeader Config.params⟩

/-! ## Before SETUP (R222) -/

/-- Settles O20: the codec, FHDR and MPKT check CONFIGURED first; FPAY, FMETA and FDONE find FSTATE = NEW. -/
theorem codecAndFramerWaitForSetup : Obligations.CodecAndFramerWaitForSetup := by
  intro s h hconf
  have hnew : s.regs.fstate = .new := (h.unconfigured hconf).1
  exact ⟨fun c v => (qsampleAnswersOneSample s c v h).1 hconf, (quantWritesTheQuantizedFrame s h).1 hconf,
    (packWritesTheBitstream s h).1 hconf, (qpackWritesTheBitstream s h).1 hconf,
    fun hi ts => (fhdrBeginsAPacket s hi ts).1 hconf, raises_fpay (by simp [hnew]), raises_fmeta (by simp [hnew]),
    raises_fdone (by simp [hnew]), raises_mpkt (.inl hconf)⟩

/-! ## What a command may change

The two rules over all commands, by the columns of 10_state.md R42 and 20_memory.md R60, as predicates on the command. -/

/-- The registers other than ERR that a command may change (10_state.md R42). -/
def MayChangeReg (i : Instr) (g : Reg) : Prop :=
  i = .sreset ∨ (∃ r v, i = .wrreg r v ∧ regOf r = some g) ∨ i.opcode.toNat ∈ writersOf g

/-- The bytes that a command may change (20_memory.md R60). -/
def MayChangeByte (i : Instr) (sp : Space) (a : Nat) : Prop :=
  i.opcode.toNat ∈ memoryWritersOf sp ∧ ∀ sp' a' v, i = .wrmem sp' a' v → sp' = sp ∧ a'.toNat = a

theorem read_of_not_mayChangeReg {i : Instr} {s t : State} {g : Reg} (hexec : exec i s = .next t) (herr : g ≠ .err)
    (h : ¬ MayChangeReg i g) : t.regs.read g = s.regs.read g :=
  not_not.mp (mt (registersChangeOnlyByTheirWriters i s t g hexec herr) h)

theorem readByte_of_not_mayChangeByte {i : Instr} {s t : State} {sp : Space} {a : Nat} (hexec : exec i s = .next t)
    (h : ¬ MayChangeByte i sp a) : t.readByte sp a = s.readByte sp a :=
  not_not.mp (mt (memoriesChangeOnlyByTheirWriters i s t sp a hexec) h)

/-- WRMEM changes no register but ERR. -/
theorem not_mayChangeReg_wrmem (sp : Space) (a v : Word) (g : Reg) : ¬ MayChangeReg (.wrmem sp a v) g := by
  cases g <;> simp [MayChangeReg, writersOf, Instr.opcode]

/-- RDMEM changes no register but ERR. -/
theorem not_mayChangeReg_rdmem (sp : Space) (a : Word) (g : Reg) : ¬ MayChangeReg (.rdmem sp a) g := by
  cases g <;> simp [MayChangeReg, writersOf, Instr.opcode]

/-- WRREG changes the register its index names. -/
theorem regOf_of_mayChangeReg_wrreg {r v : Word} {g : Reg} (h : MayChangeReg (.wrreg r v) g) : regOf r = some g := by
  have hcol : (Instr.wrreg r v).opcode.toNat ∉ writersOf g := by cases g <;> simp [writersOf, Instr.opcode]
  obtain h | ⟨_, _, hi, hr⟩ | h := h
  · cases h
  · cases hi
    exact hr
  · exact absurd h hcol

/-- WRMEM changes the byte it addresses. -/
theorem addressed_of_mayChangeByte_wrmem {sp sp' : Space} {a v : Word} {a' : Nat}
    (h : MayChangeByte (.wrmem sp a v) sp' a') : sp = sp' ∧ a.toNat = a' := h.2 sp a v rfl

theorem not_mayChangeByte_rdmem (sp : Space) (a : Word) (sp' : Space) (a' : Nat) :
    ¬ MayChangeByte (.rdmem sp a) sp' a' := by
  cases sp' <;> simp [MayChangeByte, memoryWritersOf, Instr.opcode]

theorem not_mayChangeByte_wrreg (r v : Word) (sp : Space) (a : Nat) : ¬ MayChangeByte (.wrreg r v) sp a := by
  cases sp <;> simp [MayChangeByte, memoryWritersOf, Instr.opcode]

theorem not_mayChangeByte_sreset (sp : Space) (a : Nat) : ¬ MayChangeByte .sreset sp a := by
  cases sp <;> simp [MayChangeByte, memoryWritersOf, Instr.opcode]

/-- SETUP writes the two arenas only. -/
theorem arena_of_mayChangeByte_setup {sp : Space} {a : Nat} (h : MayChangeByte .setup sp a) : sp = .pa ∨ sp = .ma := by
  cases sp <;> simp [MayChangeByte, memoryWritersOf, Instr.opcode] at h ⊢

/-! ## Collaborators (R230) -/

/-- Whatever the command may change lies in the part given by `bytes` and `regs`. -/
def StaysIn (i : Instr) (bytes : Space → Nat → Prop) (regs : Reg → Prop) : Prop :=
  (∀ sp a, MayChangeByte i sp a → bytes sp a) ∧ ∀ g, MayChangeReg i g → regs g

section Parts

variable {bytes : Space → Nat → Prop} {regs : Reg → Prop}

theorem staysIn_rdmem (sp : Space) (a : Word) : StaysIn (.rdmem sp a) bytes regs :=
  ⟨fun _ _ h => (not_mayChangeByte_rdmem _ _ _ _ h).elim, fun _ h => (not_mayChangeReg_rdmem _ _ _ h).elim⟩

/-- Reading the bitstream changes nothing. -/
theorem staysIn_of_readBitstream {s : State} {i : Instr} (h : readBitstream s i = true) : StaysIn i bytes regs := by
  cases i with
  | rdmem sp a => exact staysIn_rdmem sp a
  | _ => cases h

/-- Reading a packet changes nothing. -/
theorem staysIn_of_readPacket {s : State} {i : Instr} (h : readPacket s i = true) : StaysIn i bytes regs := by
  cases i with
  | rdmem sp a => exact staysIn_rdmem sp a
  | _ => cases h

theorem staysIn_wrmem {sp : Space} {a : Word} (v : Word) (hbyte : bytes sp a.toNat) :
    StaysIn (.wrmem sp a v) bytes regs := by
  refine ⟨fun sp' a' h => ?_, fun _ h => (not_mayChangeReg_wrmem _ _ _ _ h).elim⟩
  obtain ⟨rfl, rfl⟩ := addressed_of_mayChangeByte_wrmem h
  exact hbyte

theorem staysIn_wrreg {r : Word} (v : Word) (hreg : ∀ g, regOf r = some g → regs g) :
    StaysIn (.wrreg r v) bytes regs :=
  ⟨fun _ _ h => (not_mayChangeByte_wrreg _ _ _ _ h).elim, fun g h => hreg g (regOf_of_mayChangeReg_wrreg h)⟩

end Parts

/-- A supplier of CB stores to CB and changes CLEN and CVALID. -/
theorem staysIn_of_supplyPayload {i : Instr} (h : supplyPayload i = true) :
    StaysIn i (fun sp _ => sp = .cb) (fun g => g = .clen ∨ g = .cvalid) := by
  cases i with
  | wrmem sp a v => exact staysIn_wrmem v (of_decide_eq_true h)
  | wrreg r v =>
    have hr : regOf r = some .clen ∨ regOf r = some .cvalid := by simpa [supplyPayload] using h
    exact staysIn_wrreg v fun g hg => by simpa [hg] using hr
  | _ => cases h

theorem staysIn_of_supplyFrame {s : State} {i : Instr} (h : supplyFrame s i = true) :
    StaysIn i (collaboratorBytes s .captureSource) (collaboratorRegs s .captureSource) := by
  cases i with
  | wrmem sp a v => exact staysIn_wrmem v (by simpa [supplyFrame, collaboratorBytes] using h)
  | _ => cases h

theorem staysIn_of_supplyReading {s : State} {i : Instr} (h : supplyReading s i = true) :
    StaysIn i (collaboratorBytes s .metadataCache) (collaboratorRegs s .metadataCache) := by
  cases i with
  | wrreg r v =>
    refine staysIn_wrreg v fun g hr => ?_
    have hg : isReading s g = true := by simpa [supplyReading, hr] using h
    cases g with
    | mval slot => exact ⟨slot, of_decide_eq_true hg, rfl⟩
    | _ => cases hg
  | _ => cases h

theorem staysIn_of_loadConfiguration {s : State} {i : Instr} (h : loadConfiguration i = true) :
    StaysIn i (collaboratorBytes s .configurationLoader) (collaboratorRegs s .configurationLoader) := by
  cases i with
  | wrreg r v => exact staysIn_wrreg v fun _ _ => trivial
  | setup => exact ⟨fun _ _ => arena_of_mayChangeByte_setup, fun _ _ => trivial⟩
  | sreset => exact ⟨fun _ _ h => (not_mayChangeByte_sreset _ _ h).elim, fun _ _ => trivial⟩
  | _ => cases h

/-- The generation in which a supplier of CB acts. -/
theorem Collaborator.generation_of_may {k : Collaborator} {s : State} {i : Instr} (h : k.may s i = true) :
    (k = .compressor → s.regs.gen.toNat = 1) ∧ (k = .jpegEncoder → s.regs.gen.toNat = 2) := by
  constructor
  · rintro rfl
    have hg : s.regs.gen = 1 := of_decide_eq_true (Bool.and_eq_true_iff.mp h).1
    rw [hg]
    rfl
  · rintro rfl
    have hg : s.regs.gen = 2 := of_decide_eq_true (Bool.and_eq_true_iff.mp h).1
    rw [hg]
    rfl

/-- What a collaborator may issue changes its own part of the block only. -/
theorem Collaborator.staysIn_of_may {k : Collaborator} {s : State} {i : Instr} (h : k.may s i = true) :
    StaysIn i (collaboratorBytes s k) (collaboratorRegs s k) := by
  cases k with
  | captureSource => exact staysIn_of_supplyFrame h
  | compressor =>
    obtain ⟨-, hread | hsupply⟩ : _ ∧ (readBitstream s i = true ∨ supplyPayload i = true) := by
      simpa [Collaborator.may] using h
    · exact staysIn_of_readBitstream hread
    · exact staysIn_of_supplyPayload hsupply
  | jpegEncoder => exact staysIn_of_supplyPayload (Bool.and_eq_true_iff.mp h).2
  | metadataCache => exact staysIn_of_supplyReading h
  | transportSender => exact staysIn_of_readPacket h
  | configurationLoader => exact staysIn_of_loadConfiguration h

/-- Settles O21: every command answers, and one a collaborator may issue has its possible changes in that collaborator's
part. -/
theorem collaboratorsTouchOnlyTheirPart : Obligations.CollaboratorsTouchOnlyTheirPart := by
  intro k i s h hmay
  obtain ⟨t, hexec⟩ := h.exec_answers i
  obtain ⟨hbytes, hregs⟩ := Collaborator.staysIn_of_may hmay
  exact ⟨t, hexec, fun sp a hout => readByte_of_not_mayChangeByte hexec (mt (hbytes sp a) hout),
    fun g herr hout => read_of_not_mayChangeReg hexec herr (mt (hregs g) hout), Collaborator.generation_of_may hmay⟩

end Sys2Proof.Machine
